-- ==== Sys2Proof/Word.lean ====
section
/-! DEFINITION. The word types of the block (spec/00_scope.md R8, R9; spec/30_encoding.md R60).
Every word of every width numbers its bits from 0, the least significant (R8), which is `BitVec`'s own numbering. -/

namespace Sys2Proof

/-- One byte of the buffer memory (R27). -/
abbrev Byte := BitVec 8

/-- A 32-bit word: an indicator word, a bit-field word, a buffer address, a cursor, a length (R11, R20, R40). -/
abbrev Word := BitVec 32

/-- A 64-bit value: the `data` operand and the result `res`; a binary64 pattern travels in one (R60, R62, R71). -/
abbrev DWord := BitVec 64

/-- One command, `cmd[127:0]` (R60). -/
abbrev CommandWord := BitVec 128

end Sys2Proof
end

