-- ==== Sys2Proof/Config.lean ====
section
/-! DEFINITION. The configuration record of spec/00_scope.md R7: what is fixed for one block and is not state (R30).

A parameter the spec leaves OPEN is an `opaque` constant with no body: no proof can learn its value, so what is proved
holds whatever the value is. Where the spec states a constraint on an OPEN parameter, the constant's TYPE carries
the constraint as a proof field, and nothing else is known of it. The defaults written in those types only show that the type has
a member (Lean asks that of an opaque constant); the constants are not defined by them and nothing reduces to them. -/

namespace Sys2Proof.Config

/-! ## Fixed values -/

/-- NSHAPE (R7, R100): the number of bitmap shapes. -/
def nShape : Nat := 8

/-- RADIX_MAX (R7, R81): the largest radix, the whole range of an 8-bit operand. -/
def radixMax : Nat := 255

/-- M1_T(16) (R7, R125). -/
def m1Threshold16 : Nat := 0xFFFF

/-- M1_T(6) (R7, R125). -/
def m1Threshold6 : Nat := 64

/-- SSS_REC (R7, R165): the SectorStepScan record size in bytes. -/
def sssRecord : Nat := 80

/-- DEVCODE_W (R7, R159). PRESUMED: the spec takes 16 from general knowledge (D39); only a pseudo-instruction uses it. -/
def devCodeWidth : Nat := 16

/-! ## OPEN values: the codec -/

/-- FX_NONFINITE(W, v, R) (R7, R86, D13): what FXENC answers for a NaN, an infinity or a product that overflows
binary64. A free value: total, a function of width, operand pattern and radix alone, otherwise unconstrained. -/
opaque fxNonfinite (w : Nat) (v : DWord) (radix : Byte) : BitVec w

/-! ## OPEN values: the buffer -/

/-- The type of BUF_CAP (R7, D24): a number of bytes from 1 to 2^32 - 1. -/
structure Capacity where
  bytes : Nat := 1
  pos : 1 ≤ bytes := by decide
  lt : bytes < 2 ^ 32 := by decide
  deriving Inhabited

/-- The block's BUF_CAP record (R7, D24). -/
opaque capacity : Capacity

/-- BUF_CAP (R7, R27): how many bytes the buffer memory has. -/
def bufCap : Nat := capacity.bytes

/-- The value of a byte of BUF that neither a command nor the host has written since the reset that began `epoch`
(R206, R220, U2: "each byte as an arbitrary value fixed at reset"). A free value. -/
opaque unwrittenByte (epoch : Nat) (addr : Nat) : Byte

/-! ## OPEN values: the tables -/

/-- One entry of a shape table (R73, R103): a field's name and its bit position 0..31. -/
structure ShapeEntry where
  name : String
  pos : Fin 32
  deriving DecidableEq, Repr

/-- A shape table (R7, R103): an ordered list of entries, at most 32 of them, no two at one position. -/
structure ShapeTable where
  entries : List ShapeEntry := []
  short : entries.length ≤ 32 := by decide
  distinct : (entries.map ShapeEntry.pos).Nodup := by decide
  deriving Inhabited

/-- The four enable flags of the further CIF words, which the source says shape 0 contains (R103). -/
def enableFlagNames : List String := ["If7", "If3", "If2", "If1"]

/-- The eight shape tables under the facts R103 states of their contents: shape 7 has exactly 12 entries, and shape 0
contains the four enable flags. -/
structure ShapeTables where
  table : Fin 8 → ShapeTable := fun s =>
    if s = 7 then { entries := (List.finRange 12).map fun i => ⟨"", Fin.castLE (by decide) i⟩ }
    else { entries := [⟨"If7", 0⟩, ⟨"If3", 1⟩, ⟨"If2", 2⟩, ⟨"If1", 3⟩] }
  sssHasTwelve : (table 7).entries.length = 12 := by decide
  cif0HasEnables : ∀ n ∈ enableFlagNames, n ∈ (table 0).entries.map ShapeEntry.name := by decide
  deriving Inhabited

/-- The block's SHAPE tables (R7, R103, D17). -/
opaque shapes : ShapeTables

/-- SHAPE[s] (R7): the ordered entries of one shape. -/
def shape (s : Fin 8) : List ShapeEntry := (shapes.table s).entries

/-- NS[s] (R7): how many entries a shape has. -/
def shapeSize (s : Fin 8) : Nat := (shape s).length

/-- EVPOS (R7, R111): for each of the eight pairs the position EP of its enable bit and VP of its value bit,
all sixteen distinct. -/
structure PairPositions where
  ep : Fin 8 → Fin 32 := fun i => ⟨i.val, by omega⟩
  vp : Fin 8 → Fin 32 := fun i => ⟨i.val + 8, by omega⟩
  distinct : ((List.finRange 8).map ep ++ (List.finRange 8).map vp).Nodup := by decide
  deriving Inhabited

/-- The block's EVPOS table (R111, D18). -/
opaque evPos : PairPositions

/-! ## OPEN values: layout constants of pseudo-instructions (no command of the block depends on them, D37) -/

/-- SSS_BASE (R7, R165): the SectorStepScan header size in bytes. -/
opaque sssBase : Word

/-- GPS_BASE (R7, R166): the GpsAscii bytes before the payload. -/
opaque gpsBase : Word

/-- Where one sub-field of an 8-byte header lies (R161, R164): the word, the least significant bit,
the width. -/
structure SubField where
  word : Fin 2
  off : Fin 32
  width : Nat
  deriving DecidableEq, Repr

/-- The sub-field lies inside its word. -/
def SubField.fits (f : SubField) : Bool := decide (f.off.val + f.width ≤ 32)

/-- Two sub-fields share no bit. -/
def SubField.apart (f g : SubField) : Bool :=
  decide (f.word ≠ g.word) || decide (f.off.val + f.width ≤ g.off.val) || decide (g.off.val + g.width ≤ f.off.val)

/-- The source-list count Ns, the one position the source fixes: word0[23:16] (R161). -/
def calSource : SubField := ⟨0, 16, 8⟩

/-- CAL_SYS, CAL_VEC, CAL_TAG, CAL_ASYNC (R7, R161): pairs of word index and bit offset for sub-fields of 8, 15, 1 and
15 bits (R160) that overlap neither each other nor word0[23:16]. -/
structure CalLayout where
  sys : Fin 2 × Fin 32 := (0, 0)
  vec : Fin 2 × Fin 32 := (1, 0)
  tag : Fin 2 × Fin 32 := (1, 31)
  async : Fin 2 × Fin 32 := (1, 15)
  fit : ([⟨sys.1, sys.2, 8⟩, ⟨vec.1, vec.2, 15⟩, ⟨tag.1, tag.2, 1⟩, ⟨async.1, async.2, 15⟩] : List SubField).all
    SubField.fits = true := by decide
  apart : ([calSource, ⟨sys.1, sys.2, 8⟩, ⟨vec.1, vec.2, 15⟩, ⟨tag.1, tag.2, 1⟩, ⟨async.1, async.2, 15⟩] :
    List SubField).Pairwise (fun f g => f.apart g = true) := by decide
  deriving Inhabited

/-- The block's ContextAssociationLists header layout (R161, D37). -/
opaque cal : CalLayout

end Sys2Proof.Config
end

