-- ==== Sys2Proof/Syntax.lean ====
section
/-! DEFINITION. The commands of the block as terms: one constructor per row of the opcode map (spec/30_encoding.md R64).

A constructor holds exactly the fields its command uses, each as wide as the encoding has it, in the operand
order of the assembler (R75); a field the command ignores is not there. So a term is also an assembler line (R75): `?p` is
the gate, `@n` and `@+` the address operand, and `Sys2Proof.encode` assembles it. -/

namespace Sys2Proof

/-- The gate of a command (R61, R104). GE = 0: the command always runs, and GP is ignored. GE = 1: it runs only if
`IW[p]` is 1. -/
inductive Gate where
  | always
  | ifPresent (p : BitVec 5)
  deriving DecidableEq, Repr

/-- The address operand of STBE, LDBE, CHKSZ and CHKVL (R61, R135). CM = 0: the address is `aux`. CM = 1: the address is
CUR, and `aux` is ignored. -/
inductive AddrOperand where
  | absolute (addr : Word)
  | cursor
  deriving DecidableEq, Repr

/-- The 27 commands (R64). An operand may hold any value its field can hold; `Instr.wf` says which values are legal (R67). -/
inductive Instr where
  /-- R136: declare a buffer of `len` bytes. -/
  | bufset (g : Gate) (len : Word)
  /-- R137: read LEN. -/
  | lenget (g : Gate)
  /-- R138: set the cursor. -/
  | curset (g : Gate) (off : Word)
  /-- R139: read CUR. -/
  | curget (g : Gate)
  /-- R101: latch the indicator word. -/
  | iwset (g : Gate) (word : Word)
  /-- R102: read IW. -/
  | iwget (g : Gate)
  /-- R107: flags vector to indicator word, by the table of a shape. -/
  | bmpack (g : Gate) (shape : Byte) (flags : Word)
  /-- R108: indicator word to flags vector, by the table of a shape. -/
  | bmunpack (g : Gate) (shape : Byte) (word : Word)
  /-- R105: OR one flag into a word; the flag is `aux[0]`. -/
  | bmor (g : Gate) (pos : Byte) (word : Word) (flag : BitVec 1)
  /-- R106: test one bit of a word. -/
  | bmtst (g : Gate) (pos : Byte) (word : Word)
  /-- R112: eight enable/value pairs to a word. -/
  | evpack (g : Gate) (enables values : Byte)
  /-- R113: a word to eight enable/value pairs. -/
  | evunpack (g : Gate) (word : Word)
  /-- R89: binary64 to 16-bit fixed point. -/
  | fxenc16 (g : Gate) (radix : Byte) (value : DWord)
  /-- R90: binary64 to 32-bit fixed point. -/
  | fxenc32 (g : Gate) (radix : Byte) (value : DWord)
  /-- R91: binary64 to 64-bit fixed point. -/
  | fxenc64 (g : Gate) (radix : Byte) (value : DWord)
  /-- R92: 16-bit fixed point to binary64; the raw integer is `data[15:0]`. -/
  | fxdec16 (g : Gate) (radix : Byte) (raw : BitVec 16)
  /-- R93: 32-bit fixed point to binary64; the raw integer is `data[31:0]`. -/
  | fxdec32 (g : Gate) (radix : Byte) (raw : BitVec 32)
  /-- R94: 64-bit fixed point to binary64. -/
  | fxdec64 (g : Gate) (radix : Byte) (raw : BitVec 64)
  /-- R122: OR a value of a given width into a word at a bit offset. -/
  | bfins (g : Gate) (off width : Byte) (word : Word) (value : Word)
  /-- R123: extract a field of a word. -/
  | bfext (g : Gate) (off width : Byte) (word : Word)
  /-- R126: the (value - 1) codec, pack direction. -/
  | m1enc (g : Gate) (width : Byte) (value : Word)
  /-- R127: the (value - 1) codec, unpack direction; the stored sub-field is in the low bits of `data[15:0]`. -/
  | m1dec (g : Gate) (width : Byte) (stored : BitVec 16)
  /-- R140: store `n` bytes, big-endian. -/
  | stbe (g : Gate) (n : Byte) (addr : AddrOperand) (value : DWord)
  /-- R141: load `n` bytes, big-endian. -/
  | ldbe (g : Gate) (n : Byte) (addr : AddrOperand)
  /-- R143: base + count x stride. -/
  | vsize (g : Gate) (base count stride : Word)
  /-- R144: does a structure of the given size fit at the address. -/
  | chksz (g : Gate) (addr : AddrOperand) (size : DWord)
  /-- R145: as CHKSZ, for a size computed from declared counts. -/
  | chkvl (g : Gate) (addr : AddrOperand) (size : DWord)
  deriving DecidableEq, Repr

/-- The gate every command carries (R61). -/
def Instr.gate : Instr → Gate
  | .bufset g _ | .lenget g | .curset g _ | .curget g | .iwset g _ | .iwget g | .bmpack g _ _ | .bmunpack g _ _
  | .bmor g _ _ _ | .bmtst g _ _ | .evpack g _ _ | .evunpack g _ | .fxenc16 g _ _ | .fxenc32 g _ _ | .fxenc64 g _ _
  | .fxdec16 g _ _ | .fxdec32 g _ _ | .fxdec64 g _ _ | .bfins g _ _ _ _ | .bfext g _ _ _ | .m1enc g _ _ | .m1dec g _ _
  | .stbe g _ _ _ | .ldbe g _ _ | .vsize g _ _ _ | .chksz g _ _ | .chkvl g _ _ => g

end Sys2Proof
end

