-- ==== Sys2Proof/WellFormed.lean ====
section
/-! DEFINITION. Which operand values are legal: the table of spec/30_encoding.md R67, one check per row of it.
"No other operand value is illegal" (R67). -/

namespace Sys2Proof

/-- BUFSET: illegal when `aux` > BUF_CAP (R67). -/
def lenFits (cap : Nat) (len : Word) : Bool := decide (len.toNat ≤ cap)

/-- BMPACK, BMUNPACK: illegal when `a` > 7 (R67). -/
def shapeInRange (shape : Byte) : Bool := decide (shape.toNat ≤ 7)

/-- BMOR, BMTST: illegal when `a` > 31 (R67). -/
def posInRange (pos : Byte) : Bool := decide (pos.toNat ≤ 31)

/-- BFINS, BFEXT: illegal when `b` = 0, or `b` > 32, or `a` > 31, or `a` + `b` > 32 (R67, R120). -/
def fieldInWord (off width : Byte) : Bool :=
  decide (1 ≤ width.toNat) && decide (width.toNat ≤ 32) && decide (off.toNat ≤ 31) &&
    decide (off.toNat + width.toNat ≤ 32)

/-- M1ENC, M1DEC: illegal when `b` is neither 6 nor 16 (R67). -/
def m1WidthOk (width : Byte) : Bool := width == 6#8 || width == 16#8

/-- STBE, LDBE: illegal when `b` is not in {1, 2, 4, 8} (R45, R67). -/
def byteCountOk (n : Byte) : Bool := n == 1#8 || n == 2#8 || n == 4#8 || n == 8#8

/-- A command is well formed when no operand field it uses is out of range (R67). -/
def Instr.wf : Instr → Bool
  | .bufset _ len => lenFits Config.bufCap len
  | .bmpack _ shape _ => shapeInRange shape
  | .bmunpack _ shape _ => shapeInRange shape
  | .bmor _ pos _ _ => posInRange pos
  | .bmtst _ pos _ => posInRange pos
  | .bfins _ off width _ _ => fieldInWord off width
  | .bfext _ off width _ => fieldInWord off width
  | .m1enc _ width _ => m1WidthOk width
  | .m1dec _ width _ => m1WidthOk width
  | .stbe _ n _ _ => byteCountOk n
  | .ldbe _ n _ => byteCountOk n
  | .lenget _ | .curset _ _ | .curget _ | .iwset _ _ | .iwget _ | .evpack _ _ _ | .evunpack _ _ | .fxenc16 _ _ _
  | .fxenc32 _ _ _ | .fxenc64 _ _ _ | .fxdec16 _ _ _ | .fxdec32 _ _ _ | .fxdec64 _ _ _ | .vsize _ _ _ _
  | .chksz _ _ _ | .chkvl _ _ _ => true

end Sys2Proof
end

