-- ==== Sys2Proof/Decode.lean ====
section
/-! DEFINITION. The command word: its fields, the decoder and the encoder (spec/30_encoding.md R60 to R69).
Decoding is total (R65): the row is chosen by `op` alone, then the row's operand constraints apply (R67). -/

namespace Sys2Proof

/-- The fields of a command word in format C (R60); the `g` field is given as its sub-fields (R61). -/
structure Fields where
  op : BitVec 8
  a : BitVec 8
  b : BitVec 8
  ge : BitVec 1
  cm : BitVec 1
  g5 : BitVec 1
  gp : BitVec 5
  aux : BitVec 32
  data : BitVec 64
  deriving DecidableEq, Repr

/-- The fields of a word, at the bit places of R60 and R61. -/
def Fields.ofWord (w : CommandWord) : Fields where
  op := w.extractLsb' 120 8
  a := w.extractLsb' 112 8
  b := w.extractLsb' 104 8
  ge := w.extractLsb' 103 1
  cm := w.extractLsb' 102 1
  g5 := w.extractLsb' 101 1
  gp := w.extractLsb' 96 5
  aux := w.extractLsb' 64 32
  data := w.extractLsb' 0 64

/-- The word with the given fields, `op` in the highest bits (R60). -/
def Fields.toWord (f : Fields) : CommandWord :=
  f.op ++ f.a ++ f.b ++ f.ge ++ f.cm ++ f.g5 ++ f.gp ++ f.aux ++ f.data

/-- The gate of a command: GE and, when GE = 1, GP (R61). -/
def Fields.gate (f : Fields) : Gate := if f.ge = 1#1 then .ifPresent f.gp else .always

/-- The address operand of a command that reads CM (R61). -/
def Fields.addr (f : Fields) : AddrOperand := if f.cm = 1#1 then .cursor else .absolute f.aux

/-- `data[31:0]` (R64: "word is data[31:0]"). -/
def Fields.word (f : Fields) : Word := f.data.extractLsb' 0 32

/-- The row of the opcode map that `op` chooses, with its operands; `none` for an unassigned `op` (R64, R65, R66). -/
def readFields (f : Fields) : Option Instr :=
  match f.op with
  | 0x01#8 => some (.bufset f.gate f.aux)
  | 0x02#8 => some (.lenget f.gate)
  | 0x03#8 => some (.curset f.gate f.aux)
  | 0x04#8 => some (.curget f.gate)
  | 0x08#8 => some (.iwset f.gate f.word)
  | 0x09#8 => some (.iwget f.gate)
  | 0x10#8 => some (.bmpack f.gate f.a f.word)
  | 0x11#8 => some (.bmunpack f.gate f.a f.word)
  | 0x12#8 => some (.bmor f.gate f.a f.word (f.aux.extractLsb' 0 1))
  | 0x13#8 => some (.bmtst f.gate f.a f.word)
  | 0x14#8 => some (.evpack f.gate (f.data.extractLsb' 0 8) (f.data.extractLsb' 8 8))
  | 0x15#8 => some (.evunpack f.gate f.word)
  | 0x20#8 => some (.fxenc16 f.gate f.a f.data)
  | 0x21#8 => some (.fxenc32 f.gate f.a f.data)
  | 0x22#8 => some (.fxenc64 f.gate f.a f.data)
  | 0x24#8 => some (.fxdec16 f.gate f.a (f.data.extractLsb' 0 16))
  | 0x25#8 => some (.fxdec32 f.gate f.a (f.data.extractLsb' 0 32))
  | 0x26#8 => some (.fxdec64 f.gate f.a f.data)
  | 0x30#8 => some (.bfins f.gate f.a f.b f.word f.aux)
  | 0x31#8 => some (.bfext f.gate f.a f.b f.word)
  | 0x32#8 => some (.m1enc f.gate f.b f.aux)
  | 0x33#8 => some (.m1dec f.gate f.b (f.data.extractLsb' 0 16))
  | 0x40#8 => some (.stbe f.gate f.b f.addr f.data)
  | 0x41#8 => some (.ldbe f.gate f.b f.addr)
  | 0x44#8 => some (.vsize f.gate f.aux (f.data.extractLsb' 0 32) (f.data.extractLsb' 32 32))
  | 0x45#8 => some (.chksz f.gate f.addr f.data)
  | 0x46#8 => some (.chkvl f.gate f.addr f.data)
  | _ => none

/-- Why a word is no command (R66, R67). -/
inductive Illegal where
  /-- `op` is in no row of the opcode map (R66). -/
  | unassignedOp (op : BitVec 8)
  /-- `op` is assigned, but an operand field the command uses is out of range (R67). -/
  | operandOutOfRange (i : Instr)
  deriving DecidableEq, Repr

/-- What a command word decodes to: "either to one command of rule R64 with its operands, or to illegal" (R65). -/
inductive Decoded where
  | command (i : Instr)
  | illegal (why : Illegal)
  deriving DecidableEq, Repr

/-- The decoder, total on every 128-bit word (R65, R66, R67). -/
def decode (w : CommandWord) : Decoded :=
  match readFields (Fields.ofWord w) with
  | none => .illegal (.unassignedOp (Fields.ofWord w).op)
  | some i => if i.wf then .command i else .illegal (.operandOutOfRange i)

/-- The command of a decoded word, if it is one. -/
def Decoded.command? : Decoded → Option Instr
  | .command i => some i
  | .illegal _ => none

/-- What the decoder reads from an instruction numbered as spec/opcode_table.json numbers its bits. A command is ONE
128-bit word (R60), so bit k of the number is `cmd[k]`; bits at or above `nbits` are 0. -/
def decodeTableWord (nbits w : Nat) : Option Instr := (decode (BitVec.ofNat 128 (w % 2 ^ nbits))).command?

/-! ## The encoder -/

/-- The sub-fields GE and GP of a gate (R61). A field a command ignores is encoded as 0 (R75). -/
def Gate.geBits : Gate → BitVec 1
  | .always => 0#1
  | .ifPresent _ => 1#1

/-- GP, 0 when GE = 0 (R61, R75). -/
def Gate.gpBits : Gate → BitVec 5
  | .always => 0#5
  | .ifPresent p => p

/-- CM of an address operand (R61). -/
def AddrOperand.cmBits : AddrOperand → BitVec 1
  | .absolute _ => 0#1
  | .cursor => 1#1

/-- `aux` of an address operand; `@+` encodes it as 0 (R61, R75). -/
def AddrOperand.auxBits : AddrOperand → BitVec 32
  | .absolute addr => addr
  | .cursor => 0#32

/-- The fields common to every command: `op` and the gate, all else 0 (R60, R61, R75). -/
def Gate.fields (g : Gate) (op : BitVec 8) : Fields :=
  { op := op, a := 0, b := 0, ge := g.geBits, cm := 0, g5 := 0, gp := g.gpBits, aux := 0, data := 0 }

/-- The fields of a command (R64, R75). -/
def encodeFields : Instr → Fields
  | .bufset g len => { g.fields 0x01#8 with aux := len }
  | .lenget g => g.fields 0x02#8
  | .curset g off => { g.fields 0x03#8 with aux := off }
  | .curget g => g.fields 0x04#8
  | .iwset g word => { g.fields 0x08#8 with data := word.setWidth 64 }
  | .iwget g => g.fields 0x09#8
  | .bmpack g shape flags => { g.fields 0x10#8 with a := shape, data := flags.setWidth 64 }
  | .bmunpack g shape word => { g.fields 0x11#8 with a := shape, data := word.setWidth 64 }
  | .bmor g pos word flag => { g.fields 0x12#8 with a := pos, aux := flag.setWidth 32, data := word.setWidth 64 }
  | .bmtst g pos word => { g.fields 0x13#8 with a := pos, data := word.setWidth 64 }
  | .evpack g enables values => { g.fields 0x14#8 with data := (values ++ enables).setWidth 64 }
  | .evunpack g word => { g.fields 0x15#8 with data := word.setWidth 64 }
  | .fxenc16 g radix value => { g.fields 0x20#8 with a := radix, data := value }
  | .fxenc32 g radix value => { g.fields 0x21#8 with a := radix, data := value }
  | .fxenc64 g radix value => { g.fields 0x22#8 with a := radix, data := value }
  | .fxdec16 g radix raw => { g.fields 0x24#8 with a := radix, data := raw.setWidth 64 }
  | .fxdec32 g radix raw => { g.fields 0x25#8 with a := radix, data := raw.setWidth 64 }
  | .fxdec64 g radix raw => { g.fields 0x26#8 with a := radix, data := raw }
  | .bfins g off width word value => { g.fields 0x30#8 with a := off, b := width, aux := value, data := word.setWidth 64 }
  | .bfext g off width word => { g.fields 0x31#8 with a := off, b := width, data := word.setWidth 64 }
  | .m1enc g width value => { g.fields 0x32#8 with b := width, aux := value }
  | .m1dec g width stored => { g.fields 0x33#8 with b := width, data := stored.setWidth 64 }
  | .stbe g n addr value => { g.fields 0x40#8 with b := n, cm := addr.cmBits, aux := addr.auxBits, data := value }
  | .ldbe g n addr => { g.fields 0x41#8 with b := n, cm := addr.cmBits, aux := addr.auxBits }
  | .vsize g base count stride => { g.fields 0x44#8 with aux := base, data := stride ++ count }
  | .chksz g addr size => { g.fields 0x45#8 with cm := addr.cmBits, aux := addr.auxBits, data := size }
  | .chkvl g addr size => { g.fields 0x46#8 with cm := addr.cmBits, aux := addr.auxBits, data := size }

/-- The command word of an instruction (R60, R64, R75): also the assembler of R75. -/
def encode (i : Instr) : CommandWord := (encodeFields i).toWord

end Sys2Proof
end

