-- ==== Sys2Proof/Machine/State.lean ====
section
/-! DEFINITION. The state of one FXBP block with the command port it listens to (spec/10_state.md R20 to R31).

The block's own state is the tuple (IW, CUR, LEN, BUF) of R20 and nothing else. Five further fields are the MODEL's: `epoch` names
the free values of unwritten bytes (R206), `host` is what the host does next (R22, R48), `response` and `hostByte` are
outputs (R31, R48), which no command reads. All of it is plain data. -/

namespace Sys2Proof.Machine

/-- The buffer memory BUF as the bytes written since the last reset: pairs of address and byte with strictly rising
addresses (`Memory.wf`). An address that is not listed holds no written byte: what it reads as is `State.byteAt`'s. -/
abbrev Memory := List Host.Cell

/-- The status of a response (R62). -/
inductive Status where
  /-- 0: the command ran. -/
  | ok
  /-- 1: the gate was closed; not an error (R192). -/
  | skipped
  /-- 2: the source's error (a) (R188). -/
  | bufferTooShort
  /-- 3: the source's error (b) (R189). -/
  | inconsistentLength
  /-- 4: no command (R66, R67, R191). -/
  | illegalCommand
  deriving DecidableEq, Repr

/-- The response of a command: a status and a 64-bit result (R62). -/
structure Response where
  status : Status
  res : DWord
  deriving DecidableEq, Repr

/-- What the outside does to the block, one thing at a time and only between commands (R47, R48, R205). -/
inductive HostAction where
  /-- The host issues a command and waits for its response (R22). -/
  | command (w : CommandWord)
  /-- The host writes one byte of BUF (R48). -/
  | writeByte (addr : Word) (b : Byte)
  /-- The host reads one byte of BUF (R48). -/
  | readByte (addr : Word)
  /-- The one reset event (R205). -/
  | reset
  deriving DecidableEq, Repr

/-- Why the model stops. No command stops: every command answers (R62, U3, "no behaviour of the block is treated as
stuck"). -/
inductive Fault where
  /-- Raised by a host read or write of an address at or above BUF_CAP, where the spec says there is no byte (R27, R48, R49).
  SAFE: the model stops where the spec gives no behaviour. -/
  | hostOutsideBuffer (addr : Word)
  deriving DecidableEq, Repr

/-- Why the model declines to give an instruction a meaning. -/
inductive Refusal where
  /-- Raised by `exec` for a row of the opcode table that has no meaning yet. SAFE. No arm of `exec` raises it. -/
  | notModelled (mnemonic : String)
  deriving DecidableEq, Repr

/-- The state. -/
structure State where
  /-- IW: the latched indicator word (R20, R23). -/
  iw : Word
  /-- CUR: byte offset of the next cursor-mode access (R20, R24). -/
  cur : Word
  /-- LEN: length in bytes of the caller-supplied buffer (R20, R25). -/
  len : Word
  /-- BUF: the bytes of the buffer written since the last reset (R20, R27). -/
  buf : Memory
  /-- The model's own: how many resets there have been; names the free values of unwritten bytes (R206). -/
  epoch : Nat
  /-- The model's own: what the host does next, soonest first; empty while the host does nothing. -/
  host : List HostAction
  /-- The model's own: the response to the latest command since the last reset (R31, R62, R207). -/
  response : Option Response
  /-- The model's own: the byte the host read last since the last reset (R48). -/
  hostByte : Option Byte
  deriving DecidableEq, Repr

/-- Right after reset (R206, R207): IW, CUR and LEN are 0, no byte of BUF is written, no response is pending, and the
block waits for its first command (R205). -/
def State.reset : State where
  iw := 0
  cur := 0
  len := 0
  buf := []
  epoch := 0
  host := []
  response := none
  hostByte := none

end Sys2Proof.Machine
end

