-- ==== Sys2Proof/Machine/Ops.lean ====
section
/-! DEFINITION. The operations every command is written over: the buffer memory (spec/20_memory.md R40 to R49), the
response (spec/30_encoding.md R62) and the one way a command ends abnormally (spec/60_exceptions.md R187 to R197). -/

namespace Sys2Proof.Machine

/-! ## The buffer memory as data -/

/-- The byte written at an address, `none` where none has been written since reset. -/
def Memory.cell? : Memory → Nat → Option Byte
  | [], _ => none
  | (k, v) :: rest, a => if a = k then some v else Memory.cell? rest a

/-- Write one byte, keeping the addresses strictly rising. -/
def Memory.put : Memory → Nat → Byte → Memory
  | [], a, b => [(a, b)]
  | (k, v) :: rest, a, b =>
    if a < k then (a, b) :: (k, v) :: rest
    else if a = k then (a, b) :: rest
    else (k, v) :: Memory.put rest a b

/-- The canonical form: addresses strictly rising. No entry can equal what an unlisted address holds, since an unlisted
address holds no written byte; so memories with the same bytes written are the same list. -/
def Memory.wf : Memory → Bool
  | [] => true
  | [_] => true
  | (k, _) :: (k', v') :: rest => decide (k < k') && Memory.wf ((k', v') :: rest)

/-- `BUF[a]` (R10, R27). An unwritten byte is an arbitrary value fixed at reset (R206, U2). -/
def State.byteAt (s : State) (a : Nat) : Byte := (s.buf.cell? a).getD (Config.unwrittenByte s.epoch a)

/-- The unsigned integer in `n` bytes from `a`, most significant byte first: the sum over k of
`BUF[a+k] * 2^(8(n-1-k))` (R41, R42). -/
def State.loadBE (s : State) (a : Nat) : Nat → Nat
  | 0 => 0
  | n + 1 => (s.byteAt a).toNat * 2 ^ (8 * n) + s.loadBE (a + 1) n

/-- Store the low `n` bytes of `v` from `a`, most significant byte first: `BUF[a+k] <- v[8(n-k)-1 : 8(n-k-1)]`
(R41, R43). -/
def Memory.storeBE (m : Memory) (a : Nat) (v : Nat) : Nat → Memory
  | 0 => m
  | n + 1 => Memory.storeBE (m.put a (BitVec.ofNat 8 (v / 2 ^ (8 * n)))) (a + 1) v n

/-! ## Errors a command's own rule can raise, and the checked accesses -/

/-- The two errors that a command's own rule raises (R185, R187). -/
inductive CommandError where
  | bufferTooShort
  | inconsistentLength
  deriving DecidableEq, Repr

/-- The status an error is reported with (R62, R187). -/
def CommandError.status : CommandError → Status
  | .bufferTooShort => .bufferTooShort
  | .inconsistentLength => .inconsistentLength

/-- A command's own rule, stage 3 of R77: the state and result it commits, or the error it raises. -/
abbrev Effect := State → Except CommandError (State × DWord)

/-- "EA + n > LEN" fails: the range lies inside the buffer, the sum being a mathematical one (R42, R43, R135). -/
def State.inside (s : State) (ea n : Nat) : Bool := decide (ea + n ≤ s.len.toNat)

/-- MemRead (R42): the bounds check covers the whole access, then the bytes are read; the read changes nothing. -/
def memRead (ea n : Nat) (s : State) : Except CommandError Nat :=
  if s.inside ea n then .ok (s.loadBE ea n) else .error .bufferTooShort

/-- MemWrite (R43): the bounds check comes first and covers the whole access, so a store is never partly done. -/
def memWrite (ea n v : Nat) (s : State) : Except CommandError State :=
  if s.inside ea n then .ok { s with buf := s.buf.storeBE ea v n } else .error .bufferTooShort

/-! ## Responses -/

/-- The three-bit code of a status (R62). Codes 5 to 7 belong to none. -/
def Status.code : Status → BitVec 3
  | .ok => 0
  | .skipped => 1
  | .bufferTooShort => 2
  | .inconsistentLength => 3
  | .illegalCommand => 4

/-- `respond(res)` (R10): the command ends with status OK and the given result. -/
def State.respond (s : State) (res : DWord) : State := { s with response := some ⟨.ok, res⟩ }

/-- Every abnormal outcome (R187, R190, R195): the response has that status and result 0, and nothing of the block's
state changes. There is no trap entry to take and none to return from (R195, R197). -/
def State.raise (s : State) (st : Status) : State := { s with response := some ⟨st, 0⟩ }

/-- The bit of IW that a gate tests (R61, R104); a command without a gate always runs. -/
def State.gateOpen (s : State) : Gate → Bool
  | .always => true
  | .ifPresent p => s.iw.getLsbD p.toNat

/-- The execution skeleton (R77), in its order (R68, R194): ILLEGAL_COMMAND for an operand out of range; then SKIPPED for a closed
gate; then the command's own rule, which raises its error or commits its writes and responds. -/
def perform (legal : Bool) (g : Gate) (rule : Effect) (s : State) : Host.Outcome State Fault Refusal :=
  if legal then
    if s.gateOpen g then
      match rule s with
      | .ok (t, res) => .next (t.respond res)
      | .error e => .next (s.raise e.status)
    else .next (s.raise .skipped)
  else .next (s.raise .illegalCommand)

/-- The rule of a command that writes no state (R80, R129): it only answers. -/
def answer (res : State → DWord) : Effect := fun s => .ok (s, res s)

end Sys2Proof.Machine
end

