-- ==== Sys2Proof/Machine/Operands.lean ====
section
/-! DEFINITION. How operands are read and results formed: the effective address (spec/43_buffer.md R135) and the
extensions of spec/00_scope.md R9, spec/30_encoding.md R63. -/

namespace Sys2Proof.Machine

/-- The effective address (R135): absolute, EA = `aux`; cursor, EA = CUR. A mathematical integer, so that sums with it cannot wrap. -/
def State.ea (s : State) : AddrOperand → Nat
  | .absolute addr => addr.toNat
  | .cursor => s.cur.toNat

/-- Post-modification (R135): in cursor mode CUR <- EA + n after a successful access; otherwise CUR stays. -/
def State.advance (s : State) (addr : AddrOperand) (n : Nat) : State :=
  match addr with
  | .absolute _ => s
  | .cursor => { s with cur := BitVec.ofNat 32 (s.cur.toNat + n) }

/-- zext_N (R9, R63): a narrower result is zero-extended into `res`. -/
def zext {w : Nat} (v : BitVec w) : DWord := v.setWidth 64

/-- sext_N (R9, R85): an FXENC result is sign-extended into `res`. -/
def sext {w : Nat} (v : BitVec w) : DWord := v.signExtend 64

/-- The low `n` bytes of a store value as an unsigned integer, `data[8n-1:0]` (R140). -/
def lowBytes (n : Nat) (v : DWord) : Nat := v.toNat % 2 ^ (8 * n)

/-- mask(width) = 2^width - 1 as a 32-bit value, for width 1 to 32 (R121). -/
def mask (width : Nat) : Word := BitVec.ofNat 32 (2 ^ width - 1)

end Sys2Proof.Machine
end

