-- ==== Sys2Proof/Machine/Flags.lean ====
section
/-! DEFINITION. The single-bit tests and sets on a word that the bitmap commands are made of (spec/41_bitmap_selector.md R105,
R106). The block has no arithmetic flag of any kind and no sticky one (spec/10_state.md R23, spec/40_fixed_point.md R96,
spec/60_exceptions.md R198): its only predicate state is IW, which the gate tests (`State.gateOpen`, R104). -/

namespace Sys2Proof.Machine

/-- `word | (flag << pos)` (R105): one term of a pack. OR never clears a bit. -/
def orBit (word : Word) (pos : Nat) (flag : Bool) : Word :=
  word ||| ((if flag then 1#32 else 0#32) <<< pos)

/-- `(word >> pos) & 1` (R106): one term of an unpack. -/
def testBit (word : Word) (pos : Nat) : Bool := word.getLsbD pos

end Sys2Proof.Machine
end

