-- ==== Sys2Proof/Machine/BitField.lean ====
section
/-! DEFINITION. The bit-field commands (spec/42_bitfield.md): BFINS, BFEXT and the (value - 1) codec M1ENC, M1DEC. All four are
pure. -/

namespace Sys2Proof.Machine

/-- `word | ((value & mask(width)) << off)` in 32-bit arithmetic (R122): the old bits of the field are not cleared. -/
def insertField (off width : Nat) (word value : Word) : Word := word ||| ((value &&& mask width) <<< off)

/-- `(word >> off) & mask(width)` (R123). -/
def extractField (off width : Nat) (word : Word) : Word := (word >>> off) &&& mask width

/-- BFINS (R122). -/
def execBfins (g : Gate) (off width : Byte) (word value : Word) (s : State) : Host.Outcome State Fault Refusal :=
  perform (fieldInWord off width) g (answer fun _ => zext (insertField off.toNat width.toNat word value)) s

/-- BFEXT (R123): zero-extended. -/
def execBfext (g : Gate) (off width : Byte) (word : Word) (s : State) : Host.Outcome State Fault Refusal :=
  perform (fieldInWord off width) g (answer fun _ => zext (extractField off.toNat width.toNat word)) s

/-- The threshold T(w) of the (value - 1) codec: 0xFFFF for 16, else 64 (R125, R126). -/
def m1Threshold (w : Nat) : Nat := if w = 16 then Config.m1Threshold16 else Config.m1Threshold6

/-- The pack direction (R126): at or above the threshold, stored unmodified and saturated at all-ones; below it, value - 1
modulo 2^w, so that 0 wraps to all-ones. -/
def m1Encode (w v : Nat) : Nat :=
  if m1Threshold w ≤ v then min v (2 ^ w - 1) else (((v : Int) - 1) % 2 ^ w).toNat

/-- The unpack direction (R127): below the threshold, stored + 1; else unmodified. -/
def m1Decode (w s : Nat) : Nat := if s < m1Threshold w then s + 1 else s

/-- M1ENC (R126). -/
def execM1enc (g : Gate) (width : Byte) (value : Word) (s : State) : Host.Outcome State Fault Refusal :=
  perform (m1WidthOk width) g (answer fun _ => BitVec.ofNat 64 (m1Encode width.toNat value.toNat)) s

/-- M1DEC (R127): the stored sub-field is `data[w-1:0]`, the bits above it are ignored. -/
def execM1dec (g : Gate) (width : Byte) (stored : BitVec 16) (s : State) : Host.Outcome State Fault Refusal :=
  perform (m1WidthOk width) g
    (answer fun _ => BitVec.ofNat 64 (m1Decode width.toNat (stored.toNat % 2 ^ width.toNat))) s

end Sys2Proof.Machine
end

