-- ==== Sys2Proof/Machine/Bitmap.lean ====
section
/-! DEFINITION. The indicator word, the indicator bitmap and the enable/value pair commands (spec/41_bitmap_selector.md): IWSET, IWGET,
BMOR, BMTST, BMPACK, BMUNPACK, EVPACK, EVUNPACK. The table functions take their table as an argument; the commands give them
the block's own. -/

namespace Sys2Proof.Machine

/-- IWSET (R101): all 32 bits of IW; a gated IWSET is gated by the old IW. -/
def execIwset (g : Gate) (word : Word) (s : State) : Host.Outcome State Fault Refusal :=
  perform true g (fun s => .ok ({ s with iw := word }, 0)) s

/-- IWGET (R102). -/
def execIwget (g : Gate) (s : State) : Host.Outcome State Fault Refusal :=
  perform true g (answer fun s => zext s.iw) s

/-- BMOR (R105). -/
def execBmor (g : Gate) (pos : Byte) (word : Word) (flag : BitVec 1) (s : State) : Host.Outcome State Fault Refusal :=
  perform (posInRange pos) g (answer fun _ => zext (orBit word pos.toNat (flag.getLsbD 0))) s

/-- BMTST (R106): exactly 0 or 1. -/
def execBmtst (g : Gate) (pos : Byte) (word : Word) (s : State) : Host.Outcome State Fault Refusal :=
  perform (posInRange pos) g (answer fun _ => if testBit word pos.toNat then 1 else 0) s

/-- The loop of BMPACK (R107): bit i of the flags sets the bit of entry i; `i` counts the entries from the first. -/
def packEntries (flags : Word) : List Config.ShapeEntry → Nat → Word → Word
  | [], _, word => word
  | e :: rest, i, word => packEntries flags rest (i + 1) (orBit word e.pos.val (testBit flags i))

/-- The indicator word of a flags vector by a shape table (R107); bits at positions not in the table are 0. -/
def packShape (entries : List Config.ShapeEntry) (flags : Word) : Word := packEntries flags entries 0 0

/-- The loop of BMUNPACK (R108). -/
def unpackEntries (word : Word) : List Config.ShapeEntry → Nat → Word → Word
  | [], _, flags => flags
  | e :: rest, i, flags => unpackEntries word rest (i + 1) (orBit flags i (testBit word e.pos.val))

/-- The flags vector of an indicator word by a shape table (R108); bits not in the table are ignored. -/
def unpackShape (entries : List Config.ShapeEntry) (word : Word) : Word := unpackEntries word entries 0 0

/-- The table of a shape id 0..7 (R100); a shape id out of range has none. -/
def shapeEntries (shape : Byte) : List Config.ShapeEntry :=
  if h : shape.toNat < 8 then Config.shape ⟨shape.toNat, h⟩ else []

/-- BMPACK (R107). -/
def execBmpack (g : Gate) (shape : Byte) (flags : Word) (s : State) : Host.Outcome State Fault Refusal :=
  perform (shapeInRange shape) g (answer fun _ => zext (packShape (shapeEntries shape) flags)) s

/-- BMUNPACK (R108). -/
def execBmunpack (g : Gate) (shape : Byte) (word : Word) (s : State) : Host.Outcome State Fault Refusal :=
  perform (shapeInRange shape) g (answer fun _ => zext (unpackShape (shapeEntries shape) word)) s

/-- The word of eight enable/value pairs (R112): enable bit i at EP[i], value bit i at VP[i], as given whether or not the
enable is set; the other 16 bits are 0. -/
def packPairs (t : Config.PairPositions) (enables values : Byte) : Word :=
  (List.finRange 8).foldl (fun word i =>
    orBit (orBit word (t.ep i).val (enables.getLsbD i.val)) (t.vp i).val (values.getLsbD i.val)) 0

/-- The enables of a word (R113). -/
def unpackEnables (t : Config.PairPositions) (word : Word) : Byte :=
  (List.finRange 8).foldl (fun acc i => acc ||| ((if testBit word (t.ep i).val then 1#8 else 0#8) <<< i.val)) 0

/-- The values of a word, each exposed as false when its enable is false (R110, R113). -/
def unpackValues (t : Config.PairPositions) (word : Word) : Byte :=
  (List.finRange 8).foldl (fun acc i =>
    acc ||| ((if testBit word (t.ep i).val && testBit word (t.vp i).val then 1#8 else 0#8) <<< i.val)) 0

/-- EVPACK (R112). -/
def execEvpack (g : Gate) (enables values : Byte) (s : State) : Host.Outcome State Fault Refusal :=
  perform true g (answer fun _ => zext (packPairs Config.evPos enables values)) s

/-- EVUNPACK (R113): enables in `res[7:0]`, gated values in `res[15:8]` (R74). -/
def execEvunpack (g : Gate) (word : Word) (s : State) : Host.Outcome State Fault Refusal :=
  perform true g (answer fun _ => zext (unpackValues Config.evPos word ++ unpackEnables Config.evPos word)) s

end Sys2Proof.Machine
end

