-- ==== Sys2Proof/Machine/Buffer.lean ====
section
/-! DEFINITION. The buffer, cursor and variable-length commands (spec/43_buffer.md): BUFSET, LENGET, CURSET, CURGET, STBE, LDBE,
VSIZE, CHKSZ, CHKVL. -/

namespace Sys2Proof.Machine

/-- BUFSET (R136): LEN <- L, CUR <- 0; BUF's bytes are not changed. ILLEGAL_COMMAND if L > BUF_CAP. -/
def execBufset (g : Gate) (len : Word) (s : State) : Host.Outcome State Fault Refusal :=
  perform (lenFits Config.bufCap len) g (fun s => .ok ({ s with len := len, cur := 0 }, 0)) s

/-- LENGET (R137). -/
def execLenget (g : Gate) (s : State) : Host.Outcome State Fault Refusal :=
  perform true g (answer fun s => zext s.len) s

/-- CURSET (R138): no bounds check, the next access checks. -/
def execCurset (g : Gate) (off : Word) (s : State) : Host.Outcome State Fault Refusal :=
  perform true g (fun s => .ok ({ s with cur := off }, 0)) s

/-- CURGET (R139). -/
def execCurget (g : Gate) (s : State) : Host.Outcome State Fault Refusal :=
  perform true g (answer fun s => zext s.cur) s

/-- The rule of STBE (R140): MemWrite of the low n bytes, then the cursor moves in cursor mode. -/
def storeRule (n : Nat) (addr : AddrOperand) (value : DWord) : Effect := fun s =>
  match memWrite (s.ea addr) n (lowBytes n value) s with
  | .ok t => .ok (t.advance addr n, 0)
  | .error e => .error e

/-- The rule of LDBE (R141): MemRead of n bytes, then the cursor moves in cursor mode; the value is zero-extended. -/
def loadRule (n : Nat) (addr : AddrOperand) : Effect := fun s =>
  match memRead (s.ea addr) n s with
  | .ok v => .ok (s.advance addr n, BitVec.ofNat 64 v)
  | .error e => .error e

/-- STBE (R140): BUFFER_TOO_SHORT when EA + n > LEN, and then no byte is written and CUR does not move. -/
def execStbe (g : Gate) (n : Byte) (addr : AddrOperand) (value : DWord) (s : State) :
    Host.Outcome State Fault Refusal :=
  perform (byteCountOk n) g (storeRule n.toNat addr value) s

/-- LDBE (R141): BUFFER_TOO_SHORT when EA + n > LEN, and then CUR does not move. -/
def execLdbe (g : Gate) (n : Byte) (addr : AddrOperand) (s : State) : Host.Outcome State Fault Refusal :=
  perform (byteCountOk n) g (loadRule n.toNat addr) s

/-- base + count x stride; the largest value, 2^64 - 2^32, fits 64 bits (R129, R143). -/
def vsizeOf (base count stride : Word) : Nat := base.toNat + count.toNat * stride.toNat

/-- VSIZE (R143). -/
def execVsize (g : Gate) (base count stride : Word) (s : State) : Host.Outcome State Fault Refusal :=
  perform true g (answer fun _ => BitVec.ofNat 64 (vsizeOf base count stride)) s

/-- The rule of CHKSZ and CHKVL (R144, R145): does EA + size exceed LEN, as a mathematical sum. It never moves CUR. -/
def checkRule (e : CommandError) (addr : AddrOperand) (size : DWord) : Effect := fun s =>
  if s.inside (s.ea addr) size.toNat then .ok (s, 0) else .error e

/-- CHKSZ (R144, R188). -/
def execChksz (g : Gate) (addr : AddrOperand) (size : DWord) (s : State) : Host.Outcome State Fault Refusal :=
  perform true g (checkRule .bufferTooShort addr size) s

/-- CHKVL (R145, R189): as CHKSZ, but the error is INCONSISTENT_LENGTH. -/
def execChkvl (g : Gate) (addr : AddrOperand) (size : DWord) (s : State) : Host.Outcome State Fault Refusal :=
  perform true g (checkRule .inconsistentLength addr size) s

end Sys2Proof.Machine
end

