-- ==== Sys2Proof/Machine/FixedPoint.lean ====
section
/-! DEFINITION. The fixed-point codec (spec/40_fixed_point.md): FXENC16, FXENC32, FXENC64, FXDEC16, FXDEC32, FXDEC64. All six are pure;
everything is computed on exact integers and narrowed at the end. -/

namespace Sys2Proof.Machine

/-! ## Binary64 (R71) -/

/-- The sign s, bit 63. -/
def f64Negative (v : DWord) : Bool := v.getLsbD 63

/-- The biased exponent e, bits 62:52. -/
def f64Exponent (v : DWord) : Nat := (v.extractLsb' 52 11).toNat

/-- The fraction f, bits 51:0. -/
def f64Fraction (v : DWord) : Nat := (v.extractLsb' 0 52).toNat

/-- Neither an infinity nor a NaN (R71, R83). -/
def f64Finite (v : DWord) : Bool := f64Exponent v != 2047

/-- The value of a finite pattern is `f64Scaled v / 2^1075` (R71): 2^52 + f times 2^e for a normal number, f times 2 for a subnormal
or a zero, with the sign. -/
def f64Scaled (v : DWord) : Int :=
  let magnitude : Nat :=
    if f64Exponent v = 0 then f64Fraction v * 2 else (2 ^ 52 + f64Fraction v) * 2 ^ f64Exponent v
  if f64Negative v then -(magnitude : Int) else magnitude

/-- The denominator of `f64Scaled`. -/
def f64Denominator : Nat := 2 ^ 1075

/-! ## Encode -/

/-- rha(num / den) (R82): the nearest integer, ties away from zero, on exact rationals: floor(p + 1/2) for p >= 0, and
-floor(-p + 1/2) for p < 0. -/
def roundHalfAway (num : Int) (den : Nat) : Int :=
  if 0 ≤ num then (2 * num + den) / (2 * den) else -((2 * (-num) + den) / (2 * den))

/-- The numerator, over `f64Denominator`, of the product x * 2^R (R83). -/
def productScaled (v : DWord) (radix : Byte) : Int := f64Scaled v * 2 ^ radix.toNat

/-- |p| >= 2^1024: the binary64 product overflowed (R83). -/
def productOverflows (v : DWord) (radix : Byte) : Bool :=
  decide (2 ^ 1024 * f64Denominator ≤ (productScaled v radix).natAbs)

/-- fx_encode(W, v, R) (R83): the free value FX_NONFINITE where the spec states no result (R86), else the low W bits of
the rounded product (R84). -/
def fxEncode (w : Nat) (v : DWord) (radix : Byte) : BitVec w :=
  if f64Finite v && !productOverflows v radix then
    BitVec.ofInt w (roundHalfAway (productScaled v radix) f64Denominator)
  else Config.fxNonfinite w v radix

/-! ## Decode -/

/-- The magnitude of rne53 (R87): round to 53 significant bits, to nearest, ties to the even significand. -/
def roundEven53 (m : Nat) : Nat :=
  if m < 2 ^ 53 then m
  else
    let u := 2 ^ (m.log2 - 52)
    let q := m / u
    let r := m % u
    (if u < 2 * r ∨ (2 * r = u ∧ q % 2 = 1) then q + 1 else q) * u

/-- fx_decode(W, raw, R) (R87): raw 0 is +0.0; any other raw is a normal number {s, e, f}. -/
def fxDecode (w : Nat) (raw : BitVec w) (radix : Byte) : DWord :=
  let i : Int := raw.toInt
  if i = 0 then 0
  else
    let m := roundEven53 i.natAbs
    let k := m.log2
    let s : BitVec 1 := if i < 0 then 1 else 0
    let e : BitVec 11 := BitVec.ofNat 11 (1023 + k - radix.toNat)
    let f : BitVec 52 := BitVec.ofNat 52 (m * 2 ^ 52 / 2 ^ k - 2 ^ 52)
    s ++ e ++ f

/-! ## The commands -/

/-- FXENC16 (R89), sign-extended (R85). -/
def execFxenc16 (g : Gate) (radix : Byte) (value : DWord) (s : State) : Host.Outcome State Fault Refusal :=
  perform true g (answer fun _ => sext (fxEncode 16 value radix)) s

/-- FXENC32 (R90), sign-extended (R85). -/
def execFxenc32 (g : Gate) (radix : Byte) (value : DWord) (s : State) : Host.Outcome State Fault Refusal :=
  perform true g (answer fun _ => sext (fxEncode 32 value radix)) s

/-- FXENC64 (R91). -/
def execFxenc64 (g : Gate) (radix : Byte) (value : DWord) (s : State) : Host.Outcome State Fault Refusal :=
  perform true g (answer fun _ => sext (fxEncode 64 value radix)) s

/-- FXDEC16 (R92). -/
def execFxdec16 (g : Gate) (radix : Byte) (raw : BitVec 16) (s : State) : Host.Outcome State Fault Refusal :=
  perform true g (answer fun _ => fxDecode 16 raw radix) s

/-- FXDEC32 (R93). -/
def execFxdec32 (g : Gate) (radix : Byte) (raw : BitVec 32) (s : State) : Host.Outcome State Fault Refusal :=
  perform true g (answer fun _ => fxDecode 32 raw radix) s

/-- FXDEC64 (R94). -/
def execFxdec64 (g : Gate) (radix : Byte) (raw : BitVec 64) (s : State) : Host.Outcome State Fault Refusal :=
  perform true g (answer fun _ => fxDecode 64 raw radix) s

end Sys2Proof.Machine
end

