-- ==== Sys2Proof/Machine/Dispatch.lean ====
section
/-! DEFINITION. One arm per command (spec/30_encoding.md R64), in the order of the opcode table: each is one call of its meaning. -/

namespace Sys2Proof.Machine

def exec (i : Instr) (s : State) : Host.Outcome State Fault Refusal :=
  match i with
  | .bufset g len => Sys2Proof.Machine.execBufset g len s
  | .lenget g => Sys2Proof.Machine.execLenget g s
  | .curset g off => Sys2Proof.Machine.execCurset g off s
  | .curget g => Sys2Proof.Machine.execCurget g s
  | .iwset g word => Sys2Proof.Machine.execIwset g word s
  | .iwget g => Sys2Proof.Machine.execIwget g s
  | .bmpack g shape flags => Sys2Proof.Machine.execBmpack g shape flags s
  | .bmunpack g shape word => Sys2Proof.Machine.execBmunpack g shape word s
  | .bmor g pos word flag => Sys2Proof.Machine.execBmor g pos word flag s
  | .bmtst g pos word => Sys2Proof.Machine.execBmtst g pos word s
  | .evpack g enables values => Sys2Proof.Machine.execEvpack g enables values s
  | .evunpack g word => Sys2Proof.Machine.execEvunpack g word s
  | .fxenc16 g radix value => Sys2Proof.Machine.execFxenc16 g radix value s
  | .fxenc32 g radix value => Sys2Proof.Machine.execFxenc32 g radix value s
  | .fxenc64 g radix value => Sys2Proof.Machine.execFxenc64 g radix value s
  | .fxdec16 g radix raw => Sys2Proof.Machine.execFxdec16 g radix raw s
  | .fxdec32 g radix raw => Sys2Proof.Machine.execFxdec32 g radix raw s
  | .fxdec64 g radix raw => Sys2Proof.Machine.execFxdec64 g radix raw s
  | .bfins g off width word value => Sys2Proof.Machine.execBfins g off width word value s
  | .bfext g off width word => Sys2Proof.Machine.execBfext g off width word s
  | .m1enc g width value => Sys2Proof.Machine.execM1enc g width value s
  | .m1dec g width stored => Sys2Proof.Machine.execM1dec g width stored s
  | .stbe g n addr value => Sys2Proof.Machine.execStbe g n addr value s
  | .ldbe g n addr => Sys2Proof.Machine.execLdbe g n addr s
  | .vsize g base count stride => Sys2Proof.Machine.execVsize g base count stride s
  | .chksz g addr size => Sys2Proof.Machine.execChksz g addr size s
  | .chkvl g addr size => Sys2Proof.Machine.execChkvl g addr size s

end Sys2Proof.Machine
end

