-- ==== Sys2Proof/Machine/Port.lean ====
section
/-! DEFINITION. What the block does with one thing the outside does to it: a command word on the command port (spec/10_state.md R22,
spec/30_encoding.md R77), a host access to BUF between commands (spec/20_memory.md R48), the reset event
(spec/70_reset_and_hazards.md R205, R206). -/

namespace Sys2Proof.Machine

/-- A command word (R65, R77 stage 1): an illegal word answers ILLEGAL_COMMAND before any gate is looked at (R66, R68). -/
def runWord (w : CommandWord) (s : State) : Host.Outcome State Fault Refusal :=
  match decode w with
  | .command i => exec i s
  | .illegal _ => .next (s.raise .illegalCommand)

/-- A host write of one byte of BUF (R48): any byte of the buffer memory, whatever LEN is. -/
def hostWrite (addr : Word) (b : Byte) (s : State) : Host.Outcome State Fault Refusal :=
  if addr.toNat < Config.bufCap then .next { s with buf := s.buf.put addr.toNat b }
  else .fault (.hostOutsideBuffer addr)

/-- A host read of one byte of BUF (R48): it changes nothing the block holds. -/
def hostRead (addr : Word) (s : State) : Host.Outcome State Fault Refusal :=
  if addr.toNat < Config.bufCap then .next { s with hostByte := some (s.byteAt addr.toNat) }
  else .fault (.hostOutsideBuffer addr)

/-- The reset event (R205, R206, R207): the reset values, and bytes of BUF that are unspecified anew; the host goes on
with what it does next. -/
def State.afterReset (s : State) : State := { State.reset with epoch := s.epoch + 1, host := s.host }

/-- One action of the outside. -/
def serve (a : HostAction) (s : State) : Host.Outcome State Fault Refusal :=
  match a with
  | .command w => runWord w s
  | .writeByte addr b => hostWrite addr b s
  | .readByte addr => hostRead addr s
  | .reset => .next s.afterReset

/-- The command the host issues next is `w`; what it did mean to do comes after. -/
def State.issue (s : State) (w : CommandWord) : State := { s with host := .command w :: s.host }

end Sys2Proof.Machine
end

