-- ==== Sys2Proof/Machine/Step.lean ====
section
/-! DEFINITION. One step: the block serves the host's next action whole (spec/20_memory.md R47, R51); with none it holds its state and
does nothing (spec/60_exceptions.md R201, spec/70_reset_and_hazards.md R205). -/

namespace Sys2Proof.Machine

/-- One step of the block. -/
def step (s : State) : Host.Outcome State Fault Refusal :=
  match s.host with
  | [] => .next s
  | a :: rest => serve a { s with host := rest }

/-- The block fetches nothing (R22): the host issues its commands. So the command whose bits are `w` (as
spec/opcode_table.json numbers them) is placed as the host's next action, and the very next step runs it. -/
def State.withFetchWord (s : State) (nbits w : Nat) : State := s.issue (BitVec.ofNat 128 (w % 2 ^ nbits))

end Sys2Proof.Machine
end

