-- ==== Sys2Proof/Machine/Pseudo.lean ====
section
/-! DEFINITION. The pseudo-instructions (spec/30_encoding.md R76, spec/44_field_layouts.md): the fixed sequences of commands by which a
host packs and unpacks the structures the source settles. They are the HOST's: a pseudo-instruction has no encoding, and every effect it
has is `exec` of its commands. A `?p` on an expansion is a gate on every command of it that is not pure (R115; R155 names the stores and
loads; log entries 11 and 17). -/

namespace Sys2Proof.Machine

/-! ## The host issuing commands one after another (R22, R75, R195, R214) -/

/-- How a sequence ended: the status of the last response to a command OF THE SEQUENCE, what the host has made of the results,
and the state. A sequence that issues no command ends OK: the model's choice (DESIGN CHOICE, log entry 19). -/
structure Finish (α : Type) where
  status : Status
  value : Option α
  state : State

/-- The sequence has issued a command and ends here, with a value and with the status of its last response. A sequence that may have
issued none ends with `finishIdle` in that case. -/
def finish {α : Type} (value : α) (s : State) : Option (Finish α) :=
  some ⟨(s.response.map Response.status).getD .ok, some value, s⟩

/-- The sequence has issued no command (a list or a region of length 0): it ends OK, whatever an earlier command answered, and nothing
changes. DESIGN CHOICE (log entry 19): the spec gives no status to a sequence without a response. -/
def finishIdle {α : Type} (value : α) (s : State) : Option (Finish α) := some ⟨.ok, some value, s⟩

/-- Issue a command and hand its result on (`-> name`, R75). SKIPPED is no failure (R192); at an error the host abandons the
structure (R195, R210). -/
def send {α : Type} (i : Instr) (s : State) (k : DWord → State → Option (Finish α)) : Option (Finish α) :=
  match exec i s with
  | .next t =>
    match t.response with
    | some r => if r.status = .ok ∨ r.status = .skipped then k r.res t else some ⟨r.status, none, t⟩
    | none => none
  | .fault _ => none
  | .refused _ => none

/-- Issue a load: the host goes on only if it has a value, since the result of a skipped or failed command is none (R214). -/
def fetch {α : Type} (i : Instr) (s : State) (k : DWord → State → Option (Finish α)) : Option (Finish α) :=
  match exec i s with
  | .next t =>
    match t.response with
    | some r => if r.status = .ok then k r.res t else some ⟨r.status, none, t⟩
    | none => none
  | .fault _ => none
  | .refused _ => none

/-- `$x[31:0]` (R75, R155). -/
def low32 (v : DWord) : Word := v.extractLsb' 0 32

/-! ## Helper pseudo-instructions -/

/-- STLIST (R173): one `STBE 4, @+` per entry, in order. -/
def stlist {α : Type} (g : Gate) : List Word → State → (State → Option (Finish α)) → Option (Finish α)
  | [], s, k => k s
  | e :: rest, s, k => send (.stbe g 4 .cursor (zext e)) s fun _ s => stlist g rest s k

/-- LDLIST (R173): `count` times `LDBE 4, @+`, in order. -/
def ldlist {α : Type} (g : Gate) : Nat → State → (List Word → State → Option (Finish α)) → Option (Finish α)
  | 0, s, k => k [] s
  | n + 1, s, k => fetch (.ldbe g 4 .cursor) s fun e s => ldlist g n s fun es s => k (low32 e :: es) s

/-- One `STBE 1, @+` per byte, in order (R166). -/
def stbytes {α : Type} (g : Gate) : List Byte → State → (State → Option (Finish α)) → Option (Finish α)
  | [], s, k => k s
  | b :: rest, s, k => send (.stbe g 1 .cursor (zext b)) s fun _ s => stbytes g rest s k

/-- `count` times `LDBE 1, @+`, in order (R166). -/
def ldbytes {α : Type} (g : Gate) : Nat → State → (List Byte → State → Option (Finish α)) → Option (Finish α)
  | 0, s, k => k [] s
  | n + 1, s, k =>
    fetch (.ldbe g 1 .cursor) s fun b s => ldbytes g n s fun bs s => k (b.extractLsb' 0 8 :: bs) s

/-- STZ n (R174): n zero bytes at the cursor, as n times `STBE 1, @+, 0`. R174 allows any cursor-mode stores whose byte counts sum to n and gives
this one as its example; that it is this one is a DESIGN CHOICE (log entry 21). It shows only where the bytes do not fit: the ones up to
LEN are then written before the store that fails. -/
def stz {α : Type} (g : Gate) (n : Nat) (s : State) (k : State → Option (Finish α)) : Option (Finish α) :=
  stbytes g (List.replicate n 0) s k

/-- OVERLAY addr, bits (R175): OR a pattern into a word already in BUF. -/
def overlay (g : Gate) (addr bits : Word) (s : State) : Option (Finish Unit) :=
  fetch (.ldbe g 4 (.absolute addr)) s fun w s =>
  send (.bfins .always 0 32 (low32 w) bits) s fun w2 s =>
  send (.stbe g 4 (.absolute addr) w2) s fun _ s => finish () s

/-! ## Scalar fields -/

/-- The pack part of PACK.BITMAP (R156): pack the flags and store the word, and hand the word on. -/
def stbitmap {α : Type} (g : Gate) (shape : Byte) (flags : Word) (s : State) (k : Word → State → Option (Finish α)) :
    Option (Finish α) :=
  send (.bmpack .always shape flags) s fun w s =>
  send (.stbe g 4 .cursor w) s fun _ s => k (low32 w) s

/-- The load part of UNPACK.BITMAP (R156): load the word and unpack its flags, and hand both on. -/
def ldbitmap {α : Type} (g : Gate) (shape : Byte) (s : State) (k : Word → Word → State → Option (Finish α)) :
    Option (Finish α) :=
  fetch (.ldbe g 4 .cursor) s fun w s =>
  send (.bmunpack .always shape (low32 w)) s fun flags s => k (low32 w) (low32 flags) s

/-- PACK.BITMAP (R156): pack the flags, store the word, and latch it when it is to gate what follows. Under a gate the IWSET carries the
gate too, so that a skipped bitmap latches nothing, as on unpack. DESIGN CHOICE (log entry 17): R115 puts the gate on every
command and exempts only the pure ones, R155 names only the stores and loads. -/
def packBitmap (g : Gate) (shape : Byte) (flags : Word) (latch : Bool) (s : State) : Option (Finish Unit) :=
  stbitmap g shape flags s fun w s =>
  if latch then send (.iwset g w) s fun _ s => finish () s else finish () s

/-- UNPACK.BITMAP (R156): load the word, unpack its flags, and latch it when it gates. The IWSET carries the gate (DESIGN CHOICE, log
entry 17). -/
def unpackBitmap (g : Gate) (shape : Byte) (latch : Bool) (s : State) : Option (Finish Word) :=
  ldbitmap g shape s fun w flags s =>
  if latch then send (.iwset g w) s fun _ s => finish flags s else finish flags s

/-- The enable flags of the CIF0 bitmap under the names of WIF0 and EIF0 (R103): a view of the same bits of the flags
vector of shape 0, not fields of their own. -/
def enableFlag (name : String) (flags : Word) : Option Bool :=
  ((Config.shape 0).findIdx? fun e => e.name == name).map (testBit flags)

/-- The radix of Gain's halfwords (R158). -/
def gainRadix : Byte := 7

/-- PACK.GAIN (R157): stage1 in word[15:0], stage2 in word[31:16]. -/
def packGain (g : Gate) (stage1 stage2 : DWord) (s : State) : Option (Finish Unit) :=
  send (.fxenc16 .always gainRadix stage1) s fun s1 s =>
  send (.fxenc16 .always gainRadix stage2) s fun s2 s =>
  send (.bfins .always 0 16 0 (low32 s1)) s fun w s =>
  send (.bfins .always 16 16 (low32 w) (low32 s2)) s fun w s =>
  send (.stbe g 4 .cursor w) s fun _ s => finish () s

/-- UNPACK.GAIN (R157): the two stages. -/
def unpackGain (g : Gate) (s : State) : Option (Finish (DWord × DWord)) :=
  fetch (.ldbe g 4 .cursor) s fun w s =>
  send (.bfext .always 0 16 (low32 w)) s fun r1 s =>
  send (.fxdec16 .always gainRadix (r1.extractLsb' 0 16)) s fun stage1 s =>
  send (.bfext .always 16 16 (low32 w)) s fun r2 s =>
  send (.fxdec16 .always gainRadix (r2.extractLsb' 0 16)) s fun stage2 s => finish (stage1, stage2) s

/-- PACK.DEVID (R159): the 24-bit OUI in word 0, the device code (DEVCODE_W bits) in word 1. -/
def packDevid (g : Gate) (oui code : Word) (s : State) : Option (Finish Unit) :=
  send (.bfins .always 0 24 0 oui) s fun w0 s =>
  send (.stbe g 4 .cursor w0) s fun _ s =>
  send (.bfins .always 0 (BitVec.ofNat 8 Config.devCodeWidth) 0 code) s fun w1 s =>
  send (.stbe g 4 .cursor w1) s fun _ s => finish () s

/-- UNPACK.DEVID (R159): the OUI and the device code. -/
def unpackDevid (g : Gate) (s : State) : Option (Finish (Word × Word)) :=
  fetch (.ldbe g 4 .cursor) s fun w0 s =>
  send (.bfext .always 0 24 (low32 w0)) s fun oui s =>
  fetch (.ldbe g 4 .cursor) s fun w1 s =>
  send (.bfext .always 0 (BitVec.ofNat 8 Config.devCodeWidth) (low32 w1)) s fun code s =>
  finish (low32 oui, low32 code) s

/-- PayloadFormat's VectorSize into word 1 (R167): bits 15:0, by the 16-bit (value - 1) codec. -/
def packVectorSize (w1 size : Word) (s : State) : Option (Finish Word) :=
  send (.m1enc .always 16 size) s fun x s =>
  send (.bfins .always 0 16 w1 (low32 x)) s fun w s => finish (low32 w) s

/-- PayloadFormat's VectorSize out of word 1 (R167). -/
def unpackVectorSize (w1 : Word) (s : State) : Option (Finish Word) :=
  send (.bfext .always 0 16 w1) s fun x s =>
  send (.m1dec .always 16 (x.extractLsb' 0 16)) s fun v s => finish (low32 v) s

/-! ## Sentinels (R171) -/

/-- The unset raw pattern of a 32-bit kinematic field, whatever its radix. -/
def unsetRaw : BitVec 32 := 0x7FFFFFFF

/-- Store an unset kinematic field of a radix: the binary64 value that encodes to the sentinel, encoded and stored. -/
def packUnsetKinematic (g : Gate) (radix : Byte) (s : State) : Option (Finish Unit) :=
  send (.fxenc32 .always radix (fxDecode 32 unsetRaw radix)) s fun k s =>
  send (.stbe g 4 .cursor k) s fun _ s => finish () s

/-- Store an unset 32-bit timestamp part: all-ones bytes. -/
def packUnsetTime32 (g : Gate) (s : State) : Option (Finish Unit) :=
  send (.stbe g 4 .cursor 0xFFFFFFFF) s fun _ s => finish () s

/-- Store an unset 64-bit timestamp part: all-ones bytes. -/
def packUnsetTime64 (g : Gate) (s : State) : Option (Finish Unit) :=
  send (.stbe g 8 .cursor 0xFFFFFFFFFFFFFFFF) s fun _ s => finish () s

/-! ## ContextAssociationLists (R160 to R163) -/

/-- The five lists (R160). The async-tag list is there only when the tag flag is 1. -/
structure CalLists where
  source : List Word
  system : List Word
  vector : List Word
  async : List Word
  asyncTag : Option (List Word)
  deriving DecidableEq, Repr

/-- The counts fit their sub-fields, and an async-tag list has as many entries as the async list (R160). -/
def CalLists.wf (x : CalLists) : Bool :=
  decide (x.source.length < 2 ^ 8) && decide (x.system.length < 2 ^ 8) && decide (x.vector.length < 2 ^ 15) &&
    decide (x.async.length < 2 ^ 15) && x.asyncTag.all fun t => decide (t.length = x.async.length)

/-- The sub-fields of the header (R160, R161), in the order Ns, Nsys, Nv, tag, Na. -/
def calFields : List Config.SubField :=
  [Config.calSource, ⟨Config.cal.sys.1, Config.cal.sys.2, 8⟩, ⟨Config.cal.vec.1, Config.cal.vec.2, 15⟩,
    ⟨Config.cal.tag.1, Config.cal.tag.2, 1⟩, ⟨Config.cal.async.1, Config.cal.async.2, 15⟩]

/-- The values of those sub-fields. -/
def CalLists.fieldValues (x : CalLists) : List Word :=
  [BitVec.ofNat 32 x.source.length, BitVec.ofNat 32 x.system.length, BitVec.ofNat 32 x.vector.length,
    if x.asyncTag.isSome then 1 else 0, BitVec.ofNat 32 x.async.length]

/-- How many list entries counts and the tag flag declare (R160). -/
def calCount (ns nsys nv na : Nat) (tag : Bool) : Nat := ns + nsys + nv + na + (if tag then na else 0)

/-- Where the lists begin, from the structure's first byte (R162): source, system, vector, async, async-tag. -/
def calOffsets (ns nsys nv na : Nat) : List Nat :=
  [8, 8 + 4 * ns, 8 + 4 * (ns + nsys), 8 + 4 * (ns + nsys + nv), 8 + 4 * (ns + nsys + nv + na)]

/-- One BFINS per sub-field, each on the previous result (R130). -/
def insertAll {α : Type} : List (Config.SubField × Word) → Word → State → (Word → State → Option (Finish α)) →
    Option (Finish α)
  | [], w, s, k => k w s
  | (f, v) :: rest, w, s, k =>
    send (.bfins .always (BitVec.ofNat 8 f.off.val) (BitVec.ofNat 8 f.width) w v) s fun w s =>
    insertAll rest (low32 w) s k

/-- One BFEXT per sub-field (R130), from word 0 or word 1. -/
def extractAll {α : Type} (w0 w1 : Word) : List Config.SubField → State →
    (List Word → State → Option (Finish α)) → Option (Finish α)
  | [], s, k => k [] s
  | f :: rest, s, k =>
    send (.bfext .always (BitVec.ofNat 8 f.off.val) (BitVec.ofNat 8 f.width) (if f.word = 0 then w0 else w1)) s
      fun v s => extractAll w0 w1 rest s fun vs s => k (low32 v :: vs) s

/-- The sub-fields of one header word with their values. -/
def CalLists.inWord (x : CalLists) (k : Fin 2) : List (Config.SubField × Word) :=
  (calFields.zip x.fieldValues).filter fun p => p.1.word = k

/-- PACK.CAL (R163): the size is checked before the first store, then the header, then the lists in order (R162). -/
def packCal (g : Gate) (x : CalLists) (s : State) : Option (Finish Unit) :=
  send (.vsize .always 8 (BitVec.ofNat 32 (calCount x.source.length x.system.length x.vector.length x.async.length
    x.asyncTag.isSome)) 4) s fun size s =>
  send (.chksz g .cursor size) s fun _ s =>
  insertAll (x.inWord 0) 0 s fun w0 s =>
  send (.stbe g 4 .cursor (zext w0)) s fun _ s =>
  insertAll (x.inWord 1) 0 s fun w1 s =>
  send (.stbe g 4 .cursor (zext w1)) s fun _ s =>
  stlist g x.source s fun s =>
  stlist g x.system s fun s =>
  stlist g x.vector s fun s =>
  stlist g x.async s fun s =>
  stlist g (x.asyncTag.getD []) s fun s => finish () s

/-- The load part of UNPACK.CAL once the counts are known (R163). -/
def unpackCalLists (g : Gate) (ns nsys nv na : Nat) (tag : Bool) (s : State) : Option (Finish CalLists) :=
  ldlist g ns s fun source s =>
  ldlist g nsys s fun system s =>
  ldlist g nv s fun vector s =>
  ldlist g na s fun async s =>
  if tag then ldlist g na s fun t s => finish ⟨source, system, vector, async, some t⟩ s
  else finish ⟨source, system, vector, async, none⟩ s

/-- UNPACK.CAL (R163): the structure is at `addr` and the cursor is there; header first, then the check of the declared counts
against LEN, then each list. -/
def unpackCal (g : Gate) (addr : Word) (s : State) : Option (Finish CalLists) :=
  send (.chksz g .cursor 8) s fun _ s =>
  fetch (.ldbe g 4 .cursor) s fun w0 s =>
  fetch (.ldbe g 4 .cursor) s fun w1 s =>
  extractAll (low32 w0) (low32 w1) calFields s fun counts s =>
  match counts with
  | [ns, nsys, nv, tag, na] =>
    send (.vsize .always 8 (BitVec.ofNat 32 (calCount ns.toNat nsys.toNat nv.toNat na.toNat (tag = 1))) 4) s
      fun size s =>
    send (.chkvl g (.absolute addr) size) s fun _ s =>
    unpackCalLists g ns.toNat nsys.toNat nv.toNat na.toNat (tag = 1) s
  | _ => none

/-! ## Other variable-length structures -/

/-- The size of an IndexList (R164): 8 + 4 x NumEntries. -/
def indexListSize (entries : Nat) : Nat := 8 + 4 * entries

/-- Pack an IndexList by the protocol of R146. The two header words are the host's: their layout is in no source (R164). -/
def packIndexList (g : Gate) (w0 w1 : Word) (entries : List Word) (s : State) : Option (Finish Unit) :=
  send (.vsize .always 8 (BitVec.ofNat 32 entries.length) 4) s fun size s =>
  send (.chksz g .cursor size) s fun _ s =>
  stlist g (w0 :: w1 :: entries) s fun s => finish () s

/-- Unpack an IndexList at `addr`, the cursor being there (R146). Where its count lies is the host's knowledge (R164). The value is the two header
words whole, then the entries: the per-entry bit-width is in the header at a place no source gives, so the host reads it there (DESIGN CHOICE,
log entry 22). -/
def unpackIndexList (g : Gate) (addr : Word) (count : Config.SubField) (s : State) :
    Option (Finish (Word × Word × List Word)) :=
  send (.chksz g .cursor 8) s fun _ s =>
  fetch (.ldbe g 4 .cursor) s fun w0 s =>
  fetch (.ldbe g 4 .cursor) s fun w1 s =>
  extractAll (low32 w0) (low32 w1) [count] s fun counts s =>
  match counts with
  | [n] =>
    send (.vsize .always 8 n 4) s fun size s =>
    send (.chkvl g (.absolute addr) size) s fun _ s =>
    ldlist g n.toNat s fun entries s => finish (low32 w0, low32 w1, entries) s
  | _ => none

/-! ### SectorStepScan (R165). The header size SSS_BASE is OPEN, so the sequences take it as `base`; the block's own are at the end. -/

/-- The size of a SectorStepScan (R165). -/
def sssSize (records : Nat) : Nat := Config.sssBase.toNat + Config.sssRecord * records

/-- Where record `i` of a SectorStepScan starts (R165). -/
def sssRecordOffset (i : Nat) : Nat := Config.sssBase.toNat + Config.sssRecord * i

/-- A SectorStepScan as the host holds it (R165): the header is the sub-bitmap word with the host's bytes before and after it, NumRecords
among them; then the records. That the sub-bitmap is four consecutive bytes of the header, and that the rest of header and
records are the host's bytes, is a DESIGN CHOICE (log entry 20): no source gives their layout (R165, N11). -/
structure SectorStepScan where
  before : List Byte
  flags : Word
  after : List Byte
  records : List (List Byte)
  deriving DecidableEq, Repr

/-- The header has the size `base`, the sub-bitmap 12 flags, each record 80 bytes (R165). -/
def SectorStepScan.wf (base : Word) (x : SectorStepScan) : Bool :=
  decide (x.before.length + 4 + x.after.length = base.toNat) && decide (x.flags.toNat < 2 ^ 12) &&
    x.records.all fun r => decide (r.length = Config.sssRecord)

/-- The shape id of the sub-bitmap SectorStepScanCIF (R100, R165). -/
def sssShape : Byte := 7

/-- `VSIZE SSS_BASE, NumRecords, 80` (R165). -/
def sssVsize (base records : Word) : Instr := .vsize .always base records (BitVec.ofNat 32 Config.sssRecord)

/-- `count` records of 80 bytes, in order (R165). -/
def ldrecords {α : Type} (g : Gate) : Nat → State → (List (List Byte) → State → Option (Finish α)) → Option (Finish α)
  | 0, s, k => k [] s
  | n + 1, s, k => ldbytes g Config.sssRecord s fun r s => ldrecords g n s fun rs s => k (r :: rs) s

/-- Pack a SectorStepScan by the protocol of R146 (R165): the size is checked before the first store; the sub-bitmap is
packed with shape id 7; record `i` follows at `base + 80 i`. -/
def packSss (base : Word) (g : Gate) (x : SectorStepScan) (s : State) : Option (Finish Unit) :=
  send (sssVsize base (BitVec.ofNat 32 x.records.length)) s fun size s =>
  send (.chksz g .cursor size) s fun _ s =>
  stbytes g x.before s fun s =>
  stbitmap g sssShape x.flags s fun _ s =>
  stbytes g x.after s fun s =>
  stbytes g x.records.flatten s fun s => finish () s

/-- Unpack a SectorStepScan at `addr`, the cursor being there (R146, R165): the header, then the overrun test of the VSIZE of the declared
NumRecords, then the records. Where in the header the sub-bitmap and NumRecords lie is the host's knowledge: `nBefore`, `nAfter`, `count`
(DESIGN CHOICE, log entry 20). -/
def unpackSss (base : Word) (g : Gate) (addr : Word) (nBefore nAfter : Nat) (count : List Byte → Word → List Byte → Word)
    (s : State) : Option (Finish SectorStepScan) :=
  send (.chksz g .cursor (zext base)) s fun _ s =>
  ldbytes g nBefore s fun before s =>
  ldbitmap g sssShape s fun word flags s =>
  ldbytes g nAfter s fun after s =>
  send (sssVsize base (count before word after)) s fun size s =>
  send (.chkvl g (.absolute addr) size) s fun _ s =>
  ldrecords g (count before word after).toNat s fun records s => finish ⟨before, flags, after, records⟩ s

/-- Packing with the block's own SSS_BASE (R7, R165). -/
def packSectorStepScan (g : Gate) (x : SectorStepScan) (s : State) : Option (Finish Unit) := packSss Config.sssBase g x s

/-- Unpacking with the block's own SSS_BASE (R7, R165). -/
def unpackSectorStepScan (g : Gate) (addr : Word) (nBefore nAfter : Nat) (count : List Byte → Word → List Byte → Word)
    (s : State) : Option (Finish SectorStepScan) :=
  unpackSss Config.sssBase g addr nBefore nAfter count s

/-! ### GpsAscii (R166) -/

/-- The size of a GpsAscii (R166). -/
def gpsSize (words : Nat) : Nat := Config.gpsBase.toNat + 4 * words

/-- The payload region of a GpsAscii (R166): exactly 4 Nw bytes, the payload cut there or padded with zero bytes. -/
def gpsRegion (payload : List Byte) (words : Nat) : List Byte :=
  payload.take (4 * words) ++ List.replicate (4 * words - payload.length) 0

/-- The stores of a payload region (R166): the kept bytes, then STZ for the padding. -/
def stgps {α : Type} (g : Gate) (payload : List Byte) (words : Nat) (s : State) (k : State → Option (Finish α)) :
    Option (Finish α) :=
  stbytes g (payload.take (4 * words)) s fun s => stz g (4 * words - payload.length) s k

/-- Pack the payload region of a GpsAscii at the cursor (R166). With NumberOfWords 0 the region is empty, no command is issued and the
sequence ends OK (DESIGN CHOICE, log entry 19). -/
def packGpsPayload (g : Gate) (payload : List Byte) (words : Nat) (s : State) : Option (Finish Unit) :=
  if words = 0 then finishIdle () s else stgps g payload words s fun s => finish () s

/-- Unpack the payload region of a GpsAscii at the cursor (R166). The value is all 4 Nw bytes: trailing zero bytes are NOT stripped
(DESIGN CHOICE, log entry 18: R166 leaves that to the host). With NumberOfWords 0 no command is issued and the sequence ends OK (log
entry 19). -/
def unpackGpsPayload (g : Gate) (words : Nat) (s : State) : Option (Finish (List Byte)) :=
  if words = 0 then finishIdle [] s else ldbytes g (4 * words) s fun bytes s => finish bytes s

/-- Pack a GpsAscii by the protocol of R146 (R166): `VSIZE GPS_BASE, Nw, 4` and the check, then the host's GPS_BASE bytes before the payload,
whose layout no source gives, then the payload region. -/
def packGpsAscii (g : Gate) (header payload : List Byte) (words : Word) (s : State) : Option (Finish Unit) :=
  send (.vsize .always Config.gpsBase words 4) s fun size s =>
  send (.chksz g .cursor size) s fun _ s =>
  stbytes g header s fun s =>
  stgps g payload words.toNat s fun s => finish () s

/-- Unpack a GpsAscii at `addr`, the cursor being there (R146, R166): the GPS_BASE bytes before the payload, the overrun test, then all
4 Nw bytes of the payload region (log entry 18). Where NumberOfWords lies is the host's knowledge: `count`. -/
def unpackGpsAscii (g : Gate) (addr : Word) (count : List Byte → Word) (s : State) :
    Option (Finish (List Byte × List Byte)) :=
  send (.chksz g .cursor (zext Config.gpsBase)) s fun _ s =>
  ldbytes g Config.gpsBase.toNat s fun header s =>
  send (.vsize .always Config.gpsBase (count header) 4) s fun size s =>
  send (.chkvl g (.absolute addr) size) s fun _ s =>
  ldbytes g (4 * (count header).toNat) s fun bytes s => finish (header, bytes) s

end Sys2Proof.Machine
end

