-- ==== Sys2Proof/Safety.lean ====
section
/-! DEFINITION. What counts as a sound state and a safe run, in the terms the statements use. -/

namespace Sys2Proof.Machine

/-- What every state of the block keeps (R25, R27, R49, R188): LEN is at most BUF_CAP, BUF is in its canonical form, and no
byte is written outside the buffer memory. -/
structure State.Inv (s : State) : Prop where
  canonical : s.buf.wf = true
  lenWithin : s.len.toNat ≤ Config.bufCap
  bytesWithin : ∀ c ∈ s.buf, c.1 < Config.bufCap

/-- The host keeps to the addresses of the buffer memory (R48, R49). -/
def HostAction.inBuffer : HostAction → Prop
  | .writeByte addr _ => addr.toNat < Config.bufCap
  | .readByte addr => addr.toNat < Config.bufCap
  | .command _ => True
  | .reset => True

/-- A state from which nothing stops the block: it is sound, and the host keeps to the buffer memory. -/
structure State.Safe (s : State) : Prop where
  inv : s.Inv
  host : ∀ a ∈ s.host, a.inBuffer

/-- The same command without its gate (GE = 0). -/
def ungated : Instr → Instr
  | .bufset _ len => .bufset .always len
  | .lenget _ => .lenget .always
  | .curset _ off => .curset .always off
  | .curget _ => .curget .always
  | .iwset _ word => .iwset .always word
  | .iwget _ => .iwget .always
  | .bmpack _ shape flags => .bmpack .always shape flags
  | .bmunpack _ shape word => .bmunpack .always shape word
  | .bmor _ pos word flag => .bmor .always pos word flag
  | .bmtst _ pos word => .bmtst .always pos word
  | .evpack _ enables values => .evpack .always enables values
  | .evunpack _ word => .evunpack .always word
  | .fxenc16 _ radix value => .fxenc16 .always radix value
  | .fxenc32 _ radix value => .fxenc32 .always radix value
  | .fxenc64 _ radix value => .fxenc64 .always radix value
  | .fxdec16 _ radix raw => .fxdec16 .always radix raw
  | .fxdec32 _ radix raw => .fxdec32 .always radix raw
  | .fxdec64 _ radix raw => .fxdec64 .always radix raw
  | .bfins _ off width word value => .bfins .always off width word value
  | .bfext _ off width word => .bfext .always off width word
  | .m1enc _ width value => .m1enc .always width value
  | .m1dec _ width stored => .m1dec .always width stored
  | .stbe _ n addr value => .stbe .always n addr value
  | .ldbe _ n addr => .ldbe .always n addr
  | .vsize _ base count stride => .vsize .always base count stride
  | .chksz _ addr size => .chksz .always addr size
  | .chkvl _ addr size => .chkvl .always addr size

/-- The status of a command whose own rule runs (R188, R189): the only errors are those of the four commands that
compare an extent with LEN. -/
def ownStatus (i : Instr) (s : State) : Status :=
  match i with
  | .stbe _ n addr _ => if s.len.toNat < s.ea addr + n.toNat then .bufferTooShort else .ok
  | .ldbe _ n addr => if s.len.toNat < s.ea addr + n.toNat then .bufferTooShort else .ok
  | .chksz _ addr size => if s.len.toNat < s.ea addr + size.toNat then .bufferTooShort else .ok
  | .chkvl _ addr size => if s.len.toNat < s.ea addr + size.toNat then .inconsistentLength else .ok
  | _ => .ok

/-- The one status of a command, chosen in the fixed order of R194. -/
def commandStatus (i : Instr) (s : State) : Status :=
  if i.wf then if s.gateOpen i.gate then ownStatus i s else .skipped else .illegalCommand

/-- The status of a command word: an illegal word has one before anything else is looked at (R68, R194). -/
def wordStatus (w : CommandWord) (s : State) : Status :=
  match decode w with
  | .command i => commandStatus i s
  | .illegal _ => .illegalCommand

/-- The byte range an access or a check covers: `n` bytes from `ea` (R42, R43). -/
def covers (ea n a : Nat) : Prop := ea ≤ a ∧ a < ea + n

/-! ## The numbers patterns stand for -/

/-- The value of a finite binary64 pattern, as R71 writes it. -/
def f64Value (v : DWord) : ℚ :=
  (if f64Negative v then -1 else 1) *
    (if f64Exponent v = 0 then (2 : ℚ) ^ (-1022 : ℤ) * ((f64Fraction v : ℚ) / 2 ^ 52)
     else (2 : ℚ) ^ ((f64Exponent v : ℤ) - 1023) * (1 + (f64Fraction v : ℚ) / 2 ^ 52))

/-- `n` is the integer nearest to `p` and, where two are equally near, the one farther from zero (R82). -/
def NearestAway (p : ℚ) (n : ℤ) : Prop := |p - n| < 1 / 2 ∨ (|p - n| = 1 / 2 ∧ |p| < |(n : ℚ)|)

end Sys2Proof.Machine
end

