-- ==== Sys2Proof/Certificates/Slice0/Obligations.lean ====
section
/-! DEFINITION. The statements about the model that the provers are to settle. Each names the rules of spec/ it formalises;
"the model's choice" marks what rests on a log entry and not on a rule. -/

open Sys2Proof Sys2Proof.Machine

/-! ## Terms of the statements -/

namespace Sys2Proof.Claims

/-- The bits every command uses: `op`, GE, and GP when GE = 1 (R60, R61). -/
def gateBits (g : Gate) : Fields :=
  { op := 0xFF, a := 0, b := 0, ge := 1, cm := 0, g5 := 0, gp := (match g with | .always => 0 | .ifPresent _ => 0x1F),
    aux := 0, data := 0 }

/-- The bits an address operand uses: CM, and `aux` when CM = 0 (R61, R135). -/
def addrBits (x : AddrOperand) (f : Fields) : Fields :=
  { f with cm := 1, aux := (match x with | .absolute _ => 0xFFFFFFFF | .cursor => 0) }

/-- The fields of the bits a command uses, row by row of the opcode map (R63, R64). M1DEC's term keeps `data[15:0]` for
either width (log entry 12). -/
def usedBits : Instr → Fields
  | .bufset g _ => { gateBits g with aux := 0xFFFFFFFF }
  | .lenget g => gateBits g
  | .curset g _ => { gateBits g with aux := 0xFFFFFFFF }
  | .curget g => gateBits g
  | .iwset g _ => { gateBits g with data := 0xFFFFFFFF }
  | .iwget g => gateBits g
  | .bmpack g _ _ => { gateBits g with a := 0xFF, data := 0xFFFFFFFF }
  | .bmunpack g _ _ => { gateBits g with a := 0xFF, data := 0xFFFFFFFF }
  | .bmor g _ _ _ => { gateBits g with a := 0xFF, aux := 1, data := 0xFFFFFFFF }
  | .bmtst g _ _ => { gateBits g with a := 0xFF, data := 0xFFFFFFFF }
  | .evpack g _ _ => { gateBits g with data := 0xFFFF }
  | .evunpack g _ => { gateBits g with data := 0xFFFFFFFF }
  | .fxenc16 g _ _ => { gateBits g with a := 0xFF, data := 0xFFFFFFFFFFFFFFFF }
  | .fxenc32 g _ _ => { gateBits g with a := 0xFF, data := 0xFFFFFFFFFFFFFFFF }
  | .fxenc64 g _ _ => { gateBits g with a := 0xFF, data := 0xFFFFFFFFFFFFFFFF }
  | .fxdec16 g _ _ => { gateBits g with a := 0xFF, data := 0xFFFF }
  | .fxdec32 g _ _ => { gateBits g with a := 0xFF, data := 0xFFFFFFFF }
  | .fxdec64 g _ _ => { gateBits g with a := 0xFF, data := 0xFFFFFFFFFFFFFFFF }
  | .bfins g _ _ _ _ => { gateBits g with a := 0xFF, b := 0xFF, aux := 0xFFFFFFFF, data := 0xFFFFFFFF }
  | .bfext g _ _ _ => { gateBits g with a := 0xFF, b := 0xFF, data := 0xFFFFFFFF }
  | .m1enc g _ _ => { gateBits g with b := 0xFF, aux := 0xFFFFFFFF }
  | .m1dec g _ _ => { gateBits g with b := 0xFF, data := 0xFFFF }
  | .stbe g _ x _ => addrBits x { gateBits g with b := 0xFF, data := 0xFFFFFFFFFFFFFFFF }
  | .ldbe g _ x => addrBits x { gateBits g with b := 0xFF }
  | .vsize g _ _ _ => { gateBits g with aux := 0xFFFFFFFF, data := 0xFFFFFFFFFFFFFFFF }
  | .chksz g x _ => addrBits x { gateBits g with data := 0xFFFFFFFFFFFFFFFF }
  | .chkvl g x _ => addrBits x { gateBits g with data := 0xFFFFFFFFFFFFFFFF }

/-- The unassigned values of `op`, as R66 lists them. -/
def unassignedOp (n : Nat) : Prop :=
  n = 0x00 ∨ (0x05 ≤ n ∧ n ≤ 0x07) ∨ (0x0A ≤ n ∧ n ≤ 0x0F) ∨ (0x16 ≤ n ∧ n ≤ 0x1F) ∨ n = 0x23 ∨ (0x27 ≤ n ∧ n ≤ 0x2F) ∨
    (0x34 ≤ n ∧ n ≤ 0x3F) ∨ n = 0x42 ∨ n = 0x43 ∨ (0x47 ≤ n ∧ n ≤ 0xFF)

/-- The table of R67. -/
def operandOutOfRange (f : Fields) : Prop :=
  (f.op = 0x01 ∧ Config.bufCap < f.aux.toNat) ∨
  ((f.op = 0x10 ∨ f.op = 0x11) ∧ 7 < f.a.toNat) ∨
  ((f.op = 0x12 ∨ f.op = 0x13) ∧ 31 < f.a.toNat) ∨
  ((f.op = 0x30 ∨ f.op = 0x31) ∧
    (f.b.toNat = 0 ∨ 32 < f.b.toNat ∨ 31 < f.a.toNat ∨ 32 < f.a.toNat + f.b.toNat)) ∨
  ((f.op = 0x32 ∨ f.op = 0x33) ∧ f.b.toNat ≠ 6 ∧ f.b.toNat ≠ 16) ∨
  ((f.op = 0x40 ∨ f.op = 0x41) ∧ f.b.toNat ≠ 1 ∧ f.b.toNat ≠ 2 ∧ f.b.toNat ≠ 4 ∧ f.b.toNat ≠ 8)

/-- A byte count an access may have (R45). -/
def accessWidth (n : Byte) : Prop := n = 1#8 ∨ n = 2#8 ∨ n = 4#8 ∨ n = 8#8

/-- The word of the field `f = (off, width)` all ones (R124). -/
def fieldMask (f : Nat × Nat) : Word := mask f.2 <<< f.1

/-- A field that lies in a 32-bit word (R120). -/
def fieldOk (f : Nat × Nat) : Prop := 1 ≤ f.2 ∧ f.1 + f.2 ≤ 32

/-- The commands that have no result (R64). -/
def answersNothing : Instr → Bool
  | .bufset _ _ | .curset _ _ | .iwset _ _ | .stbe _ _ _ _ | .chksz _ _ _ | .chkvl _ _ _ => true
  | .lenget _ | .curget _ | .iwget _ | .bmpack _ _ _ | .bmunpack _ _ _ | .bmor _ _ _ _ | .bmtst _ _ _ | .evpack _ _ _
  | .evunpack _ _ | .fxenc16 _ _ _ | .fxenc32 _ _ _ | .fxenc64 _ _ _ | .fxdec16 _ _ _ | .fxdec32 _ _ _ | .fxdec64 _ _ _
  | .bfins _ _ _ _ _ | .bfext _ _ _ _ | .m1enc _ _ _ | .m1dec _ _ _ | .ldbe _ _ _ | .vsize _ _ _ _ => false

/-- The product of an FXENC is finite in binary64 (R83). -/
def productFits (v : DWord) (radix : Byte) : Prop :=
  f64Finite v = true ∧ |f64Value v * 2 ^ radix.toNat| < 2 ^ 1024

end Sys2Proof.Claims

open Sys2Proof.Claims

/-! ## Decoding and encoding -/

/-- R64, R65, R75: decoding the encoding of a well-formed command gives it back, with every operand at every value. -/
def Obligations.DecodeOfEncodeGivesTheCommand : Prop :=
  ∀ i : Instr, i.wf = true → decode (encode i) = .command i

/-- R63, R64: a word that decodes to a command is the command's encoding in the bits the command uses; every other bit
is ignored. -/
def Obligations.DecodeUsesExactlyTheListedBits : Prop :=
  ∀ (w : CommandWord) (i : Instr), decode w = .command i → encode i = w &&& (usedBits i).toWord

/-- R66: exactly the listed values of `op` are unassigned, and such a command answers ILLEGAL_COMMAND, result 0, and changes
nothing. -/
def Obligations.UnassignedOpcodeAnswersIllegal : Prop :=
  ∀ (w : CommandWord) (s : State),
    (unassignedOp (Fields.ofWord w).op.toNat ↔ ∃ op, decode w = .illegal (.unassignedOp op)) ∧
    (unassignedOp (Fields.ofWord w).op.toNat →
      step (s.issue w) = .next { s with response := some ⟨.illegalCommand, 0⟩ })

/-- R67: a command with an assigned `op` is illegal exactly for the listed operand values, with the outcome of R66. -/
def Obligations.OutOfRangeOperandAnswersIllegal : Prop :=
  ∀ (w : CommandWord) (s : State),
    (operandOutOfRange (Fields.ofWord w) ↔ ∃ i, decode w = .illegal (.operandOutOfRange i)) ∧
    (operandOutOfRange (Fields.ofWord w) →
      step (s.issue w) = .next { s with response := some ⟨.illegalCommand, 0⟩ })

/-- R64, R75: words of spec/95_test_vectors.md decode to the commands they stand for. -/
def Obligations.SampleWordsDecode : Prop :=
  decode 0x400004D7000000000000000000800080#128 = .command (.stbe (.ifPresent 23) 4 .cursor 0x00800080) ∧
  decode 0x121F0000FFFFFFFF0000000000000000#128 = .command (.bmor .always 31 0 1) ∧
  decode 0x44000000000000080000000400000001#128 = .command (.vsize .always 8 1 4) ∧
  decode 0x2407000000000000FFFFFFFFFFFFFF80#128 = .command (.fxdec16 .always 7 0xFF80) ∧
  decode 0x30111000000000010000000000000000#128 = .illegal (.operandOutOfRange (.bfins .always 17 16 0 1)) ∧
  decode 0x23000097000000000000000000000000#128 = .illegal (.unassignedOp 0x23)

/-! ## The execution skeleton -/

/-- R77: where the host's next action is a command whose word decodes to `i`, the step takes it off what the host does
next and is `exec i`. -/
def Obligations.StepRunsTheDecodedCommand : Prop :=
  ∀ (s : State) (w : CommandWord) (rest : List HostAction) (i : Instr),
    s.host = .command w :: rest → decode w = .command i → step s = exec i { s with host := rest }

/-- R65, R67, R75, R77: issuing the assembled word of any command, legal or not, is executing the command. -/
def Obligations.IssuingAnEncodedCommandExecutesIt : Prop :=
  ∀ (i : Instr) (s : State), step (s.issue (encode i)) = exec i s

/-- R68: a word that is no command answers ILLEGAL_COMMAND whatever its gate bits are and whatever IW holds, and so does an ill-formed
command. -/
def Obligations.IllegalityIsDecidedBeforeTheGate : Prop :=
  (∀ (w : CommandWord) (s : State), (∀ i, decode w ≠ .command i) →
    step (s.issue w) = .next { s with response := some ⟨.illegalCommand, 0⟩ }) ∧
  (∀ (i : Instr) (s : State), i.wf = false → exec i s = .next { s with response := some ⟨.illegalCommand, 0⟩ })

/-- R104: a legal gated command whose bit of IW is 0 is skipped and changes nothing; any other legal command runs as it
would without a gate. -/
def Obligations.GateSkipsOrRunsTheCommand : Prop :=
  ∀ (i : Instr) (s : State), i.wf = true →
    (∀ p, i.gate = .ifPresent p → s.iw.getLsbD p.toNat = false →
      exec i s = .next { s with response := some ⟨.skipped, 0⟩ }) ∧
    (∀ p, i.gate = .ifPresent p → s.iw.getLsbD p.toNat = true → exec i s = exec (ungated i) s) ∧
    (i.gate = .always → exec i s = exec (ungated i) s)

/-- R188, R189, R194: every command word answers, with exactly one status, chosen in the fixed order; BUFFER_TOO_SHORT and
INCONSISTENT_LENGTH arise exactly where an extent exceeds LEN. And in a sound state an access that passes the check lies
inside the buffer memory. -/
def Obligations.EveryCommandAnswersItsStatus : Prop :=
  (∀ (w : CommandWord) (s : State), ∃ t r, step (s.issue w) = .next t ∧ t.response = some ⟨wordStatus w s, r⟩) ∧
  (∀ (i : Instr) (s : State), ∃ t r, exec i s = .next t ∧ t.response = some ⟨commandStatus i s, r⟩) ∧
  (∀ (s : State) (addr : AddrOperand) (n : Nat), s.Inv → ¬ s.len.toNat < s.ea addr + n →
    s.ea addr + n ≤ Config.bufCap)

/-- R190, R197: a command that ends with a status other than OK answers result 0 and changes nothing, so issued again at once
it answers the same. -/
def Obligations.CommandThatIsNotOkChangesNothing : Prop :=
  ∀ (i : Instr) (s t : State) (st : Status) (r : DWord), exec i s = .next t → t.response = some ⟨st, r⟩ → st ≠ .ok →
    r = 0 ∧ t = { s with response := some ⟨st, 0⟩ } ∧ exec i t = .next t

/-- R62: the statuses and their codes; every command word produces one response; its result is 0 and nothing changes where the
status is not OK, and its result is 0 for a command that has none. -/
def Obligations.ResponseOfEveryCommand : Prop :=
  (Status.ok.code = 0 ∧ Status.skipped.code = 1 ∧ Status.bufferTooShort.code = 2 ∧ Status.inconsistentLength.code = 3 ∧
    Status.illegalCommand.code = 4) ∧
  (∀ st : Status, st.code.toNat ≤ 4) ∧
  (∀ (w : CommandWord) (s : State), ∃ t r, step (s.issue w) = .next t ∧ t.response = some r ∧
    (r.status ≠ .ok → r.res = 0 ∧ t = { s with response := some r })) ∧
  (∀ (i : Instr) (s t : State) (r : Response), answersNothing i = true → exec i s = .next t → t.response = some r →
    r.res = 0)

/-! ## What a command may change -/

/-- R20, R23, R24, R25, R27: which command writes which piece of state; no command touches what the model adds for the host. -/
def Obligations.OnlyItsWritersChangeAPieceOfState : Prop :=
  ∀ (i : Instr) (s t : State), exec i s = .next t →
    (t.iw ≠ s.iw → ∃ g w, i = .iwset g w) ∧
    (t.len ≠ s.len → ∃ g l, i = .bufset g l) ∧
    (t.cur ≠ s.cur → (∃ g l, i = .bufset g l) ∨ (∃ g o, i = .curset g o) ∨ (∃ g n v, i = .stbe g n .cursor v) ∨
      (∃ g n, i = .ldbe g n .cursor)) ∧
    (t.buf ≠ s.buf → ∃ g n x v, i = .stbe g n x v) ∧
    t.epoch = s.epoch ∧ t.host = s.host ∧ t.hostByte = s.hostByte

/-- R43, R46: a byte of BUF changes only where a store puts it: outside the range of an STBE, and under every other command, every
byte reads as before. -/
def Obligations.OnlyAStoredByteChanges : Prop :=
  ∀ (i : Instr) (s t : State) (a : Nat), exec i s = .next t →
    (∀ g n x v, i = .stbe g n x v → ¬ covers (s.ea x) n.toNat a) → t.byteAt a = s.byteAt a

/-! ## Invariants and runs -/

/-- R206: the state after reset is sound. -/
def Obligations.ResetStateIsSound : Prop := State.reset.Inv

/-- R25, R27, R49, R188: every step from a sound state gives a sound state. -/
def Obligations.StepKeepsSoundness : Prop :=
  ∀ s t : State, s.Inv → step s = .next t → t.Inv

/-- R193, R199, U3: while the host keeps to the buffer memory no run of any length stops, and it stays sound. -/
def Obligations.SafeRunNeverStops : Prop :=
  ∀ (k : Nat) (s : State), s.Safe → ∃ t, Host.Core.run Sys2Proof.core k s = .next t ∧ State.Safe t

/-- R206, R207: reset leaves IW, CUR and LEN 0 and no response pending, both in the reset state and after a reset event. That the
event leaves what the host does next as it was (`t.host = rest`) is the model's choice (log entry 10), not a rule. -/
def Obligations.ResetClearsTheRegisters : Prop :=
  (State.reset.iw = 0 ∧ State.reset.cur = 0 ∧ State.reset.len = 0 ∧ State.reset.response = none) ∧
  (∀ (s : State) (rest : List HostAction), s.host = .reset :: rest →
    ∃ t, step s = .next t ∧ t.iw = 0 ∧ t.cur = 0 ∧ t.len = 0 ∧ t.response = none ∧ t.host = rest)

/-- The model's choice (log entry 2), fitted to R206: after a reset event every byte of BUF is a free value of a new
epoch, unrelated by anything known to what was there. -/
def Obligations.ResetMakesEveryByteFree : Prop :=
  (∀ a, State.reset.byteAt a = Config.unwrittenByte 0 a) ∧
  (∀ (s : State) (rest : List HostAction), s.host = .reset :: rest →
    ∃ t, step s = .next t ∧ ∀ a, t.byteAt a = Config.unwrittenByte (s.epoch + 1) a)

/-- R208: what the reset values imply for a host that initialises nothing, in every state whose IW, CUR and LEN are 0: the reset
state, and the state after a reset event whatever went before. -/
def Obligations.CommandsRightAfterReset : Prop :=
  ∀ s : State, s.iw = 0 → s.cur = 0 → s.len = 0 →
  (∀ (i : Instr) (p : BitVec 5), i.wf = true → i.gate = .ifPresent p →
    exec i s = .next { s with response := some ⟨.skipped, 0⟩ }) ∧
  (∀ n x v, accessWidth n →
    exec (.stbe .always n x v) s = .next { s with response := some ⟨.bufferTooShort, 0⟩ } ∧
    exec (.ldbe .always n x) s = .next { s with response := some ⟨.bufferTooShort, 0⟩ }) ∧
  (∀ (x : AddrOperand) (size : DWord), x = .absolute 0 ∨ x = .cursor →
    exec (.chksz .always x size) s =
      .next { s with response := some (if size = 0 then ⟨.ok, 0⟩ else ⟨.bufferTooShort, 0⟩) } ∧
    exec (.chkvl .always x size) s =
      .next { s with response := some (if size = 0 then ⟨.ok, 0⟩ else ⟨.inconsistentLength, 0⟩) }) ∧
  exec (.lenget .always) s = .next { s with response := some ⟨.ok, 0⟩ } ∧
  exec (.curget .always) s = .next { s with response := some ⟨.ok, 0⟩ } ∧
  exec (.iwget .always) s = .next { s with response := some ⟨.ok, 0⟩ }

/-- The canonical form decides: memories in which every address reads the same are the same data. -/
def Obligations.CanonicalMemoriesWithEqualCellsAreEqual : Prop :=
  ∀ m k : Memory, Memory.wf m = true → Memory.wf k = true → (∀ a, Memory.cell? m a = Memory.cell? k a) → m = k

/-! ## Registers -/

/-- R101, R136, R138: IWSET, BUFSET and CURSET write their registers and nothing else, and answer 0; BUFSET also puts the
cursor at 0 and is illegal above BUF_CAP. -/
def Obligations.RegisterWritesComplete : Prop :=
  ∀ (g : Gate) (s : State), s.gateOpen g = true →
    (∀ w, exec (.iwset g w) s = .next { s with iw := w, response := some ⟨.ok, 0⟩ }) ∧
    (∀ o, exec (.curset g o) s = .next { s with cur := o, response := some ⟨.ok, 0⟩ }) ∧
    (∀ l, exec (.bufset g l) s = if l.toNat ≤ Config.bufCap
      then .next { s with len := l, cur := 0, response := some ⟨.ok, 0⟩ }
      else .next { s with response := some ⟨.illegalCommand, 0⟩ })

/-- R102, R137, R139: IWGET, LENGET and CURGET answer their register, zero-extended, and change nothing. -/
def Obligations.RegisterReadsComplete : Prop :=
  ∀ (g : Gate) (s : State), s.gateOpen g = true →
    (∃ r : DWord, exec (.iwget g) s = .next { s with response := some ⟨.ok, r⟩ } ∧ r.toNat = s.iw.toNat) ∧
    (∃ r : DWord, exec (.lenget g) s = .next { s with response := some ⟨.ok, r⟩ } ∧ r.toNat = s.len.toNat) ∧
    (∃ r : DWord, exec (.curget g) s = .next { s with response := some ⟨.ok, r⟩ } ∧ r.toNat = s.cur.toNat)

/-! ## Buffer memory -/

/-- R42: MemRead is bounds-checked and big-endian. -/
def Obligations.MemReadIsBigEndian : Prop :=
  ∀ (ea n : Nat) (s : State), n = 1 ∨ n = 2 ∨ n = 4 ∨ n = 8 →
    (s.len.toNat < ea + n → memRead ea n s = .error .bufferTooShort) ∧
    (ea + n ≤ s.len.toNat →
      memRead ea n s = .ok (∑ k ∈ Finset.range n, (s.byteAt (ea + k)).toNat * 2 ^ (8 * (n - 1 - k))))

/-- R43: MemWrite is bounds-checked as a whole before any byte is written, and big-endian; bytes outside keep their
values. -/
def Obligations.MemWriteIsBigEndian : Prop :=
  ∀ (ea n v : Nat) (s : State), n = 1 ∨ n = 2 ∨ n = 4 ∨ n = 8 → v < 2 ^ (8 * n) →
    (s.len.toNat < ea + n → memWrite ea n v s = .error .bufferTooShort) ∧
    (ea + n ≤ s.len.toNat → ∃ t, memWrite ea n v s = .ok t ∧ t = { s with buf := t.buf } ∧
      (∀ k, k < n → t.byteAt (ea + k) = (BitVec.ofNat 64 v).extractLsb' (8 * (n - k - 1)) 8) ∧
      (∀ a, ¬ covers ea n a → t.byteAt a = s.byteAt a))

/-- R135, R140: STBE inside the buffer stores the low n bytes of its value, most significant first, moves the cursor in cursor
mode, answers 0, and changes nothing else. -/
def Obligations.StoreCompletes : Prop :=
  ∀ (g : Gate) (n : Byte) (x : AddrOperand) (v : DWord) (s : State),
    s.gateOpen g = true → accessWidth n → s.ea x + n.toNat ≤ s.len.toNat →
    ∃ t, exec (.stbe g n x v) s = .next t ∧ t.response = some ⟨.ok, 0⟩ ∧
      (∀ k, k < n.toNat → t.byteAt (s.ea x + k) = v.extractLsb' (8 * (n.toNat - k - 1)) 8) ∧
      (∀ a, ¬ covers (s.ea x) n.toNat a → t.byteAt a = s.byteAt a) ∧
      t.cur.toNat = (match x with | .absolute _ => s.cur.toNat | .cursor => s.cur.toNat + n.toNat) ∧
      t.iw = s.iw ∧ t.len = s.len ∧ t.epoch = s.epoch ∧ t.host = s.host ∧ t.hostByte = s.hostByte

/-- R135, R141: LDBE inside the buffer answers the n bytes as an unsigned big-endian integer, moves the cursor in cursor
mode, and changes nothing else. -/
def Obligations.LoadCompletes : Prop :=
  ∀ (g : Gate) (n : Byte) (x : AddrOperand) (s : State),
    s.gateOpen g = true → accessWidth n → s.ea x + n.toNat ≤ s.len.toNat →
    ∃ (r : DWord) (c : Word), exec (.ldbe g n x) s = .next { s with cur := c, response := some ⟨.ok, r⟩ } ∧
      r.toNat = (∑ k ∈ Finset.range n.toNat, (s.byteAt (s.ea x + k)).toNat * 2 ^ (8 * (n.toNat - 1 - k))) ∧
      c.toNat = (match x with | .absolute _ => s.cur.toNat | .cursor => s.cur.toNat + n.toNat)

/-- R41, R46, R176: a load of the bytes a store has just written answers the stored bytes of the value. -/
def Obligations.LoadAfterStoreGivesTheValue : Prop :=
  ∀ (n : Byte) (a : Word) (v : DWord) (s t : State), accessWidth n → a.toNat + n.toNat ≤ s.len.toNat →
    exec (.stbe .always n (.absolute a) v) s = .next t →
    ∃ r : DWord, exec (.ldbe .always n (.absolute a)) t = .next { t with response := some ⟨.ok, r⟩ } ∧
      r.toNat = v.toNat % 2 ^ (8 * n.toNat)

/-- R144, R145, R188, R189: CHKSZ and CHKVL answer OK exactly when the extent fits, as a mathematical sum, and their own error
otherwise; they change nothing. -/
def Obligations.ExtentChecksComplete : Prop :=
  ∀ (g : Gate) (x : AddrOperand) (size : DWord) (s : State), s.gateOpen g = true →
    (s.ea x + size.toNat ≤ s.len.toNat →
      exec (.chksz g x size) s = .next { s with response := some ⟨.ok, 0⟩ } ∧
      exec (.chkvl g x size) s = .next { s with response := some ⟨.ok, 0⟩ }) ∧
    (s.len.toNat < s.ea x + size.toNat →
      exec (.chksz g x size) s = .next { s with response := some ⟨.bufferTooShort, 0⟩ } ∧
      exec (.chkvl g x size) s = .next { s with response := some ⟨.inconsistentLength, 0⟩ })

/-- R147, R210: after a CHKSZ or a CHKVL of a whole extent has answered OK, no store or load inside the extent fails, absolute or at
the cursor, gated or not, in any later state with the same LEN: it answers OK, or SKIPPED if its own gate is closed. -/
def Obligations.AccessInsideACheckedExtentIsOk : Prop :=
  ∀ (gc g : Gate) (x y : AddrOperand) (size : DWord) (n : Byte) (v : DWord) (s t u : State), accessWidth n →
    exec (.chksz gc x size) s = .next t ∨ exec (.chkvl gc x size) s = .next t → t.response = some ⟨.ok, 0⟩ →
    u.len = s.len → s.ea x ≤ u.ea y → u.ea y + n.toNat ≤ s.ea x + size.toNat →
    (∃ w r, exec (.stbe g n y v) u = .next w ∧ w.response = some r ∧
      r.status = if u.gateOpen g then .ok else .skipped) ∧
    (∃ w r, exec (.ldbe g n y) u = .next w ∧ w.response = some r ∧
      r.status = if u.gateOpen g then .ok else .skipped)

/-- R129, R143: VSIZE answers base + count x stride exactly; the sum never wraps. -/
def Obligations.VsizeIsExact : Prop :=
  ∀ (g : Gate) (base count stride : Word) (s : State), s.gateOpen g = true →
    ∃ r : DWord, exec (.vsize g base count stride) s = .next { s with response := some ⟨.ok, r⟩ } ∧
      r.toNat = base.toNat + count.toNat * stride.toNat

/-- R46, R48: any byte of BUF that the host writes between commands, whatever LEN is, is what the host reads back; and where it is
inside LEN it is what a load answers. -/
def Obligations.HostWriteIsSeenByLoadAndHostRead : Prop :=
  ∀ (s : State) (a : Word) (b : Byte) (rest : List HostAction),
    s.host = .writeByte a b :: .readByte a :: rest → a.toNat < Config.bufCap →
    ∃ t u, step s = .next t ∧ step t = .next u ∧ u.hostByte = some b ∧
      (a.toNat + 1 ≤ s.len.toNat →
        exec (.ldbe .always 1 (.absolute a)) u = .next { u with response := some ⟨.ok, b.setWidth 64⟩ }) ∧
      u.byteAt a.toNat = b ∧ (∀ x, x ≠ a.toNat → u.byteAt x = s.byteAt x) ∧
      u.iw = s.iw ∧ u.cur = s.cur ∧ u.len = s.len ∧ u.host = rest

/-! ## Bitmap, selector, pairs -/

/-- R105, R106: BMOR answers the word with the flag ORed in at the position (OR never clears), and BMTST answers exactly 0 or 1,
the bit of the word at the position; both change nothing. -/
def Obligations.SingleBitCommandsComplete : Prop :=
  ∀ (g : Gate) (pos : Byte) (w : Word) (f : BitVec 1) (s : State), s.gateOpen g = true → pos.toNat ≤ 31 →
    (∃ r : DWord, exec (.bmor g pos w f) s = .next { s with response := some ⟨.ok, r⟩ } ∧
      ∀ k, r.getLsbD k = (w.getLsbD k || (decide (k = pos.toNat) && f.getLsbD 0))) ∧
    (∃ r : DWord, exec (.bmtst g pos w) s = .next { s with response := some ⟨.ok, r⟩ } ∧
      r.toNat = w.toNat / 2 ^ pos.toNat % 2)

/-- R107: BMPACK sets exactly the positions of the entries whose flag is set, whatever the shape's table is. -/
def Obligations.BmpackSetsThePositionsOfSetFlags : Prop :=
  ∀ (g : Gate) (sh : Fin 8) (flags : Word) (s : State), s.gateOpen g = true →
    ∃ r : DWord, exec (.bmpack g (BitVec.ofNat 8 sh.val) flags) s = .next { s with response := some ⟨.ok, r⟩ } ∧
      ∀ k, r.getLsbD k = true ↔
        ∃ (j : Nat) (e : Config.ShapeEntry), (Config.shape sh)[j]? = some e ∧ e.pos.val = k ∧ flags.getLsbD j = true

/-- R108: BMUNPACK answers, at the index of each entry, the word's bit at the entry's position; bits at or above NS are 0. -/
def Obligations.BmunpackReadsThePositions : Prop :=
  ∀ (g : Gate) (sh : Fin 8) (w : Word) (s : State), s.gateOpen g = true →
    ∃ r : DWord, exec (.bmunpack g (BitVec.ofNat 8 sh.val) w) s = .next { s with response := some ⟨.ok, r⟩ } ∧
      ∀ j, r.getLsbD j = true ↔
        ∃ e : Config.ShapeEntry, (Config.shape sh)[j]? = some e ∧ w.getLsbD e.pos.val = true

/-- R109: the laws of BMPACK and BMUNPACK for every shape. -/
def Obligations.BitmapPackAndUnpackAreInverse : Prop :=
  ∀ sh : Fin 8,
    (∀ f : Word, (unpackShape (Config.shape sh) (packShape (Config.shape sh) f)).toNat =
      f.toNat % 2 ^ Config.shapeSize sh) ∧
    (∀ w : Word, packShape (Config.shape sh) (unpackShape (Config.shape sh) w) =
      w &&& ((Config.shape sh).map fun e => 1#32 <<< e.pos.val).foldr (· ||| ·) 0) ∧
    (∀ f : Word, packShape (Config.shape sh) f =
      (Config.shape sh).zipIdx.foldl (fun w p => orBit w p.1.pos.val (f.getLsbD p.2)) 0)

/-- R112: EVPACK sets the enable and value positions as given; the other 16 bits are 0. -/
def Obligations.EvpackSetsThePairPositions : Prop :=
  ∀ (g : Gate) (e v : Byte) (s : State), s.gateOpen g = true →
    ∃ r : DWord, exec (.evpack g e v) s = .next { s with response := some ⟨.ok, r⟩ } ∧
      ∀ k, r.getLsbD k = true ↔
        ∃ i : Fin 8, ((Config.evPos.ep i).val = k ∧ e.getLsbD i.val = true) ∨
          ((Config.evPos.vp i).val = k ∧ v.getLsbD i.val = true)

/-- R113: EVUNPACK answers the enables in bits 7:0 and the values in bits 15:8, a value being 0 where its enable is 0. -/
def Obligations.EvunpackGatesValuesByEnables : Prop :=
  ∀ (g : Gate) (w : Word) (s : State), s.gateOpen g = true →
    ∃ r : DWord, exec (.evunpack g w) s = .next { s with response := some ⟨.ok, r⟩ } ∧ r.toNat < 2 ^ 16 ∧
      ∀ i : Fin 8, r.getLsbD i.val = w.getLsbD (Config.evPos.ep i).val ∧
        r.getLsbD (8 + i.val) = (w.getLsbD (Config.evPos.ep i).val && w.getLsbD (Config.evPos.vp i).val)

/-- R114: the laws of EVPACK and EVUNPACK: a value whose enable is clear is lost, every other pair comes back. -/
def Obligations.PairPackAndUnpackLaws : Prop :=
  (∀ e v : Byte, unpackEnables Config.evPos (packPairs Config.evPos e v) = e ∧
    unpackValues Config.evPos (packPairs Config.evPos e v) = (v &&& e)) ∧
  (∀ (w : Word) (k : Nat),
    (packPairs Config.evPos (unpackEnables Config.evPos w) (unpackValues Config.evPos w)).getLsbD k = true ↔
      w.getLsbD k = true ∧ ∃ i : Fin 8, (Config.evPos.ep i).val = k ∨
        ((Config.evPos.vp i).val = k ∧ w.getLsbD (Config.evPos.ep i).val = true))

/-! ## Fixed point -/

/-- R82: the rounding function is floor(p + 1/2) for p >= 0 and -floor(-p + 1/2) for p < 0 on exact rationals: the nearest
integer, ties away from zero. -/
def Obligations.RoundingIsHalfAwayFromZero : Prop :=
  ∀ (num : Int) (den : Nat), 0 < den →
    (roundHalfAway num den = if 0 ≤ (num : ℚ) / den then ⌊(num : ℚ) / den + 1 / 2⌋
      else -⌊-((num : ℚ) / den) + 1 / 2⌋) ∧
    (∀ n : ℤ, NearestAway ((num : ℚ) / den) n ↔ roundHalfAway num den = n)

/-- R83, R84, R85, R89, R90, R91: an FXENC whose product is finite in binary64 answers the low W bits of the integer nearest to
v x 2^R (ties away from zero), sign-extended, and changes nothing. -/
def Obligations.FxencRoundsAndTruncates : Prop :=
  ∀ (g : Gate) (radix : Byte) (v : DWord) (s : State) (n : ℤ), s.gateOpen g = true → productFits v radix →
    NearestAway (f64Value v * 2 ^ radix.toNat) n →
    exec (.fxenc16 g radix v) s =
      .next { s with response := some ⟨.ok, (BitVec.ofInt 16 n).signExtend 64⟩ } ∧
    exec (.fxenc32 g radix v) s =
      .next { s with response := some ⟨.ok, (BitVec.ofInt 32 n).signExtend 64⟩ } ∧
    exec (.fxenc64 g radix v) s = .next { s with response := some ⟨.ok, BitVec.ofInt 64 n⟩ }

/-- R86: an FXENC of a NaN or an infinity, or whose product overflows binary64, answers OK with the free value FX_NONFINITE,
sign-extended, whatever that value is, and changes nothing. -/
def Obligations.FxencOfNonfiniteAnswersTheFreeValue : Prop :=
  ∀ (g : Gate) (radix : Byte) (v : DWord) (s : State), s.gateOpen g = true → ¬ productFits v radix →
    exec (.fxenc16 g radix v) s =
      .next { s with response := some ⟨.ok, (Config.fxNonfinite 16 v radix).signExtend 64⟩ } ∧
    exec (.fxenc32 g radix v) s =
      .next { s with response := some ⟨.ok, (Config.fxNonfinite 32 v radix).signExtend 64⟩ } ∧
    exec (.fxenc64 g radix v) s = .next { s with response := some ⟨.ok, Config.fxNonfinite 64 v radix⟩ }

/-- R87, R92, R93: FXDEC16 and FXDEC32 are exact: the answered pattern is finite and its value is the signed raw integer over
2^R; raw 0 is +0.0. -/
def Obligations.FxdecOfNarrowWidthsIsExact : Prop :=
  ∀ (g : Gate) (radix : Byte) (s : State), s.gateOpen g = true →
    (∀ raw : BitVec 16, ∃ r : DWord, exec (.fxdec16 g radix raw) s = .next { s with response := some ⟨.ok, r⟩ } ∧
      f64Finite r = true ∧ f64Value r = (raw.toInt : ℚ) / 2 ^ radix.toNat ∧ (raw = 0 → r = 0)) ∧
    (∀ raw : BitVec 32, ∃ r : DWord, exec (.fxdec32 g radix raw) s = .next { s with response := some ⟨.ok, r⟩ } ∧
      f64Finite r = true ∧ f64Value r = (raw.toInt : ℚ) / 2 ^ radix.toNat ∧ (raw = 0 → r = 0))

/-- R87, R94: FXDEC64 answers the binary64 value nearest to the raw integer, ties to the even significand, divided by 2^R; exact
whenever the integer has a binary64. The rounding to nearest even is the spec's general knowledge (G2, log entry 13). -/
def Obligations.Fxdec64RoundsToNearestEven : Prop :=
  ∀ (g : Gate) (radix : Byte) (raw : BitVec 64) (s : State), s.gateOpen g = true →
    ∃ r : DWord, exec (.fxdec64 g radix raw) s = .next { s with response := some ⟨.ok, r⟩ } ∧
      f64Finite r = true ∧ (raw = 0 → r = 0) ∧
      ∀ v : DWord, f64Finite v = true →
        |f64Value r * 2 ^ radix.toNat - raw.toInt| ≤ |f64Value v - raw.toInt| ∧
        (|f64Value r * 2 ^ radix.toNat - raw.toInt| = |f64Value v - raw.toInt| →
          f64Value v ≠ f64Value r * 2 ^ radix.toNat → r.getLsbD 0 = false)

/-- R95 item 1: the round trip from raw, exact for W = 16 and 32; for W = 64 the result is the raw integer rounded to 53
significant bits, ties to even, which is the spec's general knowledge (G2, log entry 13). -/
def Obligations.EncodeOfDecodeGivesTheRaw : Prop :=
  (∀ (radix : Byte) (raw : BitVec 16), fxEncode 16 (fxDecode 16 raw radix) radix = raw) ∧
  (∀ (radix : Byte) (raw : BitVec 32), fxEncode 32 (fxDecode 32 raw radix) radix = raw) ∧
  (∀ (radix : Byte) (raw : BitVec 64), fxEncode 64 (fxDecode 64 raw radix) radix =
    BitVec.ofInt 64 (raw.toInt.sign * roundEven53 raw.toInt.natAbs))

/-- R95 item 2: the round trip from value: a value that is k / 2^R for an integer k in range comes back, -0.0 as +0.0. -/
def Obligations.DecodeOfEncodeGivesTheValue : Prop :=
  ∀ (w : Nat) (v : DWord) (radix : Byte) (k : ℤ), w = 16 ∨ w = 32 ∨ w = 64 → f64Finite v = true →
    f64Value v = (k : ℚ) / 2 ^ radix.toNat → -2 ^ (w - 1) ≤ k → k < 2 ^ (w - 1) →
    fxDecode w (fxEncode w v radix) radix = if k = 0 then 0 else v

/-- R95 items 3 and 4: 1.0 encodes to 2^R and -1.0 to -2^R, modulo 2^W. -/
def Obligations.EncodeOfOneAtEveryRadix : Prop :=
  ∀ (w : Nat) (radix : Byte), w = 16 ∨ w = 32 ∨ w = 64 →
    (fxEncode w 0x3FF0000000000000 radix).toNat = 2 ^ radix.toNat % 2 ^ w ∧
    ((fxEncode w 0xBFF0000000000000 radix).toNat : ℤ) = -2 ^ radix.toNat % 2 ^ w

/-- R95 items 5 and 7: a large finite product encodes to 0, and encoding is symmetric in the sign. -/
def Obligations.EncodeOfLargeAndNegatedValues : Prop :=
  ∀ (w : Nat) (v : DWord) (radix : Byte), w = 16 ∨ w = 32 ∨ w = 64 → productFits v radix →
    (2 ^ (52 + w) ≤ |f64Value v * 2 ^ radix.toNat| → fxEncode w v radix = 0) ∧
    fxEncode w (v ^^^ 0x8000000000000000) radix = -fxEncode w v radix

/-! ## Bit fields and the (value - 1) codec -/

/-- R121, R122, R123: BFINS ORs the low `width` bits of its value into the word at `off`, and BFEXT answers the field,
zero-extended; both change nothing. -/
def Obligations.BitFieldCommandsComplete : Prop :=
  ∀ (g : Gate) (off width : Byte) (w v : Word) (s : State), s.gateOpen g = true → 1 ≤ width.toNat → off.toNat ≤ 31 →
    off.toNat + width.toNat ≤ 32 →
    (∃ r : DWord, exec (.bfins g off width w v) s = .next { s with response := some ⟨.ok, r⟩ } ∧
      ∀ k, r.getLsbD k = (w.getLsbD k ||
        (decide (off.toNat ≤ k ∧ k < off.toNat + width.toNat) && v.getLsbD (k - off.toNat)))) ∧
    (∃ r : DWord, exec (.bfext g off width w) s = .next { s with response := some ⟨.ok, r⟩ } ∧
      r.toNat = w.toNat / 2 ^ off.toNat % 2 ^ width.toNat)

/-- R124: the four laws of insert and extract. -/
def Obligations.InsertAndExtractLaws : Prop :=
  (∀ (f : Nat × Nat) (w v : Word), fieldOk f →
    extractField f.1 f.2 (insertField f.1 f.2 w v) = (extractField f.1 f.2 w ||| (v &&& mask f.2))) ∧
  (∀ (f h : Nat × Nat) (w u v : Word), fieldOk f → fieldOk h → f.1 + f.2 ≤ h.1 ∨ h.1 + h.2 ≤ f.1 →
    insertField f.1 f.2 (insertField h.1 h.2 w u) v = insertField h.1 h.2 (insertField f.1 f.2 w v) u ∧
    extractField f.1 f.2 (insertField h.1 h.2 w u) = extractField f.1 f.2 w) ∧
  (∀ (fs : List (Nat × Nat)) (w0 : Word), (∀ f ∈ fs, fieldOk f) →
    fs.Pairwise (fun f h => f.1 + f.2 ≤ h.1 ∨ h.1 + h.2 ≤ f.1) →
    fs.foldl (fun w f => insertField f.1 f.2 w (extractField f.1 f.2 w0)) 0 =
      w0 &&& fs.foldl (fun m f => m ||| fieldMask f) 0) ∧
  (∀ (f : Nat × Nat) (w : Word), fieldOk f → insertField f.1 f.2 w 0 = w)

/-- R126, R127, as they are written out: M1ENC and M1DEC for both widths and every operand; both change nothing. -/
def Obligations.ValueMinusOneCommandsComplete : Prop :=
  ∀ (g : Gate) (s : State), s.gateOpen g = true →
    (∀ v : Word, ∃ r : DWord, exec (.m1enc g 16 v) s = .next { s with response := some ⟨.ok, r⟩ } ∧
      r.toNat = if v.toNat = 0 then 0xFFFF else if v.toNat ≤ 0xFFFE then v.toNat - 1 else 0xFFFF) ∧
    (∀ v : Word, ∃ r : DWord, exec (.m1enc g 6 v) s = .next { s with response := some ⟨.ok, r⟩ } ∧
      r.toNat = if v.toNat = 0 then 63 else if v.toNat ≤ 63 then v.toNat - 1 else 63) ∧
    (∀ x : BitVec 16, ∃ r : DWord, exec (.m1dec g 16 x) s = .next { s with response := some ⟨.ok, r⟩ } ∧
      r.toNat = if x.toNat ≤ 0xFFFE then x.toNat + 1 else 0xFFFF) ∧
    (∀ x : BitVec 16, ∃ r : DWord, exec (.m1dec g 6 x) s = .next { s with response := some ⟨.ok, r⟩ } ∧
      r.toNat = x.toNat % 64 + 1)

/-- R128: the laws of the (value - 1) pair. -/
def Obligations.ValueMinusOneLaws : Prop :=
  (∀ v : Nat, m1Decode 16 (m1Encode 16 v) = if 1 ≤ v ∧ v ≤ 0xFFFF then v else 0xFFFF) ∧
  (∀ x : Nat, x ≤ 0xFFFF → m1Encode 16 (m1Decode 16 x) = if x = 0xFFFE then 0xFFFF else x) ∧
  (∀ v : Nat, m1Decode 6 (m1Encode 6 v) = if 1 ≤ v ∧ v ≤ 64 then v else 64) ∧
  (∀ x : Nat, x ≤ 63 → m1Encode 6 (m1Decode 6 x) = x)

/-! ## Pseudo-instructions -/

/-- R157, R158: PACK.GAIN stores stage2 in the first halfword and stage1 in the second, and UNPACK.GAIN gives back what the
encodings decode to. -/
def Obligations.GainIsPackedAndUnpacked : Prop :=
  ∀ (s : State) (x y : DWord), s.cur.toNat + 4 ≤ s.len.toNat →
    ∃ t u, packGain .always x y s = some ⟨.ok, some (), t⟩ ∧ t.cur.toNat = s.cur.toNat + 4 ∧
      t.loadBE s.cur.toNat 2 = (fxEncode 16 y 7).toNat ∧ t.loadBE (s.cur.toNat + 2) 2 = (fxEncode 16 x 7).toNat ∧
      unpackGain .always { t with cur := s.cur } =
        some ⟨.ok, some (fxDecode 16 (fxEncode 16 x 7) 7, fxDecode 16 (fxEncode 16 y 7) 7), u⟩

/-- R159: PACK.DEVID stores the OUI and the device code as two words; UNPACK.DEVID gives back their low 24 and 16 bits. The 16 is the
spec's general knowledge (D39, log entry 8). -/
def Obligations.DeviceIdentifierIsPackedAndUnpacked : Prop :=
  ∀ (s : State) (oui code : Word), s.cur.toNat + 8 ≤ s.len.toNat →
    ∃ t u, packDevid .always oui code s = some ⟨.ok, some (), t⟩ ∧ t.cur.toNat = s.cur.toNat + 8 ∧
      t.loadBE s.cur.toNat 8 = oui.toNat % 2 ^ 24 * 2 ^ 32 + code.toNat % 2 ^ 16 ∧
      unpackDevid .always { t with cur := s.cur } =
        some ⟨.ok, some (oui &&& 0x00FFFFFF, code &&& 0x0000FFFF), u⟩

/-- R173: STLIST stores a list entry by entry, and LDLIST from the same place gives the list back, whatever its length; the empty list
needs no room. -/
def Obligations.StoredListIsLoadedBack : Prop :=
  ∀ (es : List Word) (s : State), es = [] ∨ s.cur.toNat + 4 * es.length ≤ s.len.toNat →
    ∃ t u, (∀ k : State → Option (Finish (List Word)), stlist .always es s k = k t) ∧
      t.cur.toNat = s.cur.toNat + 4 * es.length ∧
      (∀ a, ¬ covers s.cur.toNat (4 * es.length) a → t.byteAt a = s.byteAt a) ∧
      ∀ k : List Word → State → Option (Finish (List Word)),
        ldlist .always es.length { t with cur := s.cur } k = k es u

/-- R161, R163: the source's ContextAssociationLists example: the twelve bytes, whatever the OPEN positions are. -/
def Obligations.CalExampleBytes : Prop :=
  ∀ s : State, s.cur.toNat + 12 ≤ s.len.toNat →
    ∃ t, packCal .always ⟨[0xFFFFFFFF], [], [], [], none⟩ s = some ⟨.ok, some (), t⟩ ∧
      t.cur.toNat = s.cur.toNat + 12 ∧ t.loadBE s.cur.toNat 4 = 0x00010000 ∧ t.loadBE (s.cur.toNat + 4) 4 = 0 ∧
      t.loadBE (s.cur.toNat + 8) 4 = 0xFFFFFFFF

/-- R160 to R163, R176: UNPACK.CAL after PACK.CAL gives the lists back, for every header layout R161 allows. -/
def Obligations.CalIsPackedAndUnpacked : Prop :=
  ∀ (x : CalLists) (s : State), x.wf = true →
    s.cur.toNat + (8 + 4 * calCount x.source.length x.system.length x.vector.length x.async.length
      x.asyncTag.isSome) ≤ s.len.toNat →
    ∃ t u, packCal .always x s = some ⟨.ok, some (), t⟩ ∧
      unpackCal .always s.cur { t with cur := s.cur } = some ⟨.ok, some x, u⟩

/-- R175: OVERLAY ORs its pattern into the word in BUF and touches no other byte. -/
def Obligations.OverlayOrsIntoTheWord : Prop :=
  ∀ (s : State) (addr bits : Word), addr.toNat + 4 ≤ s.len.toNat →
    ∃ t, overlay .always addr bits s = some ⟨.ok, some (), t⟩ ∧
      t.loadBE addr.toNat 4 = s.loadBE addr.toNat 4 ||| bits.toNat ∧ t.cur = s.cur ∧
      (∀ a, ¬ covers addr.toNat 4 a → t.byteAt a = s.byteAt a)

/-- R165: SectorStepScan: where the structure fits, packing it and unpacking it at the same place gives it back, for every header size;
the cursor moves by base + 80 x NumRecords. What surrounds the sub-bitmap in the header is the host's (log entry 20). -/
def Obligations.SectorStepScanIsPackedAndUnpacked : Prop :=
  ∀ (base : Word) (x : SectorStepScan) (count : List Byte → Word → List Byte → Word) (s : State), x.wf base = true →
    s.cur.toNat + (base.toNat + 80 * x.records.length) ≤ s.len.toNat →
    count x.before (packShape (Config.shape 7) x.flags) x.after = BitVec.ofNat 32 x.records.length →
    ∃ t u, packSss base .always x s = some ⟨.ok, some (), t⟩ ∧
      t.cur.toNat = s.cur.toNat + (base.toNat + 80 * x.records.length) ∧
      unpackSss base .always s.cur x.before.length x.after.length count { t with cur := s.cur } =
        some ⟨.ok, some x, u⟩

/-- R166, R174: a GpsAscii payload region is exactly 4 Nw bytes: the payload cut there, or padded with zero bytes. The empty region, Nw =
0, changes nothing and needs no room; that it ends OK is the model's choice (log entry 19). -/
def Obligations.GpsPayloadIsCutOrPadded : Prop :=
  ∀ (s : State) (p : List Byte) (nw : Nat), nw = 0 ∨ s.cur.toNat + 4 * nw ≤ s.len.toNat →
    ∃ t, packGpsPayload .always p nw s = some ⟨.ok, some (), t⟩ ∧ t.cur.toNat = s.cur.toNat + 4 * nw ∧
      (nw = 0 → t = s) ∧ (∀ j, j < 4 * nw → t.byteAt (s.cur.toNat + j) = (p[j]?).getD 0) ∧
      (∀ a, ¬ covers s.cur.toNat (4 * nw) a → t.byteAt a = s.byteAt a)
end

