-- ==== Sys2Proof/Laws/Config.lean ====
section
/-! SUPPORT. What is known of the OPEN parameters: exactly the constraints of spec/00_scope.md R7. -/

namespace Sys2Proof.Config

theorem bufCap_pos : 1 ≤ bufCap := capacity.pos

theorem bufCap_lt : bufCap < 2 ^ 32 := capacity.lt

theorem shape_short (s : Fin 8) : (shape s).length ≤ 32 := (shapes.table s).short

theorem shape_distinct (s : Fin 8) : ((shape s).map ShapeEntry.pos).Nodup := (shapes.table s).distinct

theorem shape_sss_has_twelve : shapeSize 7 = 12 := shapes.sssHasTwelve

theorem shape_cif0_has_enable_flags : ∀ n ∈ enableFlagNames, n ∈ (shape 0).map ShapeEntry.name := shapes.cif0HasEnables

theorem evPos_distinct : ((List.finRange 8).map evPos.ep ++ (List.finRange 8).map evPos.vp).Nodup := evPos.distinct

end Sys2Proof.Config
end

