-- ==== Sys2Proof/Laws/Decode.lean ====
section
/-! SUPPORT. The fields of a word assembled from fields (spec/30_encoding.md R60, R61). -/

namespace Sys2Proof

theorem extract_low {v w t : Nat} (hi : BitVec v) (lo : BitVec w) (ht : v + w = t) :
    BitVec.extractLsb' 0 w ((hi ++ lo).cast ht) = lo := by
  subst ht
  ext i h
  simp [BitVec.getLsbD_append, h]

theorem extract_high {v w t : Nat} (hi : BitVec v) (lo : BitVec w) (ht : v + w = t) (s l : Nat) :
    BitVec.extractLsb' (s + w) l ((hi ++ lo).cast ht) = BitVec.extractLsb' s l hi := by
  subst ht
  ext i h
  simp only [BitVec.cast_eq, BitVec.getElem_extractLsb', BitVec.getLsbD_append]
  rw [if_neg (by omega)]
  congr 1
  omega

/-- Assembling a word from fields and taking its fields gives the fields back. -/
@[simp] theorem Fields.ofWord_toWord (f : Fields) : Fields.ofWord f.toWord = f := by
  rcases f with ⟨op, a, b, ge, cm, g5, gp, aux, data⟩
  have h1 := fun s l => extract_high (t := 128) (op ++ a ++ b ++ ge ++ cm ++ g5 ++ gp ++ aux) data rfl s l
  have h2 := fun s l => extract_high (t := 64) (op ++ a ++ b ++ ge ++ cm ++ g5 ++ gp) aux rfl s l
  have h3 := fun s l => extract_high (t := 32) (op ++ a ++ b ++ ge ++ cm ++ g5) gp rfl s l
  have h4 := fun s l => extract_high (t := 27) (op ++ a ++ b ++ ge ++ cm) g5 rfl s l
  have h5 := fun s l => extract_high (t := 26) (op ++ a ++ b ++ ge) cm rfl s l
  have h6 := fun s l => extract_high (t := 25) (op ++ a ++ b) ge rfl s l
  have h7 := fun s l => extract_high (t := 24) (op ++ a) b rfl s l
  have h8 := fun s l => extract_high (t := 16) op a rfl s l
  simp only [BitVec.cast_eq] at h1 h2 h3 h4 h5 h6 h7 h8
  simp only [Fields.ofWord, Fields.toWord, Fields.mk.injEq]
  refine ⟨?_, ?_, ?_, ?_, ?_, ?_, ?_, ?_, ?_⟩
  · exact (h1 56 8).trans ((h2 24 8).trans ((h3 19 8).trans ((h4 18 8).trans ((h5 17 8).trans ((h6 16 8).trans
      ((h7 8 8).trans ((h8 0 8).trans (by simp))))))))
  · exact (h1 48 8).trans ((h2 16 8).trans ((h3 11 8).trans ((h4 10 8).trans ((h5 9 8).trans ((h6 8 8).trans
      ((h7 0 8).trans (extract_low (t := 16) op a rfl)))))))
  · exact (h1 40 8).trans ((h2 8 8).trans ((h3 3 8).trans ((h4 2 8).trans ((h5 1 8).trans ((h6 0 8).trans
      (extract_low (t := 24) (op ++ a) b rfl))))))
  · exact (h1 39 1).trans ((h2 7 1).trans ((h3 2 1).trans ((h4 1 1).trans ((h5 0 1).trans
      (extract_low (t := 25) (op ++ a ++ b) ge rfl)))))
  · exact (h1 38 1).trans ((h2 6 1).trans ((h3 1 1).trans ((h4 0 1).trans
      (extract_low (t := 26) (op ++ a ++ b ++ ge) cm rfl))))
  · exact (h1 37 1).trans ((h2 5 1).trans ((h3 0 1).trans (extract_low (t := 27) (op ++ a ++ b ++ ge ++ cm) g5 rfl)))
  · exact (h1 32 5).trans ((h2 0 5).trans (extract_low (t := 32) (op ++ a ++ b ++ ge ++ cm ++ g5) gp rfl))
  · exact (h1 0 32).trans (extract_low (t := 64) (op ++ a ++ b ++ ge ++ cm ++ g5 ++ gp) aux rfl)
  · exact extract_low (t := 128) (op ++ a ++ b ++ ge ++ cm ++ g5 ++ gp ++ aux) data rfl

@[simp] theorem ofWord_encode (i : Instr) : Fields.ofWord (encode i) = encodeFields i := Fields.ofWord_toWord _

/-- The gate that was encoded is the gate that is read, whatever else the command carries. -/
theorem gate_of_bits (g : Gate) (f : Fields) (h1 : f.ge = g.geBits) (h2 : f.gp = g.gpBits) : f.gate = g := by
  cases g <;> simp [Fields.gate, Gate.geBits, Gate.gpBits] at * <;> simp [h1, h2]

/-- The address operand that was encoded is the one that is read. -/
theorem addr_of_bits (x : AddrOperand) (f : Fields) (h1 : f.cm = x.cmBits) (h2 : f.aux = x.auxBits) : f.addr = x := by
  cases x <;> simp [Fields.addr, AddrOperand.cmBits, AddrOperand.auxBits] at * <;> simp [h1, h2]

/-- What the decoder answers, said once: an unassigned `op`, an operand out of range, or a well-formed command. -/
theorem decode_cases (w : CommandWord) :
    (readFields (Fields.ofWord w) = none ∧ decode w = .illegal (.unassignedOp (Fields.ofWord w).op)) ∨
    (∃ i, readFields (Fields.ofWord w) = some i ∧ i.wf = false ∧ decode w = .illegal (.operandOutOfRange i)) ∨
    (∃ i, readFields (Fields.ofWord w) = some i ∧ i.wf = true ∧ decode w = .command i) := by
  unfold decode
  cases readFields (Fields.ofWord w) with
  | none => simp
  | some i => cases h : i.wf <;> simp [h]

end Sys2Proof
end

