-- ==== Sys2Proof/Laws/State.lean ====
section
/-! SUPPORT. One lemma per field of State for each named update: no later proof unfolds a record update. -/

namespace Sys2Proof.Machine

/-! ## respond -/

@[simp] theorem State.respond_iw (s : State) (r : DWord) : (s.respond r).iw = s.iw := rfl
@[simp] theorem State.respond_cur (s : State) (r : DWord) : (s.respond r).cur = s.cur := rfl
@[simp] theorem State.respond_len (s : State) (r : DWord) : (s.respond r).len = s.len := rfl
@[simp] theorem State.respond_buf (s : State) (r : DWord) : (s.respond r).buf = s.buf := rfl
@[simp] theorem State.respond_epoch (s : State) (r : DWord) : (s.respond r).epoch = s.epoch := rfl
@[simp] theorem State.respond_host (s : State) (r : DWord) : (s.respond r).host = s.host := rfl
@[simp] theorem State.respond_response (s : State) (r : DWord) : (s.respond r).response = some ⟨.ok, r⟩ := rfl
@[simp] theorem State.respond_hostByte (s : State) (r : DWord) : (s.respond r).hostByte = s.hostByte := rfl
@[simp] theorem State.respond_byteAt (s : State) (r : DWord) (a : Nat) : (s.respond r).byteAt a = s.byteAt a := rfl

/-! ## raise -/

@[simp] theorem State.raise_iw (s : State) (x : Status) : (s.raise x).iw = s.iw := rfl
@[simp] theorem State.raise_cur (s : State) (x : Status) : (s.raise x).cur = s.cur := rfl
@[simp] theorem State.raise_len (s : State) (x : Status) : (s.raise x).len = s.len := rfl
@[simp] theorem State.raise_buf (s : State) (x : Status) : (s.raise x).buf = s.buf := rfl
@[simp] theorem State.raise_epoch (s : State) (x : Status) : (s.raise x).epoch = s.epoch := rfl
@[simp] theorem State.raise_host (s : State) (x : Status) : (s.raise x).host = s.host := rfl
@[simp] theorem State.raise_response (s : State) (x : Status) : (s.raise x).response = some ⟨x, 0⟩ := rfl
@[simp] theorem State.raise_hostByte (s : State) (x : Status) : (s.raise x).hostByte = s.hostByte := rfl
@[simp] theorem State.raise_byteAt (s : State) (x : Status) (a : Nat) : (s.raise x).byteAt a = s.byteAt a := rfl

/-! ## advance -/

@[simp] theorem State.advance_absolute (s : State) (a : Word) (n : Nat) : s.advance (.absolute a) n = s := rfl
@[simp] theorem State.advance_cursor (s : State) (n : Nat) :
    s.advance .cursor n = { s with cur := BitVec.ofNat 32 (s.cur.toNat + n) } := rfl
@[simp] theorem State.advance_iw (s : State) (x : AddrOperand) (n : Nat) : (s.advance x n).iw = s.iw := by cases x <;> rfl
@[simp] theorem State.advance_len (s : State) (x : AddrOperand) (n : Nat) : (s.advance x n).len = s.len := by cases x <;> rfl
@[simp] theorem State.advance_buf (s : State) (x : AddrOperand) (n : Nat) : (s.advance x n).buf = s.buf := by cases x <;> rfl
@[simp] theorem State.advance_epoch (s : State) (x : AddrOperand) (n : Nat) : (s.advance x n).epoch = s.epoch := by
  cases x <;> rfl
@[simp] theorem State.advance_host (s : State) (x : AddrOperand) (n : Nat) : (s.advance x n).host = s.host := by
  cases x <;> rfl
@[simp] theorem State.advance_response (s : State) (x : AddrOperand) (n : Nat) : (s.advance x n).response = s.response := by
  cases x <;> rfl
@[simp] theorem State.advance_hostByte (s : State) (x : AddrOperand) (n : Nat) : (s.advance x n).hostByte = s.hostByte := by
  cases x <;> rfl
@[simp] theorem State.advance_byteAt (s : State) (x : AddrOperand) (n a : Nat) : (s.advance x n).byteAt a = s.byteAt a := by
  cases x <;> rfl

/-! ## issue -/

@[simp] theorem State.issue_iw (s : State) (w : CommandWord) : (s.issue w).iw = s.iw := rfl
@[simp] theorem State.issue_cur (s : State) (w : CommandWord) : (s.issue w).cur = s.cur := rfl
@[simp] theorem State.issue_len (s : State) (w : CommandWord) : (s.issue w).len = s.len := rfl
@[simp] theorem State.issue_buf (s : State) (w : CommandWord) : (s.issue w).buf = s.buf := rfl
@[simp] theorem State.issue_epoch (s : State) (w : CommandWord) : (s.issue w).epoch = s.epoch := rfl
@[simp] theorem State.issue_host (s : State) (w : CommandWord) : (s.issue w).host = .command w :: s.host := rfl
@[simp] theorem State.issue_response (s : State) (w : CommandWord) : (s.issue w).response = s.response := rfl
@[simp] theorem State.issue_hostByte (s : State) (w : CommandWord) : (s.issue w).hostByte = s.hostByte := rfl

/-! ## the reset event -/

@[simp] theorem State.afterReset_iw (s : State) : s.afterReset.iw = 0 := rfl
@[simp] theorem State.afterReset_cur (s : State) : s.afterReset.cur = 0 := rfl
@[simp] theorem State.afterReset_len (s : State) : s.afterReset.len = 0 := rfl
@[simp] theorem State.afterReset_buf (s : State) : s.afterReset.buf = [] := rfl
@[simp] theorem State.afterReset_epoch (s : State) : s.afterReset.epoch = s.epoch + 1 := rfl
@[simp] theorem State.afterReset_host (s : State) : s.afterReset.host = s.host := rfl
@[simp] theorem State.afterReset_response (s : State) : s.afterReset.response = none := rfl
@[simp] theorem State.afterReset_hostByte (s : State) : s.afterReset.hostByte = none := rfl

end Sys2Proof.Machine
end

