-- ==== Sys2Proof/Laws/Memory.lean ====
section
/-! SUPPORT. The buffer memory: what one write does to every read, and that every memory operation keeps the canonical
form (spec/20_memory.md R41 to R46). -/

namespace Sys2Proof.Machine

/-- A read after a write: the written byte at its address, and what was there before at every other. -/
theorem Memory.cell?_put (m : Memory) (a : Nat) (b : Byte) (x : Nat) :
    (Memory.put m a b).cell? x = if x = a then some b else Memory.cell? m x := by
  induction m with
  | nil => simp [Memory.put, Memory.cell?]
  | cons c rest ih =>
    obtain ⟨k, v⟩ := c
    simp only [Memory.put]
    split
    · simp [Memory.cell?]
    · split
      · subst a
        simp only [Memory.cell?]
        split <;> simp_all
      · simp only [Memory.cell?, ih]
        by_cases hxk : x = k <;> by_cases hxa : x = a <;> simp_all

/-- A write lists its own address and no new other. -/
theorem Memory.mem_put {m : Memory} {a : Nat} {b : Byte} {c : Host.Cell} (h : c ∈ Memory.put m a b) :
    c = (a, b) ∨ c ∈ m := by
  induction m with
  | nil => simpa [Memory.put] using h
  | cons d rest ih =>
    obtain ⟨k, v⟩ := d
    simp only [Memory.put] at h
    split at h
    · simpa using h
    · split at h
      · rcases List.mem_cons.1 h with h | h
        · exact .inl h
        · exact .inr (List.mem_cons_of_mem _ h)
      · rcases List.mem_cons.1 h with h | h
        · exact .inr (h ▸ List.mem_cons_self)
        · exact (ih h).imp id (List.mem_cons_of_mem _)

/-- The canonical form, as an order on the listed addresses. -/
theorem Memory.wf_iff (m : Memory) : Memory.wf m = true ↔ (m.map Prod.fst).Pairwise (· < ·) := by
  induction m with
  | nil => simp [Memory.wf]
  | cons c rest ih =>
    cases rest with
    | nil => simp [Memory.wf]
    | cons d rest =>
      simp only [Memory.wf, Bool.and_eq_true, decide_eq_true_eq, ih]
      simp only [List.map_cons, List.pairwise_cons, List.mem_cons, List.mem_map, forall_eq_or_imp]
      constructor
      · rintro ⟨h, h1, h2⟩
        exact ⟨⟨h, fun a ha => h.trans (h1 a ha)⟩, h1, h2⟩
      · rintro ⟨⟨h, -⟩, h1, h2⟩
        exact ⟨h, h1, h2⟩

/-- Writing one byte keeps the canonical form. -/
theorem Memory.wf_put {m : Memory} (a : Nat) (b : Byte) (h : Memory.wf m = true) : Memory.wf (Memory.put m a b) = true := by
  rw [Memory.wf_iff] at h ⊢
  induction m with
  | nil => simp [Memory.put]
  | cons c rest ih =>
    obtain ⟨k, v⟩ := c
    simp only [List.map_cons, List.pairwise_cons, List.mem_map] at h
    simp only [Memory.put]
    split
    · rename_i hak
      simp only [List.map_cons, List.pairwise_cons, List.mem_cons, List.mem_map, forall_eq_or_imp]
      exact ⟨⟨hak, fun x hx => hak.trans (h.1 x hx)⟩, h.1, h.2⟩
    · split
      · subst a
        simpa only [List.map_cons, List.pairwise_cons, List.mem_map] using h
      · rename_i h1 h2
        simp only [List.map_cons, List.pairwise_cons, List.mem_map]
        refine ⟨?_, ih h.2⟩
        rintro x ⟨c, hc, rfl⟩
        rcases Memory.mem_put hc with rfl | hc
        · simp only; omega
        · exact h.1 _ ⟨c, hc, rfl⟩

/-- Storing bytes keeps the canonical form. -/
theorem Memory.wf_storeBE {m : Memory} (a v n : Nat) (h : Memory.wf m = true) :
    Memory.wf (Memory.storeBE m a v n) = true := by
  induction n generalizing m a with
  | zero => exact h
  | succ n ih => exact ih (a + 1) (Memory.wf_put _ _ h)

/-- A store of `n` bytes lists no new address outside its range. -/
theorem Memory.mem_storeBE {m : Memory} {a v n : Nat} {c : Host.Cell} (h : c ∈ Memory.storeBE m a v n) :
    (a ≤ c.1 ∧ c.1 < a + n) ∨ c ∈ m := by
  induction n generalizing m a with
  | zero => exact .inr h
  | succ n ih =>
    rcases ih h with h | h
    · left; omega
    · rcases Memory.mem_put h with rfl | h
      · left; simp
      · exact .inr h

/-- What is in each cell after a store of `n` bytes (R41, R43): the k-th byte of the range holds the k-th most significant
byte of the value, every other address holds what it held. -/
theorem Memory.cell?_storeBE (m : Memory) (a v n x : Nat) :
    (Memory.storeBE m a v n).cell? x =
      if a ≤ x ∧ x < a + n then some (BitVec.ofNat 8 (v / 2 ^ (8 * (n - 1 - (x - a))))) else Memory.cell? m x := by
  induction n generalizing m a with
  | zero => simp only [Memory.storeBE]; rw [if_neg (by omega)]
  | succ n ih =>
    simp only [Memory.storeBE, ih, Memory.cell?_put]
    by_cases h1 : a + 1 ≤ x ∧ x < a + 1 + n
    · rw [if_pos h1, if_pos (by omega)]
      congr 5
      omega
    · rw [if_neg h1]
      by_cases h2 : x = a
      · subst h2
        rw [if_pos rfl, if_pos (by omega)]
        simp
      · rw [if_neg h2, if_neg (by omega)]

/-- Reset's memory has the canonical form. -/
theorem reset_buf_wf : Memory.wf State.reset.buf = true := rfl

/-- A byte of a state reads from its memory and its epoch alone. -/
theorem State.byteAt_congr {s t : State} (h1 : s.buf = t.buf) (h2 : s.epoch = t.epoch) (a : Nat) :
    s.byteAt a = t.byteAt a := by
  simp [State.byteAt, h1, h2]

/-- What every byte reads as after a store of `n` bytes into the buffer. -/
theorem State.byteAt_storeBE (s : State) (a v n x : Nat) :
    ({ s with buf := s.buf.storeBE a v n } : State).byteAt x =
      if a ≤ x ∧ x < a + n then BitVec.ofNat 8 (v / 2 ^ (8 * (n - 1 - (x - a)))) else s.byteAt x := by
  simp only [State.byteAt, Memory.cell?_storeBE]
  split <;> rfl

end Sys2Proof.Machine
end

