-- ==== Sys2Proof/Laws/Ops.lean ====
section
/-! SUPPORT. For each shared operation one lemma that says once everything it can do. -/

namespace Sys2Proof.Machine

/-! ## perform (R77) -/

/-- Everything the execution skeleton can do. -/
theorem perform_cases {legal : Bool} {g : Gate} {rule : Effect} {s t : State} (h : perform legal g rule s = .next t) :
    (legal = false ∧ t = s.raise .illegalCommand) ∨
    (legal = true ∧ s.gateOpen g = false ∧ t = s.raise .skipped) ∨
    (legal = true ∧ s.gateOpen g = true ∧ ∃ e, rule s = .error e ∧ t = s.raise e.status) ∨
    (legal = true ∧ s.gateOpen g = true ∧ ∃ u r, rule s = .ok (u, r) ∧ t = u.respond r) := by
  unfold perform at h
  cases legal with
  | false => simp_all
  | true =>
    cases hg : s.gateOpen g with
    | false => simp_all
    | true =>
      cases hr : rule s with
      | error e => simp_all
      | ok p => obtain ⟨u, r⟩ := p; simp_all

/-- The skeleton always answers (R62, R222). -/
theorem perform_answers (legal : Bool) (g : Gate) (rule : Effect) (s : State) : ∃ t, perform legal g rule s = .next t := by
  unfold perform
  split
  · split
    · split <;> exact ⟨_, rfl⟩
    · exact ⟨_, rfl⟩
  · exact ⟨_, rfl⟩

theorem perform_illegal (g : Gate) (rule : Effect) (s : State) :
    perform false g rule s = .next (s.raise .illegalCommand) := rfl

theorem perform_skipped {g : Gate} (rule : Effect) {s : State} (hg : s.gateOpen g = false) :
    perform true g rule s = .next (s.raise .skipped) := by
  simp [perform, hg]

theorem perform_ok {g : Gate} {rule : Effect} {s u : State} {r : DWord} (hg : s.gateOpen g = true)
    (hr : rule s = .ok (u, r)) : perform true g rule s = .next (u.respond r) := by
  simp [perform, hg, hr]

theorem perform_error {g : Gate} {rule : Effect} {s : State} {e : CommandError} (hg : s.gateOpen g = true)
    (hr : rule s = .error e) : perform true g rule s = .next (s.raise e.status) := by
  simp [perform, hg, hr]

/-- A pure command with its gate open answers its result and changes nothing else. -/
theorem perform_answer {g : Gate} {f : State → DWord} {s : State} (hg : s.gateOpen g = true) :
    perform true g (answer f) s = .next (s.respond (f s)) :=
  perform_ok hg rfl

/-! ## Checked accesses (R42, R43) -/

theorem inside_iff (s : State) (ea n : Nat) : s.inside ea n = true ↔ ea + n ≤ s.len.toNat := by simp [State.inside]

theorem memRead_cases {ea n : Nat} {s : State} {r : Except CommandError Nat} (h : memRead ea n s = r) :
    (ea + n ≤ s.len.toNat ∧ r = .ok (s.loadBE ea n)) ∨ (s.len.toNat < ea + n ∧ r = .error .bufferTooShort) := by
  subst h
  unfold memRead
  by_cases hi : ea + n ≤ s.len.toNat
  · left; simp [State.inside, hi]
  · right; simp [State.inside, hi]; omega

theorem memWrite_cases {ea n v : Nat} {s : State} {r : Except CommandError State} (h : memWrite ea n v s = r) :
    (ea + n ≤ s.len.toNat ∧ r = .ok { s with buf := s.buf.storeBE ea v n }) ∨
    (s.len.toNat < ea + n ∧ r = .error .bufferTooShort) := by
  subst h
  unfold memWrite
  by_cases hi : ea + n ≤ s.len.toNat
  · left; simp [State.inside, hi]
  · right; simp [State.inside, hi]; omega

/-! ## The rules of the commands that touch the buffer (R140, R141, R144, R145) -/

theorem storeRule_cases (n : Nat) (addr : AddrOperand) (value : DWord) (s : State) :
    (s.ea addr + n ≤ s.len.toNat ∧ storeRule n addr value s =
      .ok (({ s with buf := s.buf.storeBE (s.ea addr) (lowBytes n value) n } : State).advance addr n, 0)) ∨
    (s.len.toNat < s.ea addr + n ∧ storeRule n addr value s = .error .bufferTooShort) := by
  unfold storeRule
  rcases memWrite_cases (rfl : memWrite (s.ea addr) n (lowBytes n value) s = _) with ⟨h, e⟩ | ⟨h, e⟩ <;> simp [h, e]

theorem loadRule_cases (n : Nat) (addr : AddrOperand) (s : State) :
    (s.ea addr + n ≤ s.len.toNat ∧
      loadRule n addr s = .ok (s.advance addr n, BitVec.ofNat 64 (s.loadBE (s.ea addr) n))) ∨
    (s.len.toNat < s.ea addr + n ∧ loadRule n addr s = .error .bufferTooShort) := by
  unfold loadRule
  rcases memRead_cases (rfl : memRead (s.ea addr) n s = _) with ⟨h, e⟩ | ⟨h, e⟩ <;> simp [h, e]

theorem checkRule_cases (e : CommandError) (addr : AddrOperand) (size : DWord) (s : State) :
    (s.ea addr + size.toNat ≤ s.len.toNat ∧ checkRule e addr size s = .ok (s, 0)) ∨
    (s.len.toNat < s.ea addr + size.toNat ∧ checkRule e addr size s = .error e) := by
  unfold checkRule
  by_cases h : s.ea addr + size.toNat ≤ s.len.toNat
  · left; simp [State.inside, h]
  · right; simp [State.inside, h]; omega

/-! ## What serves a host action -/

theorem runWord_command {w : CommandWord} {i : Instr} (h : decode w = .command i) (s : State) :
    runWord w s = exec i s := by
  simp [runWord, h]

theorem runWord_illegal {w : CommandWord} {why : Illegal} (h : decode w = .illegal why) (s : State) :
    runWord w s = .next (s.raise .illegalCommand) := by
  simp [runWord, h]

theorem hostWrite_cases (addr : Word) (b : Byte) (s : State) :
    (addr.toNat < Config.bufCap ∧ hostWrite addr b s = .next { s with buf := s.buf.put addr.toNat b }) ∨
    (Config.bufCap ≤ addr.toNat ∧ hostWrite addr b s = .fault (.hostOutsideBuffer addr)) := by
  unfold hostWrite
  split
  · exact .inl ⟨‹_›, rfl⟩
  · exact .inr ⟨by omega, rfl⟩

theorem hostRead_cases (addr : Word) (s : State) :
    (addr.toNat < Config.bufCap ∧ hostRead addr s = .next { s with hostByte := some (s.byteAt addr.toNat) }) ∨
    (Config.bufCap ≤ addr.toNat ∧ hostRead addr s = .fault (.hostOutsideBuffer addr)) := by
  unfold hostRead
  split
  · exact .inl ⟨‹_›, rfl⟩
  · exact .inr ⟨by omega, rfl⟩

end Sys2Proof.Machine
end

