-- ==== Sys2Proof/Laws/PerInstr.lean ====
section
/-! SUPPORT. Facts about commands as terms, one lemma per constructor of Instr. -/

namespace Sys2Proof.Laws.GateEncoded

/-- The word of a command carries the command's gate, and bit 101, which every command ignores, as 0 (spec/30_encoding.md
R61, R75). -/
def Statement (i : Instr) : Prop := (Fields.ofWord (encode i)).gate = i.gate ∧ (Fields.ofWord (encode i)).g5 = 0

theorem bufset (g : Gate) (len : Word) :
    Statement (.bufset g len) := by
  rw [Statement, ofWord_encode]
  exact ⟨gate_of_bits g _ rfl rfl, rfl⟩

theorem lenget (g : Gate) :
    Statement (.lenget g) := by
  rw [Statement, ofWord_encode]
  exact ⟨gate_of_bits g _ rfl rfl, rfl⟩

theorem curset (g : Gate) (off : Word) :
    Statement (.curset g off) := by
  rw [Statement, ofWord_encode]
  exact ⟨gate_of_bits g _ rfl rfl, rfl⟩

theorem curget (g : Gate) :
    Statement (.curget g) := by
  rw [Statement, ofWord_encode]
  exact ⟨gate_of_bits g _ rfl rfl, rfl⟩

theorem iwset (g : Gate) (word : Word) :
    Statement (.iwset g word) := by
  rw [Statement, ofWord_encode]
  exact ⟨gate_of_bits g _ rfl rfl, rfl⟩

theorem iwget (g : Gate) :
    Statement (.iwget g) := by
  rw [Statement, ofWord_encode]
  exact ⟨gate_of_bits g _ rfl rfl, rfl⟩

theorem bmpack (g : Gate) (shape : Byte) (flags : Word) :
    Statement (.bmpack g shape flags) := by
  rw [Statement, ofWord_encode]
  exact ⟨gate_of_bits g _ rfl rfl, rfl⟩

theorem bmunpack (g : Gate) (shape : Byte) (word : Word) :
    Statement (.bmunpack g shape word) := by
  rw [Statement, ofWord_encode]
  exact ⟨gate_of_bits g _ rfl rfl, rfl⟩

theorem bmor (g : Gate) (pos : Byte) (word : Word) (flag : BitVec 1) :
    Statement (.bmor g pos word flag) := by
  rw [Statement, ofWord_encode]
  exact ⟨gate_of_bits g _ rfl rfl, rfl⟩

theorem bmtst (g : Gate) (pos : Byte) (word : Word) :
    Statement (.bmtst g pos word) := by
  rw [Statement, ofWord_encode]
  exact ⟨gate_of_bits g _ rfl rfl, rfl⟩

theorem evpack (g : Gate) (enables values : Byte) :
    Statement (.evpack g enables values) := by
  rw [Statement, ofWord_encode]
  exact ⟨gate_of_bits g _ rfl rfl, rfl⟩

theorem evunpack (g : Gate) (word : Word) :
    Statement (.evunpack g word) := by
  rw [Statement, ofWord_encode]
  exact ⟨gate_of_bits g _ rfl rfl, rfl⟩

theorem fxenc16 (g : Gate) (radix : Byte) (value : DWord) :
    Statement (.fxenc16 g radix value) := by
  rw [Statement, ofWord_encode]
  exact ⟨gate_of_bits g _ rfl rfl, rfl⟩

theorem fxenc32 (g : Gate) (radix : Byte) (value : DWord) :
    Statement (.fxenc32 g radix value) := by
  rw [Statement, ofWord_encode]
  exact ⟨gate_of_bits g _ rfl rfl, rfl⟩

theorem fxenc64 (g : Gate) (radix : Byte) (value : DWord) :
    Statement (.fxenc64 g radix value) := by
  rw [Statement, ofWord_encode]
  exact ⟨gate_of_bits g _ rfl rfl, rfl⟩

theorem fxdec16 (g : Gate) (radix : Byte) (raw : BitVec 16) :
    Statement (.fxdec16 g radix raw) := by
  rw [Statement, ofWord_encode]
  exact ⟨gate_of_bits g _ rfl rfl, rfl⟩

theorem fxdec32 (g : Gate) (radix : Byte) (raw : BitVec 32) :
    Statement (.fxdec32 g radix raw) := by
  rw [Statement, ofWord_encode]
  exact ⟨gate_of_bits g _ rfl rfl, rfl⟩

theorem fxdec64 (g : Gate) (radix : Byte) (raw : BitVec 64) :
    Statement (.fxdec64 g radix raw) := by
  rw [Statement, ofWord_encode]
  exact ⟨gate_of_bits g _ rfl rfl, rfl⟩

theorem bfins (g : Gate) (off width : Byte) (word : Word) (value : Word) :
    Statement (.bfins g off width word value) := by
  rw [Statement, ofWord_encode]
  exact ⟨gate_of_bits g _ rfl rfl, rfl⟩

theorem bfext (g : Gate) (off width : Byte) (word : Word) :
    Statement (.bfext g off width word) := by
  rw [Statement, ofWord_encode]
  exact ⟨gate_of_bits g _ rfl rfl, rfl⟩

theorem m1enc (g : Gate) (width : Byte) (value : Word) :
    Statement (.m1enc g width value) := by
  rw [Statement, ofWord_encode]
  exact ⟨gate_of_bits g _ rfl rfl, rfl⟩

theorem m1dec (g : Gate) (width : Byte) (stored : BitVec 16) :
    Statement (.m1dec g width stored) := by
  rw [Statement, ofWord_encode]
  exact ⟨gate_of_bits g _ rfl rfl, rfl⟩

theorem stbe (g : Gate) (n : Byte) (addr : AddrOperand) (value : DWord) :
    Statement (.stbe g n addr value) := by
  rw [Statement, ofWord_encode]
  exact ⟨gate_of_bits g _ rfl rfl, rfl⟩

theorem ldbe (g : Gate) (n : Byte) (addr : AddrOperand) :
    Statement (.ldbe g n addr) := by
  rw [Statement, ofWord_encode]
  exact ⟨gate_of_bits g _ rfl rfl, rfl⟩

theorem vsize (g : Gate) (base count stride : Word) :
    Statement (.vsize g base count stride) := by
  rw [Statement, ofWord_encode]
  exact ⟨gate_of_bits g _ rfl rfl, rfl⟩

theorem chksz (g : Gate) (addr : AddrOperand) (size : DWord) :
    Statement (.chksz g addr size) := by
  rw [Statement, ofWord_encode]
  exact ⟨gate_of_bits g _ rfl rfl, rfl⟩

theorem chkvl (g : Gate) (addr : AddrOperand) (size : DWord) :
    Statement (.chkvl g addr size) := by
  rw [Statement, ofWord_encode]
  exact ⟨gate_of_bits g _ rfl rfl, rfl⟩

end Sys2Proof.Laws.GateEncoded
end

