-- ==== Sys2Proof/Laws/Pseudo.lean ====
section
/-! SUPPORT. What issuing one command in a sequence can do. -/

namespace Sys2Proof.Machine

variable {α : Type}

theorem send_ok {i : Instr} {s t : State} {r : DWord} (h : exec i s = .next t) (hr : t.response = some ⟨.ok, r⟩)
    (k : DWord → State → Option (Finish α)) : send i s k = k r t := by
  simp [send, h, hr]

theorem send_skipped {i : Instr} {s t : State} {r : DWord} (h : exec i s = .next t)
    (hr : t.response = some ⟨.skipped, r⟩) (k : DWord → State → Option (Finish α)) : send i s k = k r t := by
  simp [send, h, hr]

theorem send_error {i : Instr} {s t : State} {st : Status} {r : DWord} (h : exec i s = .next t)
    (hr : t.response = some ⟨st, r⟩) (h1 : st ≠ .ok) (h2 : st ≠ .skipped) (k : DWord → State → Option (Finish α)) :
    send i s k = some ⟨st, none, t⟩ := by
  simp [send, h, hr, h1, h2]

theorem fetch_ok {i : Instr} {s t : State} {r : DWord} (h : exec i s = .next t) (hr : t.response = some ⟨.ok, r⟩)
    (k : DWord → State → Option (Finish α)) : fetch i s k = k r t := by
  simp [fetch, h, hr]

theorem fetch_not_ok {i : Instr} {s t : State} {st : Status} {r : DWord} (h : exec i s = .next t)
    (hr : t.response = some ⟨st, r⟩) (h1 : st ≠ .ok) (k : DWord → State → Option (Finish α)) :
    fetch i s k = some ⟨st, none, t⟩ := by
  simp [fetch, h, hr, h1]

/-! The halves of a bitmap sequence in terms of their one buffer access; BMPACK and BMUNPACK of a legal shape always answer. -/

theorem bmpack_next {shape : Byte} (h : shapeInRange shape = true) (flags : Word) (s : State) :
    exec (.bmpack .always shape flags) s = .next (s.respond (zext (packShape (shapeEntries shape) flags))) := by
  simp [exec, execBmpack, perform, h, State.gateOpen, answer]

theorem bmunpack_next {shape : Byte} (h : shapeInRange shape = true) (word : Word) (s : State) :
    exec (.bmunpack .always shape word) s = .next (s.respond (zext (unpackShape (shapeEntries shape) word))) := by
  simp [exec, execBmunpack, perform, h, State.gateOpen, answer]

theorem stbitmap_eq {shape : Byte} (h : shapeInRange shape = true) (g : Gate) (flags : Word) (s : State)
    (k : Word → State → Option (Finish α)) : stbitmap g shape flags s k =
      send (.stbe g 4 .cursor (zext (packShape (shapeEntries shape) flags)))
        (s.respond (zext (packShape (shapeEntries shape) flags)))
        fun _ t => k (low32 (zext (packShape (shapeEntries shape) flags))) t := by
  rw [stbitmap, send_ok (bmpack_next h flags s) rfl]

theorem low32_zext (w : Word) : low32 (zext w) = w := by
  apply BitVec.eq_of_toNat_eq
  have := w.isLt
  simp only [low32, zext, BitVec.extractLsb'_toNat, BitVec.toNat_setWidth]
  omega

/-- An empty region issues nothing: it ends OK and changes nothing, whatever an earlier command answered. -/
theorem packGpsPayload_zero (g : Gate) (p : List Byte) (s : State) :
    packGpsPayload g p 0 s = some ⟨.ok, some (), s⟩ := rfl

theorem unpackGpsPayload_zero (g : Gate) (s : State) : unpackGpsPayload g 0 s = some ⟨.ok, some [], s⟩ := rfl

end Sys2Proof.Machine
end

