-- ==== Sys2Proof/Laws/Step.lean ====
section
/-! SUPPORT. What a step can do. -/

namespace Sys2Proof.Machine

theorem step_idle {s : State} (h : s.host = []) : step s = .next s := by simp [step, h]

theorem step_serves {s : State} {a : HostAction} {rest : List HostAction} (h : s.host = a :: rest) :
    step s = serve a { s with host := rest } := by
  simp [step, h]

/-- A step after the host has issued a command runs that command's word on the state itself. -/
theorem step_issue (s : State) (w : CommandWord) : step (s.issue w) = runWord w s := rfl

end Sys2Proof.Machine
end

