-- ==== Sys2Proof/Tests/Slice0.lean ====
section
/-! SUPPORT. Tests. Words, results and bytes are those of spec/95_test_vectors.md and of the examples in the rules; none is
this model's own answer. The tables EX0 and EVX are the example tables of that file, given to the table functions. -/

open Sys2Proof Sys2Proof.Machine Sys2Proof.Claims

namespace Sys2Proof.Tests

/-- Running the word answers the status and the result. -/
def answers (w : CommandWord) (s : State) (st : Status) (res : DWord) : Bool :=
  match step (s.issue w) with
  | .next t => t.response == some ⟨st, res⟩
  | .fault _ => false
  | .refused _ => false

/-- A state with a buffer of `len` bytes that hold 01, 02, ... 08, with CUR and IW as given. -/
def sample (iw cur len : Word) : State :=
  { State.reset with iw := iw, cur := cur, len := len,
                     buf := [(0, 1), (1, 2), (2, 3), (3, 4), (4, 5), (5, 6), (6, 7), (7, 8)] }

/-- EX0 of spec/95_test_vectors.md: an example of SHAPE[0]. -/
def ex0 : List Config.ShapeEntry := [⟨"gain", 23⟩, ⟨"devid", 17⟩, ⟨"other", 7⟩]

/-- EVX of spec/95_test_vectors.md: an example of EVPOS. -/
def evx : Config.PairPositions where
  ep i := ⟨31 - i.val, by omega⟩
  vp i := ⟨19 - i.val, by omega⟩

/-! ## Each check of WellFormed refuses an ill-formed operand (R67) -/

theorem test_lenFits_refuses : lenFits 0x10000 0x10001 = false ∧ lenFits 0x10000 0x10000 = true := by decide
theorem test_shape_refuses : (Instr.bmpack .always 8 0).wf = false ∧ (Instr.bmunpack .always 255 0).wf = false := by decide
theorem test_pos_refuses : (Instr.bmor .always 32 0 1).wf = false ∧ (Instr.bmtst .always 255 0).wf = false := by decide
theorem test_field_refuses_width : (Instr.bfins .always 0 0 0 0).wf = false ∧ (Instr.bfext .always 0 33 0).wf = false := by
  decide
theorem test_field_refuses_place : (Instr.bfins .always 32 1 0 0).wf = false ∧ (Instr.bfext .always 31 2 0).wf = false := by
  decide
theorem test_m1_width_refuses : (Instr.m1enc .always 8 0).wf = false ∧ (Instr.m1dec .always 0 0).wf = false := by decide
theorem test_byte_count_refuses : (Instr.stbe .always 3 .cursor 0).wf = false ∧ (Instr.ldbe .always 0 .cursor).wf = false := by
  decide

/-! ## Decoding: a word of spec/95_test_vectors.md for every row of the opcode map -/

theorem test_decode_bufset :
    readFields (Fields.ofWord 0x01000000000100010000000000000000) = some (.bufset .always 0x10001) := by decide
theorem test_decode_lenget : decode 0x02000000000000000000000000000000 = .command (.lenget .always) := by decide
theorem test_decode_curset : decode 0x03000000FFFFFFFF0000000000000000 = .command (.curset .always 0xFFFFFFFF) := by
  decide
theorem test_decode_curget : decode 0x04000000000000000000000000000000 = .command (.curget .always) := by decide
theorem test_decode_iwset : decode 0x080000000000000000000001FFFFFFFF = .command (.iwset .always 0xFFFFFFFF) := by
  decide
theorem test_decode_iwget : decode 0x09000000000000000000000000000000 = .command (.iwget .always) := by decide
theorem test_decode_bmpack : decode 0x100000000000000000000000FFFFFFFF = .command (.bmpack .always 0 0xFFFFFFFF) := by
  decide
theorem test_decode_bmunpack : decode 0x11000000000000000000000000820001 = .command (.bmunpack .always 0 0x00820001) := by
  decide
theorem test_decode_bmor : decode 0x12170000000000010000000000020000 = .command (.bmor .always 23 0x00020000 1) := by
  decide
theorem test_decode_bmtst : decode 0x131F0000000000000000000080000000 = .command (.bmtst .always 31 0x80000000) := by
  decide
theorem test_decode_evpack : decode 0x14000000000000000000000000000301 = .command (.evpack .always 0x01 0x03) := by
  decide
theorem test_decode_evunpack : decode 0x150000000000000000000000800C0000 = .command (.evunpack .always 0x800C0000) := by
  decide
theorem test_decode_fxenc16 : decode 0x2007000000000000C070001000000000 = .command (.fxenc16 .always 7 0xC070001000000000) := by
  decide
theorem test_decode_fxenc32 : decode 0x2100000000000000BFE0000000000000 = .command (.fxenc32 .always 0 0xBFE0000000000000) := by
  decide
theorem test_decode_fxenc64 : decode 0x22140000000000003FB999999999999A = .command (.fxenc64 .always 20 0x3FB999999999999A) := by
  decide
theorem test_decode_fxdec16 : decode 0x2407000000000000000000000000FF80 = .command (.fxdec16 .always 7 0xFF80) := by
  decide
theorem test_decode_fxdec32 : decode 0x251F0000000000000000000080000000 = .command (.fxdec32 .always 31 0x80000000) := by
  decide
theorem test_decode_fxdec64 : decode 0x263F0000000000008000000000000000 = .command (.fxdec64 .always 63 0x8000000000000000) := by
  decide
theorem test_decode_bfins : decode 0x30001000FFFFFF800000000000000000 = .command (.bfins .always 0 16 0 0xFFFFFF80) := by
  decide
theorem test_decode_bfext : decode 0x3110100000000000000000000040FF80 = .command (.bfext .always 16 16 0x0040FF80) := by
  decide
theorem test_decode_m1enc : decode 0x32001000000100000000000000000000 = .command (.m1enc .always 16 0x10000) := by decide
theorem test_decode_m1dec : decode 0x3300100000000000000000000001FFFF = .command (.m1dec .always 16 0xFFFF) := by decide
theorem test_decode_stbe :
    decode 0x40000440000000000000000000800080 = .command (.stbe .always 4 .cursor 0x00800080) ∧
    decode 0x4000080000000004AAAAAAAAAAAAAAAA = .command (.stbe .always 8 (.absolute 4) 0xAAAAAAAAAAAAAAAA) := by decide
theorem test_decode_ldbe : decode 0x41000200000000010000000000000000 = .command (.ldbe .always 2 (.absolute 1)) := by
  decide
theorem test_decode_vsize : decode 0x440000000000000C0000005000000003 = .command (.vsize .always 12 3 80) := by decide
theorem test_decode_chksz :
    decode 0x45000040000000000000000000000004 = .command (.chksz .always .cursor 4) ∧
    decode 0x45000000000000040000000000000008 = .command (.chksz .always (.absolute 4) 8) := by decide
theorem test_decode_chkvl : decode 0x4600000000000000000000000000000C = .command (.chkvl .always (.absolute 0) 12) := by
  decide

/-! ## Running a word -/

theorem test_bufset_zero : exec (.bufset .always 0) (sample 1 5 8) =
    .next { sample 1 0 0 with response := some ⟨.ok, 0⟩ } := by
  simp [exec, execBufset, perform, lenFits, State.gateOpen, State.respond, sample]
theorem test_lenget : answers 0x02000000000000000000000000000000 (sample 0 0 12) .ok 12 = true := by decide
theorem test_curset_then_curget :
    (match step ((sample 0 0 8).issue 0x03000000FFFFFFFF0000000000000000) with
      | .next t => answers 0x04000000000000000000000000000000 t .ok 0x00000000FFFFFFFF
      | _ => false) = true := by decide
theorem test_iwset_then_iwget :
    (match step ((sample 0 0 8).issue 0x080000000000000000000001FFFFFFFF) with
      | .next t => answers 0x09000000000000000000000000000000 t .ok 0x00000000FFFFFFFF
      | _ => false) = true := by decide
theorem test_packShape : packShape ex0 0x3 = 0x00820000 ∧ packShape ex0 0xFFFFFFFF = 0x00820080 := by decide
theorem test_unpackShape : unpackShape ex0 0x00820001 = 0x3 ∧ unpackShape ex0 0x00000080 = 0x4 := by decide
theorem test_bmpack_illegal : answers 0x10080000000000000000000000000000 State.reset .illegalCommand 0 = true := by decide
theorem test_bmor : answers 0x121F0000FFFFFFFF0000000000000000 State.reset .ok 0x80000000 = true ∧
    answers 0x12110000000000000000000000020000 State.reset .ok 0x20000 = true := by decide
theorem test_bmtst : answers 0x131F0000000000000000000080000000 State.reset .ok 1 = true ∧
    answers 0x13100000000000000000000000820000 State.reset .ok 0 = true := by decide
theorem test_packPairs : packPairs evx 0x01 0x03 = 0x800C0000 ∧ packPairs evx 0x00 0xFF = 0x000FF000 := by decide
theorem test_unpackPairs : unpackEnables evx 0x800C0000 = 1 ∧ unpackValues evx 0x800C0000 = 1 ∧
    unpackValues evx 0x000FF000 = 0 := by decide
theorem test_fxenc16 : answers 0x20070000000000003FF0000000000000 State.reset .ok 0x80 = true ∧
    answers 0x2007000000000000C070001000000000 State.reset .ok 0x7FFF = true := by decide +kernel
theorem test_fxenc32 : answers 0x2100000000000000BFE0000000000000 State.reset .ok 0xFFFFFFFFFFFFFFFF = true ∧
    answers 0x21000000000000004004000000000000 State.reset .ok 3 = true := by decide +kernel
theorem test_fxenc64 : answers 0x223F000000000000BFF0000000000000 State.reset .ok 0x8000000000000000 = true ∧
    answers 0x22140000000000003FB999999999999A State.reset .ok 0x1999A = true := by decide +kernel
theorem test_fxenc_nan : fxEncode 16 0x7FF8000000000000 7 = Config.fxNonfinite 16 0x7FF8000000000000 7 := by rfl
theorem test_fxdec16 : answers 0x24070000000000000000000000008000 State.reset .ok 0xC070000000000000 = true ∧
    answers 0x24FF0000000000000000000000000001 State.reset .ok 0x3000000000000000 = true := by decide
theorem test_fxdec32 : answers 0x2505000000000000000000007FFFFFFF State.reset .ok 0x418FFFFFFFC00000 = true := by decide
theorem test_fxdec64 : answers 0x26000000000000007FFFFFFFFFFFFFFF State.reset .ok 0x43E0000000000000 = true ∧
    answers 0x26000000000000000020000000000003 State.reset .ok 0x4340000000000002 = true := by decide
theorem test_bfins : answers 0x30080800000000F00000000000000F00 State.reset .ok 0xFF00 = true ∧
    answers 0x30002000F0F0F0F0000000000F0F0F0F State.reset .ok 0xFFFFFFFF = true := by decide
theorem test_bfext : answers 0x3110100000000000000000000040FF80 State.reset .ok 0x40 = true ∧
    answers 0x311F0200000000000000000000000000 State.reset .illegalCommand 0 = true := by decide
theorem test_m1enc : answers 0x320010000000FFFE0000000000000000 State.reset .ok 0xFFFD = true ∧
    answers 0x32001000000100000000000000000000 State.reset .ok 0xFFFF = true := by decide
theorem test_m1dec : answers 0x3300100000000000000000000000FFFE State.reset .ok 0xFFFF = true ∧
    answers 0x33000600000000000000000000000000 State.reset .ok 1 = true := by decide
theorem test_ldbe : answers 0x41000400000000030000000000000000 (sample 0 0 8) .ok 0x04050607 = true ∧
    answers 0x41000800000000000000000000000000 (sample 0 0 8) .ok 0x0102030405060708 = true := by decide
theorem test_stbe_moves_cursor :
    (match step ((sample 0 0 8).issue 0x4000024000000000FFFFFFFFFFFFBEEF) with
      | .next t => t.cur == 2 && t.byteAt 0 == 0xBE && t.byteAt 1 == 0xEF && t.byteAt 2 == 3
      | _ => false) = true := by decide
theorem test_stbe_too_short : answers 0x4000080000000004AAAAAAAAAAAAAAAA (sample 0 0 8) .bufferTooShort 0 = true := by
  decide
theorem test_vsize : answers 0x44000000FFFFFFFFFFFFFFFFFFFFFFFF State.reset .ok 0xFFFFFFFF00000000 = true := by decide
theorem test_chksz : answers 0x45000000000000000000000000000008 (sample 0 0 8) .ok 0 = true ∧
    answers 0x4500000000000000FFFFFFFFFFFFFFFF (sample 0 0 8) .bufferTooShort 0 = true := by decide
theorem test_chkvl : answers 0x4600000000000000000000000000000C (sample 0 0 8) .inconsistentLength 0 = true ∧
    answers 0x46000000000000000000000000000008 (sample 0 0 8) .ok 0 = true := by decide
/-- The example table of SHAPE[0] does not matter here: a closed gate stores nothing and latches nothing (R104, R115, log entry 17). -/
theorem test_gated_bitmap_latches_nothing :
    (match packBitmap (.ifPresent 31) 0 0xFFFFFFFF true (sample 1 0 8) with
      | some f => f.state.iw == 1 && f.state.cur == 0 && f.status == .skipped
      | none => false) = true := by rfl
theorem test_empty_payload_is_ok :
    packGpsPayload .always [1, 2] 0 { sample 0 9 8 with response := some ⟨.bufferTooShort, 0⟩ } =
      some ⟨.ok, some (), { sample 0 9 8 with response := some ⟨.bufferTooShort, 0⟩ }⟩ := rfl
/-- A header that declares one entry in word0[7:0] comes back whole with its entry (R164, log entry 22). -/
theorem test_index_list_gives_header_and_entries :
    (match packIndexList .always 0x01020001 0xABCD0000 [0xDEADBEEF] (sample 0 0 12) with
      | some f =>
        (match unpackIndexList .always 0 ⟨0, 0, 8⟩ { f.state with cur := 0 } with
          | some h => h.value == some (0x01020001, 0xABCD0000, [0xDEADBEEF])
          | none => false)
      | none => false) = true := by decide +kernel

/-! ## Witnesses: a concrete state and operands that meet the hypotheses of each statement, clause by clause -/

theorem witness_DecodeOfEncodeGivesTheCommand : (Instr.bfins (.ifPresent 31) 31 1 0xFFFFFFFF 1).wf = true ∧
    (Instr.stbe .always 8 .cursor 0xFFFFFFFFFFFFFFFF).wf = true ∧ (Instr.bufset .always 0).wf = true :=
  ⟨by decide, by decide, by simp [Instr.wf, lenFits]⟩
theorem witness_DecodeUsesExactlyTheListedBits :
    decode 0x12170097FFFFFFFFFFFFFFFF00020000 = .command (.bmor (.ifPresent 23) 23 0x00020000 1) := by decide
theorem witness_UnassignedOpcodeAnswersIllegal :
    (∀ w ∈ [0x00#8, 0x05#8, 0x07#8, 0x0A#8, 0x0F#8, 0x16#8, 0x1F#8, 0x23#8, 0x27#8, 0x2F#8, 0x34#8, 0x3F#8, 0x42#8, 0x43#8,
      0x47#8, 0xFF#8], unassignedOp (Fields.ofWord (w ++ 0#120)).op.toNat) ∧
    decode (0x23#8 ++ 0#120) = .illegal (.unassignedOp 0x23) := by
  unfold unassignedOp
  decide
theorem witness_OutOfRangeOperandAnswersIllegal :
    operandOutOfRange (Fields.ofWord 0x10080000000000000000000000000000) ∧
    operandOutOfRange (Fields.ofWord 0x11080000000000000000000000000000) ∧
    operandOutOfRange (Fields.ofWord 0x12200000000000000000000000000000) ∧
    operandOutOfRange (Fields.ofWord 0x13200000000000000000000000000000) ∧
    operandOutOfRange (Fields.ofWord 0x30000000000000000000000000000000) ∧
    operandOutOfRange (Fields.ofWord 0x31002100000000000000000000000000) ∧
    operandOutOfRange (Fields.ofWord 0x30200100000000000000000000000000) ∧
    operandOutOfRange (Fields.ofWord 0x311F0200000000000000000000000000) ∧
    operandOutOfRange (Fields.ofWord 0x32000700000000000000000000000000) ∧
    operandOutOfRange (Fields.ofWord 0x33000000000000000000000000000000) ∧
    operandOutOfRange (Fields.ofWord 0x40000300000000000000000000000000) ∧
    operandOutOfRange (Fields.ofWord 0x41001000000000000000000000000000) := by
  refine ⟨?_, ?_, ?_, ?_, ?_, ?_, ?_, ?_, ?_, ?_, ?_, ?_⟩ <;> exact Or.inr (by decide)
theorem witness_StepRunsTheDecodedCommand :
    ({ sample 0 0 8 with host := [.command 0x02000000000000000000000000000000, .reset] }).host =
      .command 0x02000000000000000000000000000000 :: [.reset] ∧
    decode 0x02000000000000000000000000000000 = .command (.lenget .always) := by decide
theorem witness_IllegalityIsDecidedBeforeTheGate : (Instr.stbe (.ifPresent 0) 3 .cursor 0).wf = false ∧
    decode 0x40000380000000000000000000000000 = .illegal (.operandOutOfRange (.stbe (.ifPresent 0) 3 (.absolute 0) 0)) := by
  decide
theorem witness_GateSkipsOrRunsTheCommand : (Instr.iwset (.ifPresent 31) 0).wf = true ∧
    (sample 0x7FFFFFFF 0 8).iw.getLsbD (31#5).toNat = false ∧ (sample 0x80000000 0 8).iw.getLsbD (31#5).toNat = true ∧
    (Instr.iwset .always 0).wf = true ∧ (Instr.iwset .always 0).gate = .always := by decide

/-- The state whose whole buffer memory is declared. -/
def full : State := { State.reset with len := BitVec.ofNat 32 Config.bufCap }

theorem full_len : full.len.toNat = Config.bufCap := by
  have := Config.bufCap_lt
  simp only [full, BitVec.toNat_ofNat]
  omega
theorem full_sound : full.Inv := ⟨rfl, Nat.le_of_eq full_len, by simp [full, State.reset]⟩
theorem witness_EveryCommandAnswersItsStatus :
    full.Inv ∧ ¬ full.len.toNat < full.ea (.absolute 0) + Config.bufCap := by
  refine ⟨full_sound, ?_⟩
  have h : full.ea (.absolute 0) = 0 := rfl
  rw [full_len, h]
  omega
theorem witness_CommandThatIsNotOkChangesNothing :
    exec (.stbe .always 8 (.absolute 1) 0) (sample 0 0 8) =
      .next { sample 0 0 8 with response := some ⟨.bufferTooShort, 0⟩ } ∧ Status.bufferTooShort ≠ .ok := by
  exact ⟨rfl, by decide⟩
theorem witness_ResponseOfEveryCommand : answersNothing (.iwset .always 7) = true ∧
    exec (.iwset .always 7) (sample 0 0 8) = .next { sample 7 0 8 with response := some ⟨.ok, 0⟩ } := ⟨rfl, rfl⟩
theorem witness_OnlyItsWritersChangeAPieceOfState :
    exec (.ldbe .always 1 .cursor) (sample 0 7 8) = .next { sample 0 8 8 with response := some ⟨.ok, 8⟩ } ∧
    (sample 0 8 8).cur ≠ (sample 0 7 8).cur := by
  exact ⟨rfl, by decide⟩
theorem witness_OnlyAStoredByteChanges :
    ¬ covers ((sample 0 0 8).ea .cursor) (2#8).toNat 2 ∧ covers ((sample 0 0 8).ea .cursor) (2#8).toNat 1 ∧
    (match exec (.stbe .always 2 .cursor 0) (sample 0 0 8) with | .next t => t.cur == 2 | _ => false) = true := by
  refine ⟨?_, ?_, by decide⟩ <;> unfold covers <;> decide

/-- A sound state in which the host is about to write the first byte, read it, issue a command and reset the block. -/
def busy : State := { State.reset with host := [.writeByte 0 0xAB, .readByte 0, .command 0, .reset] }

theorem busy_sound : busy.Inv := ⟨rfl, Nat.zero_le _, by simp [busy, State.reset]⟩
theorem witness_StepKeepsSoundness : busy.Inv ∧
    step busy = .next { busy with buf := [(0, 0xAB)], host := [.readByte 0, .command 0, .reset] } := by
  refine ⟨busy_sound, ?_⟩
  have h : (0 : Nat) < Config.bufCap := Config.bufCap_pos
  simp [step, busy, serve, hostWrite, h, State.reset, Memory.put]
theorem witness_SafeRunNeverStops : busy.Safe := by
  refine ⟨busy_sound, ?_⟩
  have h : (0 : Nat) < Config.bufCap := Config.bufCap_pos
  intro a ha
  simp only [busy, List.mem_cons, List.not_mem_nil, or_false] at ha
  rcases ha with rfl | rfl | rfl | rfl <;> simp [HostAction.inBuffer, h]
theorem witness_ResetClearsTheRegisters :
    ({ sample 3 4 8 with host := [.reset, .readByte 0] }).host = .reset :: [.readByte 0] := rfl
theorem witness_ResetMakesEveryByteFree : ({ sample 3 4 8 with host := [.reset] }).host = .reset :: [] := rfl
theorem witness_CommandsRightAfterReset : (sample 0 0 0).afterReset.iw = 0 ∧ (sample 0 0 0).cur = 0 ∧
    (sample 0 0 0).len = 0 ∧ (sample 3 4 8).afterReset.len = 0 ∧ (Instr.iwset (.ifPresent 31) 1).wf = true ∧ accessWidth 1 ∧
    accessWidth 8 ∧ (AddrOperand.absolute 0 = .absolute 0 ∨ AddrOperand.absolute 0 = .cursor) := by
  unfold accessWidth
  decide
theorem witness_CanonicalMemoriesWithEqualCellsAreEqual :
    Memory.wf [(0, 1), (7, 0)] = true ∧ ∀ a, Memory.cell? [(0, 1), (7, 0)] a = Memory.cell? [(0, 1), (7, 0)] a :=
  ⟨by decide, fun _ => rfl⟩
theorem witness_gate_open : (sample 0x80000000 0 8).gateOpen (.ifPresent 31) = true ∧ (sample 0 0 8).gateOpen .always = true := by
  decide
theorem witness_RegisterWritesComplete : (sample 1 2 8).gateOpen (.ifPresent 0) = true ∧ (0 : Word).toNat ≤ Config.bufCap := by
  exact ⟨by decide, Nat.zero_le _⟩
theorem witness_RegisterReadsComplete : (sample 0xFFFFFFFF 0xFFFFFFFF 8).gateOpen (.ifPresent 31) = true := by decide
theorem witness_MemReadIsBigEndian : (sample 0 0 8).len.toNat < 5 + 4 ∧ 4 + 4 ≤ (sample 0 0 8).len.toNat := by decide
theorem witness_MemWriteIsBigEndian : (2 ^ 64 - 1 : Nat) < 2 ^ (8 * 8) ∧ (sample 0 0 8).len.toNat < 1 + 8 ∧
    0 + 8 ≤ (sample 0 0 8).len.toNat := by decide
theorem witness_StoreCompletes : (sample 1 0 8).gateOpen (.ifPresent 0) = true ∧ accessWidth 8 ∧
    (sample 1 0 8).ea .cursor + (8#8).toNat ≤ (sample 1 0 8).len.toNat ∧
    (sample 1 0 8).ea (.absolute 7) + (1#8).toNat ≤ (sample 1 0 8).len.toNat := by
  unfold accessWidth
  decide
theorem witness_LoadCompletes : (sample 1 4 8).gateOpen .always = true ∧ accessWidth 4 ∧
    (sample 1 4 8).ea .cursor + (4#8).toNat ≤ (sample 1 4 8).len.toNat := by
  unfold accessWidth
  decide
theorem witness_LoadAfterStoreGivesTheValue : accessWidth 2 ∧ (6#32).toNat + (2#8).toNat ≤ (sample 0 0 8).len.toNat ∧
    (match exec (.stbe .always 2 (.absolute 6) 0x1BEEF) (sample 0 0 8) with
      | .next t => t.byteAt 7 == 0xEF | _ => false) = true := by
  unfold accessWidth
  decide
theorem witness_ExtentChecksComplete : (sample 0 0 8).gateOpen .always = true ∧
    (sample 0 0 8).ea (.absolute 8) + (0#64).toNat ≤ (sample 0 0 8).len.toNat ∧
    (sample 0 0 8).len.toNat < (sample 0 0 8).ea (.absolute 8) + (1#64).toNat := by decide
theorem witness_AccessInsideACheckedExtentIsOk : accessWidth 4 ∧
    exec (.chksz .always (.absolute 0) 8) (sample 0 0 8) = .next { sample 0 0 8 with response := some ⟨.ok, 0⟩ } ∧
    exec (.chkvl (.ifPresent 0) .cursor 8) (sample 1 0 8) = .next { sample 1 0 8 with response := some ⟨.ok, 0⟩ } ∧
    (sample 0 4 8).len = (sample 0 0 8).len ∧ (sample 0 0 8).ea (.absolute 0) ≤ (sample 0 4 8).ea .cursor ∧
    (sample 0 4 8).ea .cursor + (4#8).toNat ≤ (sample 0 0 8).ea (.absolute 0) + (8#64).toNat := by
  exact ⟨by unfold accessWidth; decide, rfl, rfl, by decide, by decide, by decide⟩
theorem witness_VsizeIsExact : (sample 0 0 8).gateOpen .always = true := by decide
theorem witness_HostWriteIsSeenByLoadAndHostRead :
    ({ sample 0 0 1 with host := [.writeByte 0 5, .readByte 0] }).host = .writeByte 0 5 :: .readByte 0 :: [] ∧
    (0#32).toNat < Config.bufCap ∧ (0#32).toNat + 1 ≤ (sample 0 0 1).len.toNat ∧
    ¬ (0#32).toNat + 1 ≤ (sample 0 0 0).len.toNat :=
  ⟨rfl, Config.bufCap_pos, by decide, by decide⟩
theorem witness_SingleBitCommandsComplete : (sample 2 0 8).gateOpen (.ifPresent 1) = true ∧ (31#8).toNat ≤ 31 := by decide
theorem witness_BmpackSetsThePositionsOfSetFlags : (sample 2 0 8).gateOpen (.ifPresent 1) = true := by decide
theorem witness_BmunpackReadsThePositions : (sample 0 0 8).gateOpen .always = true := by decide
theorem witness_EvpackSetsThePairPositions : (sample 2 0 8).gateOpen (.ifPresent 1) = true := by decide
theorem witness_EvunpackGatesValuesByEnables : (sample 0 0 8).gateOpen .always = true := by decide
theorem witness_RoundingIsHalfAwayFromZero : 0 < 2 ∧ roundHalfAway 5 2 = 3 ∧ roundHalfAway (-5) 2 = -3 := by decide

/-- The value of the pattern of 1.0 (R71). -/
theorem value_one : f64Value 0x3FF0000000000000 = 1 := by
  have hn : f64Negative 0x3FF0000000000000 = false := by decide
  have he : f64Exponent 0x3FF0000000000000 = 1023 := by decide
  have hf : f64Fraction 0x3FF0000000000000 = 0 := by decide
  simp only [f64Value, hn, he, hf]
  norm_num
/-- The value of the pattern of 2^68 (R71). -/
theorem value_two_pow_68 : f64Value 0x4430000000000000 = 2 ^ 68 := by
  have hn : f64Negative 0x4430000000000000 = false := by decide
  have he : f64Exponent 0x4430000000000000 = 1091 := by decide
  have hf : f64Fraction 0x4430000000000000 = 0 := by decide
  simp only [f64Value, hn, he, hf]
  norm_num
theorem witness_FxencRoundsAndTruncates : (sample 0 0 8).gateOpen .always = true ∧ productFits 0x3FF0000000000000 7 ∧
    NearestAway (f64Value 0x3FF0000000000000 * 2 ^ (7#8).toNat) 128 := by
  refine ⟨by decide, ⟨by decide, ?_⟩, Or.inl ?_⟩
  · show |f64Value 0x3FF0000000000000 * 2 ^ 7| < 2 ^ 1024
    rw [value_one]
    exact lt_of_lt_of_le (by norm_num : |(1 : ℚ) * 2 ^ 7| < 2 ^ 8) (pow_le_pow_right₀ (by norm_num) (by norm_num))
  · rw [value_one, show (7#8).toNat = 7 from rfl]
    norm_num
theorem witness_FxencOfNonfiniteAnswersTheFreeValue : (sample 0 0 8).gateOpen .always = true ∧
    ¬ productFits 0x7FF0000000000000 0 ∧ ¬ productFits 0xFFF8000000000001 255 := by
  refine ⟨by decide, fun h => ?_, fun h => ?_⟩
  · exact absurd h.1 (by decide)
  · exact absurd h.1 (by decide)
theorem witness_FxdecOfNarrowWidthsIsExact : (sample 2 0 8).gateOpen (.ifPresent 1) = true := by decide
theorem witness_Fxdec64RoundsToNearestEven : (sample 2 0 8).gateOpen (.ifPresent 1) = true ∧
    f64Finite 0x7FEFFFFFFFFFFFFF = true := by decide
theorem witness_DecodeOfEncodeGivesTheValue : f64Finite 0x3FF0000000000000 = true ∧
    f64Value 0x3FF0000000000000 = ((128 : ℤ) : ℚ) / 2 ^ (7#8).toNat ∧ -2 ^ (16 - 1) ≤ (128 : ℤ) ∧ (128 : ℤ) < 2 ^ (16 - 1) := by
  refine ⟨by decide, ?_, by decide, by decide⟩
  rw [value_one]
  norm_num
theorem witness_EncodeOfLargeAndNegatedValues : productFits 0x4430000000000000 0 ∧
    2 ^ (52 + 16) ≤ |f64Value 0x4430000000000000 * 2 ^ (0#8).toNat| := by
  refine ⟨⟨by decide, ?_⟩, ?_⟩
  · show |f64Value 0x4430000000000000 * 2 ^ 0| < 2 ^ 1024
    rw [value_two_pow_68]
    exact lt_of_lt_of_le (by norm_num : |(2 : ℚ) ^ 68 * 2 ^ 0| < 2 ^ 69) (pow_le_pow_right₀ (by norm_num) (by norm_num))
  · rw [value_two_pow_68, show (0#8).toNat = 0 from rfl]
    norm_num
theorem witness_BitFieldCommandsComplete : (sample 2 0 8).gateOpen (.ifPresent 1) = true ∧
    (1 ≤ (32#8).toNat ∧ (0#8).toNat ≤ 31 ∧ (0#8).toNat + (32#8).toNat ≤ 32) ∧
    (1 ≤ (1#8).toNat ∧ (31#8).toNat ≤ 31 ∧ (31#8).toNat + (1#8).toNat ≤ 32) := by decide
theorem witness_InsertAndExtractLaws : fieldOk (0, 32) ∧ fieldOk (0, 16) ∧ fieldOk (16, 16) ∧ 0 + 16 ≤ 16 ∧
    [(0, 16), (16, 16)].Pairwise (fun f h : Nat × Nat => f.1 + f.2 ≤ h.1 ∨ h.1 + h.2 ≤ f.1) := by
  unfold fieldOk
  decide
theorem witness_ValueMinusOneCommandsComplete : (sample 2 0 8).gateOpen (.ifPresent 1) = true := by decide
theorem witness_ValueMinusOneLaws : (0xFFFF ≤ 0xFFFF ∧ 63 ≤ 63) ∧ m1Encode 16 (m1Decode 16 0xFFFE) = 0xFFFF := by decide
theorem witness_GainIsPackedAndUnpacked : (sample 0 4 8).cur.toNat + 4 ≤ (sample 0 4 8).len.toNat := by decide
theorem witness_DeviceIdentifierIsPackedAndUnpacked : (sample 0 0 8).cur.toNat + 8 ≤ (sample 0 0 8).len.toNat := by decide
theorem witness_StoredListIsLoadedBack :
    (sample 0 0 8).cur.toNat + 4 * [1#32, 2#32].length ≤ (sample 0 0 8).len.toNat := by decide
theorem witness_CalExampleBytes : (sample 0 0 12).cur.toNat + 12 ≤ (sample 0 0 12).len.toNat := by decide
theorem witness_CalIsPackedAndUnpacked : (CalLists.mk [1] [2] [] [3] (some [4])).wf = true ∧
    (sample 0 0 24).cur.toNat + (8 + 4 * calCount 1 1 0 1 true) ≤ (sample 0 0 24).len.toNat := by decide
theorem witness_OverlayOrsIntoTheWord : (4#32).toNat + 4 ≤ (sample 0 0 8).len.toNat := by decide
theorem witness_SectorStepScanIsPackedAndUnpacked :
    (SectorStepScan.mk [0, 1] 0xFFF [] [List.replicate 80 7]).wf 6 = true ∧
    (sample 0 0 86).cur.toNat + ((6#32).toNat + 80 * [List.replicate 80 (7#8)].length) ≤ (sample 0 0 86).len.toNat ∧
    (fun (b : List Byte) (_ : Word) (_ : List Byte) => ((b[1]?).getD 0).setWidth 32) [0, 1] 0 [] = (1 : Word) := by decide
theorem witness_GpsPayloadIsCutOrPadded : (sample 0 0 8).cur.toNat + 4 * 2 ≤ (sample 0 0 8).len.toNat ∧
    ¬ (sample 0 9 8).cur.toNat + 4 * 0 ≤ (sample 0 9 8).len.toNat := by decide

end Sys2Proof.Tests
end

section
/-! SUPPORT. What one command can do to the state, said once (spec/30_encoding.md R77): `exec` is the skeleton around the
command's own rule, and a rule that runs commits one of five writes or none. -/

namespace Sys2Proof.Machine

/-- The own rule of a command, stage 3 of R77. -/
def ownRule : Instr → Effect
  | .bufset _ len => fun s => .ok ({ s with len := len, cur := 0 }, 0)
  | .lenget _ => answer fun s => zext s.len
  | .curset _ off => fun s => .ok ({ s with cur := off }, 0)
  | .curget _ => answer fun s => zext s.cur
  | .iwset _ word => fun s => .ok ({ s with iw := word }, 0)
  | .iwget _ => answer fun s => zext s.iw
  | .bmpack _ shape flags => answer fun _ => zext (packShape (shapeEntries shape) flags)
  | .bmunpack _ shape word => answer fun _ => zext (unpackShape (shapeEntries shape) word)
  | .bmor _ pos word flag => answer fun _ => zext (orBit word pos.toNat (flag.getLsbD 0))
  | .bmtst _ pos word => answer fun _ => if testBit word pos.toNat then 1 else 0
  | .evpack _ enables values => answer fun _ => zext (packPairs Config.evPos enables values)
  | .evunpack _ word => answer fun _ => zext (unpackValues Config.evPos word ++ unpackEnables Config.evPos word)
  | .fxenc16 _ radix value => answer fun _ => sext (fxEncode 16 value radix)
  | .fxenc32 _ radix value => answer fun _ => sext (fxEncode 32 value radix)
  | .fxenc64 _ radix value => answer fun _ => sext (fxEncode 64 value radix)
  | .fxdec16 _ radix raw => answer fun _ => fxDecode 16 raw radix
  | .fxdec32 _ radix raw => answer fun _ => fxDecode 32 raw radix
  | .fxdec64 _ radix raw => answer fun _ => fxDecode 64 raw radix
  | .bfins _ off width word value => answer fun _ => zext (insertField off.toNat width.toNat word value)
  | .bfext _ off width word => answer fun _ => zext (extractField off.toNat width.toNat word)
  | .m1enc _ width value => answer fun _ => BitVec.ofNat 64 (m1Encode width.toNat value.toNat)
  | .m1dec _ width stored =>
    answer fun _ => BitVec.ofNat 64 (m1Decode width.toNat (stored.toNat % 2 ^ width.toNat))
  | .stbe _ n addr value => storeRule n.toNat addr value
  | .ldbe _ n addr => loadRule n.toNat addr
  | .vsize _ base count stride => answer fun _ => BitVec.ofNat 64 (vsizeOf base count stride)
  | .chksz _ addr size => checkRule .bufferTooShort addr size
  | .chkvl _ addr size => checkRule .inconsistentLength addr size

/-- Every command is the skeleton of R77 around its own rule, with R67's check and the gate it carries. -/
theorem exec_eq_perform (i : Instr) (s : State) : exec i s = perform i.wf i.gate (ownRule i) s := by
  cases i <;> rfl

/-- Everything a command can do: end abnormally with nothing changed, or commit what its own rule answers. -/
theorem exec_cases {i : Instr} {s t : State} (h : exec i s = .next t) :
    (∃ st, t = s.raise st) ∨
    (i.wf = true ∧ s.gateOpen i.gate = true ∧ ∃ u r, ownRule i s = .ok (u, r) ∧ t = u.respond r) := by
  rw [exec_eq_perform] at h
  rcases perform_cases h with ⟨-, ht⟩ | ⟨-, -, ht⟩ | ⟨-, -, e, -, ht⟩ | hok
  · exact .inl ⟨_, ht⟩
  · exact .inl ⟨_, ht⟩
  · exact .inl ⟨_, ht⟩
  · exact .inr hok

/-- The state a command's own rule commits from `s`, before the response is added (R20): the five writers of state,
with the bounds check a buffer access has passed (R42, R43), and the commands that write nothing. -/
inductive Commits (s : State) : Instr → State → Prop
  | iwset (g : Gate) (w : Word) : Commits s (.iwset g w) { s with iw := w }
  | bufset (g : Gate) (l : Word) : Commits s (.bufset g l) { s with len := l, cur := 0 }
  | curset (g : Gate) (o : Word) : Commits s (.curset g o) { s with cur := o }
  | stbe (g : Gate) (n : Byte) (x : AddrOperand) (v : DWord) (fits : s.ea x + n.toNat ≤ s.len.toNat) :
      Commits s (.stbe g n x v)
        (({ s with buf := s.buf.storeBE (s.ea x) (lowBytes n.toNat v) n.toNat } : State).advance x n.toNat)
  | ldbe (g : Gate) (n : Byte) (x : AddrOperand) (fits : s.ea x + n.toNat ≤ s.len.toNat) :
      Commits s (.ldbe g n x) (s.advance x n.toNat)
  | nothing (i : Instr) : Commits s i s

theorem checkRule_eq_ok {e : CommandError} {x : AddrOperand} {size : DWord} {s u : State} {r : DWord}
    (h : checkRule e x size s = .ok (u, r)) : u = s := by
  rcases checkRule_cases e x size s with ⟨-, hc⟩ | ⟨-, hc⟩ <;> cases hc.symm.trans h
  rfl

theorem storeRule_eq_ok {n : Nat} {x : AddrOperand} {v : DWord} {s u : State} {r : DWord}
    (h : storeRule n x v s = .ok (u, r)) : s.ea x + n ≤ s.len.toNat ∧
      u = ({ s with buf := s.buf.storeBE (s.ea x) (lowBytes n v) n } : State).advance x n := by
  rcases storeRule_cases n x v s with ⟨fits, hc⟩ | ⟨-, hc⟩ <;> cases hc.symm.trans h
  exact ⟨fits, rfl⟩

theorem loadRule_eq_ok {n : Nat} {x : AddrOperand} {s u : State} {r : DWord} (h : loadRule n x s = .ok (u, r)) :
    s.ea x + n ≤ s.len.toNat ∧ u = s.advance x n := by
  rcases loadRule_cases n x s with ⟨fits, hc⟩ | ⟨-, hc⟩ <;> cases hc.symm.trans h
  exact ⟨fits, rfl⟩

/-- A rule that runs without an error commits one of the writes of `Commits`. -/
theorem commits_of_ownRule {i : Instr} {s u : State} {r : DWord} (h : ownRule i s = .ok (u, r)) : Commits s i u := by
  cases i
  case iwset g w => cases h; exact .iwset g w
  case bufset g l => cases h; exact .bufset g l
  case curset g o => cases h; exact .curset g o
  case stbe g n x v =>
    obtain ⟨fits, rfl⟩ := storeRule_eq_ok h
    exact .stbe g n x v fits
  case ldbe g n x =>
    obtain ⟨fits, rfl⟩ := loadRule_eq_ok h
    exact .ldbe g n x fits
  case chksz => exact checkRule_eq_ok h ▸ .nothing _
  case chkvl => exact checkRule_eq_ok h ▸ .nothing _
  all_goals
    cases h
    exact .nothing _

/-- What a command can do, in terms of the state it commits. -/
theorem exec_commits {i : Instr} {s t : State} (h : exec i s = .next t) :
    (∃ st, t = s.raise st) ∨ (i.wf = true ∧ ∃ u r, Commits s i u ∧ t = u.respond r) := by
  rcases exec_cases h with hraise | ⟨hwf, -, u, r, hrule, ht⟩
  · exact .inl hraise
  · exact .inr ⟨hwf, u, r, commits_of_ownRule hrule, ht⟩

end Sys2Proof.Machine
end

section
/-! The invariant of the block is kept by every step (spec/10_state.md R25, R27; spec/20_memory.md R49). -/

namespace Sys2Proof.Machine

/-- The invariant speaks of BUF and LEN alone. -/
theorem State.Inv.of_eq {s t : State} (h : s.Inv) (hbuf : t.buf = s.buf) (hlen : t.len = s.len) : t.Inv where
  canonical := hbuf ▸ h.canonical
  lenWithin := hlen ▸ h.lenWithin
  bytesWithin := hbuf ▸ h.bytesWithin

/-- A store that passed its bounds check lies inside LEN, and so inside BUF_CAP (R43, R188). -/
theorem State.Inv.storeBE {s : State} (h : s.Inv) {a n : Nat} (v : Nat) (fits : a + n ≤ s.len.toNat) :
    ({ s with buf := s.buf.storeBE a v n } : State).Inv where
  canonical := Memory.wf_storeBE a v n h.canonical
  lenWithin := h.lenWithin
  bytesWithin c hc := by
    rcases Memory.mem_storeBE hc with ⟨-, hlt⟩ | hmem
    · exact hlt.trans_le (fits.trans h.lenWithin)
    · exact h.bytesWithin c hmem

/-- A host write inside the buffer memory keeps the invariant, whatever LEN is (R48, R49). -/
theorem State.Inv.put {s : State} (h : s.Inv) {a : Nat} (b : Byte) (ha : a < Config.bufCap) :
    ({ s with buf := s.buf.put a b } : State).Inv where
  canonical := Memory.wf_put a b h.canonical
  lenWithin := h.lenWithin
  bytesWithin c hc := by
    rcases Memory.mem_put hc with rfl | hmem
    · exact ha
    · exact h.bytesWithin c hmem

theorem State.Inv.afterReset (s : State) : s.afterReset.Inv where
  canonical := reset_buf_wf
  lenWithin := Nat.zero_le _
  bytesWithin := by simp

/-- Only BUFSET writes LEN, and R67's check keeps its operand within BUF_CAP; only STBE writes BUF. -/
theorem Commits.inv {s u : State} {i : Instr} (h : Commits s i u) (hwf : i.wf = true) (hs : s.Inv) : u.Inv := by
  cases h with
  | iwset g w => exact hs.of_eq rfl rfl
  | bufset g l => exact ⟨hs.canonical, of_decide_eq_true hwf, hs.bytesWithin⟩
  | curset g o => exact hs.of_eq rfl rfl
  | stbe g n x v fits => exact (hs.storeBE _ fits).of_eq (State.advance_buf ..) (State.advance_len ..)
  | ldbe g n x fits => exact hs.of_eq (State.advance_buf ..) (State.advance_len ..)
  | nothing => exact hs

theorem State.Inv.exec {i : Instr} {s t : State} (hs : s.Inv) (h : exec i s = .next t) : t.Inv := by
  rcases exec_commits h with ⟨st, rfl⟩ | ⟨hwf, u, r, hu, rfl⟩
  · exact hs.of_eq rfl rfl
  · exact (hu.inv hwf hs).of_eq rfl rfl

theorem State.Inv.runWord {w : CommandWord} {s t : State} (hs : s.Inv) (h : runWord w s = .next t) : t.Inv := by
  cases hd : decode w with
  | command i => exact hs.exec (runWord_command hd s ▸ h)
  | illegal why =>
    cases (runWord_illegal hd s).symm.trans h
    exact hs.of_eq rfl rfl

/-- Every action of the outside that the block serves keeps the invariant; an access beyond BUF_CAP is not served. -/
theorem State.Inv.serve {a : HostAction} {s t : State} (hs : s.Inv) (h : serve a s = .next t) : t.Inv := by
  cases a with
  | command w => exact hs.runWord h
  | writeByte addr b =>
    rcases hostWrite_cases addr b s with ⟨hlt, hw⟩ | ⟨-, hw⟩ <;> cases hw.symm.trans h
    exact hs.put b hlt
  | readByte addr =>
    rcases hostRead_cases addr s with ⟨-, hr⟩ | ⟨-, hr⟩ <;> cases hr.symm.trans h
    exact hs.of_eq rfl rfl
  | reset =>
    cases h
    exact State.Inv.afterReset s

/-- Settles O16: a step idles or serves one action of the host, and both keep the invariant. -/
theorem stepKeepsSoundness : Obligations.StepKeepsSoundness := by
  intro s t hs h
  cases hhost : s.host with
  | nil =>
    cases (step_idle hhost).symm.trans h
    exact hs
  | cons a rest =>
    have hrest : ({ s with host := rest } : State).Inv := hs.of_eq rfl rfl
    exact hrest.serve ((step_serves hhost).symm.trans h)

end Sys2Proof.Machine
end

section
/-! Which command writes which piece of state (spec/10_state.md R20, R23, R24, R25, R27). -/

namespace Sys2Proof.Machine

section Writers

variable {s u : State} {i : Instr}

theorem Commits.iw_writer (h : Commits s i u) (hne : u.iw ≠ s.iw) : ∃ g w, i = .iwset g w := by
  cases h with
  | iwset g w => exact ⟨g, w, rfl⟩
  | stbe | ldbe => simp at hne
  | bufset | curset | nothing => exact absurd rfl hne

theorem Commits.len_writer (h : Commits s i u) (hne : u.len ≠ s.len) : ∃ g l, i = .bufset g l := by
  cases h with
  | bufset g l => exact ⟨g, l, rfl⟩
  | stbe | ldbe => simp at hne
  | iwset | curset | nothing => exact absurd rfl hne

/-- Post-modification moves CUR in cursor mode only (R135). -/
theorem State.advance_cur_writer {x : AddrOperand} {n : Nat} (hne : (s.advance x n).cur ≠ s.cur) : x = .cursor := by
  cases x with
  | absolute a => exact absurd rfl hne
  | cursor => rfl

theorem Commits.cur_writer (h : Commits s i u) (hne : u.cur ≠ s.cur) :
    (∃ g l, i = .bufset g l) ∨ (∃ g o, i = .curset g o) ∨ (∃ g n v, i = .stbe g n .cursor v) ∨
      (∃ g n, i = .ldbe g n .cursor) := by
  cases h with
  | bufset g l => exact .inl ⟨g, l, rfl⟩
  | curset g o => exact .inr (.inl ⟨g, o, rfl⟩)
  | stbe g n x v =>
    obtain rfl := State.advance_cur_writer hne
    exact .inr (.inr (.inl ⟨g, n, v, rfl⟩))
  | ldbe g n x =>
    obtain rfl := State.advance_cur_writer hne
    exact .inr (.inr (.inr ⟨g, n, rfl⟩))
  | iwset | nothing => exact absurd rfl hne

theorem Commits.buf_writer (h : Commits s i u) (hne : u.buf ≠ s.buf) : ∃ g n x v, i = .stbe g n x v := by
  cases h with
  | stbe g n x v => exact ⟨g, n, x, v, rfl⟩
  | ldbe => simp at hne
  | iwset | bufset | curset | nothing => exact absurd rfl hne

/-- No rule touches what the model adds for resets and the host. -/
theorem Commits.keeps_model_fields (h : Commits s i u) :
    u.epoch = s.epoch ∧ u.host = s.host ∧ u.hostByte = s.hostByte := by
  cases h with
  | stbe | ldbe => simp
  | iwset | bufset | curset | nothing => exact ⟨rfl, rfl, rfl⟩

end Writers

/-- Settles O13: an abnormal end changes none of these fields, and what a rule commits is read off `Commits`. -/
theorem onlyItsWritersChangeAPieceOfState : Obligations.OnlyItsWritersChangeAPieceOfState := by
  intro i s t h
  rcases exec_commits h with ⟨st, rfl⟩ | ⟨-, u, r, hu, rfl⟩
  · simp
  · exact ⟨hu.iw_writer, hu.len_writer, hu.cur_writer, hu.buf_writer, hu.keeps_model_fields⟩

end Sys2Proof.Machine
end

section
/-! The canonical form of BUF decides equality of contents (log entry 3; spec/10_state.md R27). -/

namespace Sys2Proof.Machine

/-- In a canonical memory an address is listed at most once, so the cell found first is the only one. -/
theorem Memory.cell?_eq_some_iff {m : Memory} (h : Memory.wf m = true) (a : Nat) (b : Byte) :
    Memory.cell? m a = some b ↔ (a, b) ∈ m := by
  rw [Memory.wf_iff] at h
  induction m with
  | nil => simp [Memory.cell?]
  | cons c rest ih =>
    obtain ⟨k, v⟩ := c
    obtain ⟨hk, hrest⟩ := List.pairwise_cons.1 h
    by_cases hak : a = k
    · subst a
      have hfresh : (k, b) ∉ rest := fun hmem => (hk k (List.mem_map_of_mem hmem)).false
      simp [Memory.cell?, hfresh, eq_comm]
    · simp [Memory.cell?, hak, ih hrest]

/-- Settles O21: equal cells are equal members, and two lists in strict order with the same members are equal. -/
theorem canonicalMemoriesWithEqualCellsAreEqual : Obligations.CanonicalMemoriesWithEqualCellsAreEqual := by
  intro m k hm hk hcells
  have hmem : ∀ c : Host.Cell, c ∈ m ↔ c ∈ k := fun ⟨a, b⟩ => by
    rw [← Memory.cell?_eq_some_iff hm, ← Memory.cell?_eq_some_iff hk, hcells]
  have hsorted {l : Memory} (hl : Memory.wf l = true) : l.Pairwise (Prod.fst ⁻¹'o (· < ·)) :=
    (List.pairwise_map (f := Prod.fst) (R := (· < ·))).1 ((Memory.wf_iff l).1 hl)
  exact (hsorted hm).eq_of_mem_iff (hsorted hk) hmem

end Sys2Proof.Machine
end

section
/-! The buffer memory (spec/20_memory.md R41 to R48): the bytes a load reads and a store writes, and the big-endian number
that stands in them. -/

namespace Sys2Proof.Machine

/-! ## What one write does to every byte -/

/-- A byte inside the range of a store reads as its byte of the value, most significant first (R43). -/
theorem State.byteAt_storeBE_inside (s : State) (a v : Nat) {n k : Nat} (hk : k < n) :
    ({ s with buf := s.buf.storeBE a v n } : State).byteAt (a + k) = BitVec.ofNat 8 (v / 2 ^ (8 * (n - 1 - k))) := by
  rw [State.byteAt_storeBE, if_pos (by omega), Nat.add_sub_cancel_left]

theorem State.byteAt_storeBE_outside (s : State) (v : Nat) {a n x : Nat} (h : ¬ covers a n x) :
    ({ s with buf := s.buf.storeBE a v n } : State).byteAt x = s.byteAt x := by
  rw [covers] at h
  rw [State.byteAt_storeBE, if_neg h]

/-- What every byte reads as in a state whose memory is that of `s` with one byte written (R46, R48). -/
theorem State.byteAt_of_put {s u : State} {a : Nat} {b : Byte} (hbuf : u.buf = s.buf.put a b)
    (hepoch : u.epoch = s.epoch) (x : Nat) : u.byteAt x = if x = a then b else s.byteAt x := by
  simp only [State.byteAt, hbuf, hepoch, Memory.cell?_put]
  split <;> rfl

/-! ## The number in a range of bytes -/

/-- The recursion over the bytes is the sum of R42. -/
theorem State.loadBE_eq_sum (s : State) (a n : Nat) :
    s.loadBE a n = ∑ k ∈ Finset.range n, (s.byteAt (a + k)).toNat * 2 ^ (8 * (n - 1 - k)) := by
  induction n generalizing a with
  | zero => rfl
  | succ n ih =>
    have htail : ∀ k, (s.byteAt (a + 1 + k)).toNat * 2 ^ (8 * (n - 1 - k)) =
        (s.byteAt (a + (k + 1))).toNat * 2 ^ (8 * (n + 1 - 1 - (k + 1))) := fun k => by
      rw [show a + 1 + k = a + (k + 1) by omega, show n - 1 - k = n + 1 - 1 - (k + 1) by omega]
    rw [Finset.sum_range_succ', State.loadBE, ih, Finset.sum_congr rfl fun k _ => htail k, Nat.add_comm]
    rfl

/-- Bytes that hold the low `n` bytes of `v`, most significant first, load as that number. -/
theorem State.loadBE_of_bytes {s : State} {a v n : Nat}
    (h : ∀ k < n, s.byteAt (a + k) = BitVec.ofNat 8 (v / 2 ^ (8 * (n - 1 - k)))) : s.loadBE a n = v % 2 ^ (8 * n) := by
  induction n generalizing a with
  | zero => simp [State.loadBE, Nat.mod_one]
  | succ n ih =>
    have hhead : s.byteAt a = BitVec.ofNat 8 (v / 2 ^ (8 * n)) := h 0 n.succ_pos
    have htail : s.loadBE (a + 1) n = v % 2 ^ (8 * n) := ih fun k hk => by
      rw [show a + 1 + k = a + (k + 1) by omega, h (k + 1) (by omega), show n + 1 - 1 - (k + 1) = n - 1 - k by omega]
    rw [State.loadBE, hhead, htail, BitVec.toNat_ofNat, Nat.mul_succ, Nat.pow_add, Nat.mod_mul,
      Nat.add_comm, Nat.mul_comm (2 ^ (8 * n))]

/-- Storing and loading the same range gives the low bytes of the value (R41, R46). -/
theorem State.loadBE_storeBE (s : State) (a v n : Nat) :
    ({ s with buf := s.buf.storeBE a v n } : State).loadBE a n = v % 2 ^ (8 * n) :=
  State.loadBE_of_bytes fun _ hk => s.byteAt_storeBE_inside a v hk

/-- A one-byte load, zero-extended, is the byte. -/
theorem State.ofNat_loadBE_one (s : State) (a : Nat) : BitVec.ofNat 64 (s.loadBE a 1) = (s.byteAt a).setWidth 64 := by
  simp [State.loadBE]

/-- A byte cut out of a 64-bit pattern is a quotient of the number it stands for. -/
theorem extractLsb'_byte_ofNat {v : Nat} (hv : v < 2 ^ 64) (p : Nat) :
    (BitVec.ofNat 64 v).extractLsb' p 8 = BitVec.ofNat 8 (v / 2 ^ p) := by
  apply BitVec.eq_of_toNat_eq
  rw [BitVec.extractLsb'_toNat, BitVec.toNat_ofNat, Nat.mod_eq_of_lt hv, Nat.shiftRight_eq_div_pow, BitVec.toNat_ofNat]

/-! ## The checked accesses (R42, R43) -/

section Accesses

variable {s : State} {ea n v : Nat}

theorem memRead_of_fits (h : ea + n ≤ s.len.toNat) : memRead ea n s = .ok (s.loadBE ea n) :=
  if_pos ((inside_iff s ea n).2 h)

theorem memRead_of_overrun (h : s.len.toNat < ea + n) : memRead ea n s = .error .bufferTooShort :=
  if_neg (mt (inside_iff s ea n).1 h.not_ge)

theorem memWrite_of_fits (h : ea + n ≤ s.len.toNat) : memWrite ea n v s = .ok { s with buf := s.buf.storeBE ea v n } :=
  if_pos ((inside_iff s ea n).2 h)

theorem memWrite_of_overrun (h : s.len.toNat < ea + n) : memWrite ea n v s = .error .bufferTooShort :=
  if_neg (mt (inside_iff s ea n).1 h.not_ge)

end Accesses

/-- Settles O24: the check decides the branch, and the load is the sum of R42 for every `n`. -/
theorem memReadIsBigEndian : Obligations.MemReadIsBigEndian := by
  intro ea n s _
  refine ⟨memRead_of_overrun, fun hfits => ?_⟩
  rw [memRead_of_fits hfits, State.loadBE_eq_sum]

/-- Settles O25: the check decides the branch, and what every byte reads as after the store is known. -/
theorem memWriteIsBigEndian : Obligations.MemWriteIsBigEndian := by
  intro ea n v s hn hv
  have hv64 : v < 2 ^ 64 := hv.trans_le (Nat.pow_le_pow_right two_pos (by omega))
  refine ⟨memWrite_of_overrun, fun hfits => ⟨_, memWrite_of_fits hfits, rfl, fun k hk => ?_, fun a ha => ?_⟩⟩
  · rw [extractLsb'_byte_ofNat hv64, State.byteAt_storeBE_inside s ea v hk, Nat.sub_right_comm]
  · exact State.byteAt_storeBE_outside s v ha

/-! ## The commands that access the buffer (R140, R141) -/

theorem byteCountOk_of_accessWidth {n : Byte} (h : Claims.accessWidth n) : byteCountOk n = true := by
  rcases h with rfl | rfl | rfl | rfl <;> rfl

section Commands

variable {g : Gate} {n : Byte} {x : AddrOperand} {s : State}

/-- A store that is not skipped and fits commits its bytes and its cursor, and answers 0. -/
theorem exec_stbe_of_fits (hg : s.gateOpen g = true) (hn : Claims.accessWidth n) (v : DWord)
    (hfits : s.ea x + n.toNat ≤ s.len.toNat) : exec (.stbe g n x v) s =
      .next ((({ s with buf := s.buf.storeBE (s.ea x) (lowBytes n.toNat v) n.toNat } : State).advance x n.toNat).respond
        0) := by
  rw [exec_eq_perform, show (Instr.stbe g n x v).wf = true from byteCountOk_of_accessWidth hn]
  rcases storeRule_cases n.toNat x v s with ⟨-, hok⟩ | ⟨hover, -⟩
  · exact perform_ok hg hok
  · omega

/-- A load that is not skipped and fits commits its cursor, and answers the number in its bytes. -/
theorem exec_ldbe_of_fits (hg : s.gateOpen g = true) (hn : Claims.accessWidth n)
    (hfits : s.ea x + n.toNat ≤ s.len.toNat) : exec (.ldbe g n x) s =
      .next ((s.advance x n.toNat).respond (BitVec.ofNat 64 (s.loadBE (s.ea x) n.toNat))) := by
  rw [exec_eq_perform, show (Instr.ldbe g n x).wf = true from byteCountOk_of_accessWidth hn]
  rcases loadRule_cases n.toNat x s with ⟨-, hok⟩ | ⟨hover, -⟩
  · exact perform_ok hg hok
  · omega

/-- An absolute load of one byte inside the buffer answers the byte. -/
theorem exec_ldbe_one {a : Word} {b : Byte} (hfits : a.toNat + 1 ≤ s.len.toNat) (hb : s.byteAt a.toNat = b) :
    exec (.ldbe .always 1 (.absolute a)) s = .next (s.respond (b.setWidth 64)) := by
  rw [← hb, ← State.ofNat_loadBE_one]
  exact exec_ldbe_of_fits rfl (.inl rfl) hfits

end Commands

/-- The response is no part of what a load reads. -/
theorem State.respond_loadBE (s : State) (r : DWord) (a n : Nat) : (s.respond r).loadBE a n = s.loadBE a n := by
  simp only [State.loadBE_eq_sum, State.respond_byteAt]

/-- Settles O28: the store leaves LEN, so the load passes the same check, and it reads the range just stored. -/
theorem loadAfterStoreGivesTheValue : Obligations.LoadAfterStoreGivesTheValue := by
  intro n a v s t hn hfits hstore
  rw [exec_stbe_of_fits (x := .absolute a) rfl hn v hfits] at hstore
  cases hstore
  refine ⟨_, exec_ldbe_of_fits (x := .absolute a) rfl hn hfits, ?_⟩
  have hload : (({ s with buf := s.buf.storeBE a.toNat (lowBytes n.toNat v) n.toNat } : State).respond 0).loadBE
      a.toNat n.toNat = v.toNat % 2 ^ (8 * n.toNat) := by
    rw [State.respond_loadBE, State.loadBE_storeBE, lowBytes, Nat.mod_mod]
  calc _ = v.toNat % 2 ^ (8 * n.toNat) % 2 ^ 64 := congrArg (· % 2 ^ 64) hload
    _ = v.toNat % 2 ^ (8 * n.toNat) := Nat.mod_eq_of_lt ((Nat.mod_le _ _).trans_lt v.isLt)

/-! ## Who changes a byte -/

/-- Only STBE commits a byte, and only inside its range. -/
theorem Commits.byteAt_eq {s u : State} {i : Instr} {a : Nat} (h : Commits s i u)
    (hout : ∀ g n x v, i = .stbe g n x v → ¬ covers (s.ea x) n.toNat a) : u.byteAt a = s.byteAt a := by
  cases h with
  | stbe g n x v =>
    rw [State.advance_byteAt]
    exact State.byteAt_storeBE_outside s _ (hout g n x v rfl)
  | ldbe => exact State.advance_byteAt ..
  | iwset | bufset | curset | nothing => rfl

/-- Settles O14: an abnormal end changes no byte, and what a rule commits is read off `Commits`. -/
theorem onlyAStoredByteChanges : Obligations.OnlyAStoredByteChanges := by
  intro i s t a h hout
  rcases exec_commits h with ⟨st, rfl⟩ | ⟨-, u, r, hu, rfl⟩
  · exact State.raise_byteAt s st a
  · exact (State.respond_byteAt u r a).trans (hu.byteAt_eq hout)

/-! ## The host's accesses (R48) -/

theorem step_writeByte {s : State} {a : Word} {b : Byte} {rest : List HostAction} (h : s.host = .writeByte a b :: rest)
    (ha : a.toNat < Config.bufCap) : step s = .next { s with buf := s.buf.put a.toNat b, host := rest } :=
  (step_serves h).trans (if_pos ha)

theorem step_readByte {s : State} {a : Word} {rest : List HostAction} (h : s.host = .readByte a :: rest)
    (ha : a.toNat < Config.bufCap) : step s = .next { s with hostByte := some (s.byteAt a.toNat), host := rest } :=
  (step_serves h).trans (if_pos ha)

/-- Settles O32: the byte is put whatever LEN is; the host's read and a load inside LEN both read it there. -/
theorem hostWriteIsSeenByLoadAndHostRead : Obligations.HostWriteIsSeenByLoadAndHostRead := by
  intro s a b rest hhost ha
  obtain ⟨t, ht⟩ : ∃ t : State, t = { s with buf := s.buf.put a.toNat b, host := .readByte a :: rest } := ⟨_, rfl⟩
  have hwrite : step s = .next t := ht ▸ step_writeByte hhost ha
  have hbyte : ∀ x, t.byteAt x = if x = a.toNat then b else s.byteAt x :=
    State.byteAt_of_put (by rw [ht]) (by rw [ht])
  have hwritten : t.byteAt a.toNat = b := (hbyte _).trans (if_pos rfl)
  have hread : step t = .next { t with hostByte := some b, host := rest } := by
    rw [step_readByte (by rw [ht]) ha, hwritten]
  obtain ⟨hiw, hcur, hlen⟩ : t.iw = s.iw ∧ t.cur = s.cur ∧ t.len = s.len := by simp [ht]
  exact ⟨t, _, hwrite, hread, rfl, fun hfits => exec_ldbe_one (hlen.symm ▸ hfits) hwritten, hwritten,
    fun x hx => (hbyte x).trans (if_neg hx), hiw, hcur, hlen, rfl⟩

end Sys2Proof.Machine
end

section
/-! The command word (spec/30_encoding.md R60 to R68, R75): encoding and decoding undo each other, and which words are no
command. -/

namespace Sys2Proof

/-! ## Reading the fields that were encoded (R64, R75) -/

/-- A value that was zero-extended into a field is read back from its low bits. -/
theorem extractLsb'_zero_setWidth {n m : Nat} (h : n ≤ m) (v : BitVec n) : (v.setWidth m).extractLsb' 0 n = v := by
  rw [BitVec.extractLsb'_setWidth_of_le (by omega), BitVec.extractLsb'_eq_self]

/-- Zero-extending what was read from the low bits of a field clears the other bits of the field. -/
theorem setWidth_extractLsb'_zero {m : Nat} (v : BitVec m) (n : Nat) :
    (v.extractLsb' 0 n).setWidth m = v &&& BitVec.ofNat m (2 ^ n - 1) := by
  apply BitVec.eq_of_getLsbD_eq
  intro i hi
  simp only [BitVec.getLsbD_and, BitVec.getLsbD_ofNat, Nat.testBit_two_pow_sub_one, BitVec.getLsbD_setWidth,
    BitVec.getLsbD_extractLsb', hi, decide_true, Bool.true_and, Nat.zero_add, Bool.and_comm]

/-- Two parts of a word that lie side by side are one part; the places are explicit, so that it rewrites numerals. -/
theorem extractLsb'_append_extractLsb' {m : Nat} (v : BitVec m) (start high low : Nat) :
    v.extractLsb' (start + low) high ++ v.extractLsb' start low = v.extractLsb' start (high + low) :=
  BitVec.extractLsb'_append_extractLsb'_eq_extractLsb' rfl

section Rows

variable (op a b : BitVec 8) (ge cm g5 : BitVec 1) (gp : BitVec 5) (aux : BitVec 32) (data : BitVec 64)

@[simp] theorem Fields.gate_mk (g : Gate) : (Fields.mk op a b g.geBits cm g5 g.gpBits aux data).gate = g :=
  gate_of_bits g _ rfl rfl

@[simp] theorem Fields.addr_mk (x : AddrOperand) : (Fields.mk op a b ge x.cmBits g5 gp x.auxBits data).addr = x :=
  addr_of_bits x _ rfl rfl

@[simp] theorem Fields.word_mk (v : Word) : (Fields.mk op a b ge cm g5 gp aux (v.setWidth 64)).word = v :=
  extractLsb'_zero_setWidth (by decide) v

end Rows

/-- The row of every encoded command is the command. -/
theorem readFields_encodeFields (i : Instr) : readFields (encodeFields i) = some i := by
  have hflag (v : BitVec 1) : (v.setWidth 32).extractLsb' 0 1 = v := extractLsb'_zero_setWidth (by decide) v
  have hlow16 (v : BitVec 16) : (v.setWidth 64).extractLsb' 0 16 = v := extractLsb'_zero_setWidth (by decide) v
  have hlow32 (v : BitVec 32) : (v.setWidth 64).extractLsb' 0 32 = v := extractLsb'_zero_setWidth (by decide) v
  cases i with
  | evpack g enables values =>
    have hlow : ((values ++ enables).setWidth 64).extractLsb' 0 8 = enables :=
      (BitVec.extractLsb'_setWidth_of_le (by decide)).trans BitVec.extractLsb'_append_eq_right
    have hhigh : ((values ++ enables).setWidth 64).extractLsb' 8 8 = values :=
      (BitVec.extractLsb'_setWidth_of_le (by decide)).trans BitVec.extractLsb'_append_eq_left
    simp only [encodeFields, Gate.fields, readFields, Fields.gate_mk, hlow, hhigh]
  | vsize g base count stride =>
    simp only [encodeFields, Gate.fields, readFields, Fields.gate_mk, BitVec.extractLsb'_append_eq_right,
      BitVec.extractLsb'_append_eq_left]
  | _ =>
    simp only [encodeFields, Gate.fields, readFields, Fields.gate_mk, Fields.addr_mk, Fields.word_mk, hflag, hlow16,
      hlow32]

/-! ## The decoder in terms of the row that `op` chooses (R65) -/

theorem decode_eq_command_iff {w : CommandWord} {i : Instr} :
    decode w = .command i ↔ readFields (Fields.ofWord w) = some i ∧ i.wf = true := by
  rcases decode_cases w with ⟨hr, hd⟩ | ⟨j, hr, hj, hd⟩ | ⟨j, hr, hj, hd⟩
  · simp [hr, hd]
  · simp only [hr, hd, reduceCtorEq, Option.some.injEq, false_iff]
    rintro ⟨rfl, hwf⟩
    exact Bool.false_ne_true (hj.symm.trans hwf)
  · simp only [hr, hd, Decoded.command.injEq, Option.some.injEq]
    exact ⟨fun h => ⟨h, h ▸ hj⟩, And.left⟩

theorem decode_eq_unassignedOp_iff {w : CommandWord} :
    (∃ op, decode w = .illegal (.unassignedOp op)) ↔ readFields (Fields.ofWord w) = none := by
  rcases decode_cases w with ⟨hr, hd⟩ | ⟨i, hr, -, hd⟩ | ⟨i, hr, -, hd⟩ <;> simp [hr, hd]

theorem decode_eq_operandOutOfRange_iff {w : CommandWord} :
    (∃ i, decode w = .illegal (.operandOutOfRange i)) ↔ ∃ i, readFields (Fields.ofWord w) = some i ∧ i.wf = false := by
  rcases decode_cases w with ⟨hr, hd⟩ | ⟨i, hr, hwf, hd⟩ | ⟨i, hr, hwf, hd⟩
  · simp [hr, hd]
  · simp [hr, hd, hwf]
  · simp [hr, hd, hwf]

theorem decode_encode {i : Instr} (h : i.wf = true) : decode (encode i) = .command i :=
  decode_eq_command_iff.2 ⟨(ofWord_encode i).symm ▸ readFields_encodeFields i, h⟩

theorem decode_encode_illegal {i : Instr} (h : i.wf = false) : decode (encode i) = .illegal (.operandOutOfRange i) := by
  simp [decode, readFields_encodeFields, h]


/-! ## The bits a command uses (R63) -/

open Claims

/-- The bits of `f` where `m` is 1, field by field. -/
def Fields.mask (f m : Fields) : Fields where
  op := f.op &&& m.op
  a := f.a &&& m.a
  b := f.b &&& m.b
  ge := f.ge &&& m.ge
  cm := f.cm &&& m.cm
  g5 := f.g5 &&& m.g5
  gp := f.gp &&& m.gp
  aux := f.aux &&& m.aux
  data := f.data &&& m.data

theorem Fields.toWord_mask (f m : Fields) : (f.mask m).toWord = f.toWord &&& m.toWord := by
  change _ = (_ : BitVec (8 + 8 + 8 + 1 + 1 + 1 + 5 + 32 + 64)) &&& (_ : BitVec (8 + 8 + 8 + 1 + 1 + 1 + 5 + 32 + 64))
  simp only [Fields.toWord, Fields.mask, BitVec.and_append]

theorem Fields.toWord_ofWord (w : CommandWord) : (Fields.ofWord w).toWord = w := by
  simp only [Fields.toWord, Fields.ofWord]
  rw [extractLsb'_append_extractLsb' w 112 8 8, extractLsb'_append_extractLsb' w 104 16 8,
    extractLsb'_append_extractLsb' w 103 24 1, extractLsb'_append_extractLsb' w 102 25 1,
    extractLsb'_append_extractLsb' w 101 26 1, extractLsb'_append_extractLsb' w 96 27 5,
    extractLsb'_append_extractLsb' w 64 32 32, extractLsb'_append_extractLsb' w 0 64 64]
  exact BitVec.extractLsb'_eq_self

theorem Fields.gate_geBits (f : Fields) : f.gate.geBits = f.ge := by
  obtain h | h := BitVec.eq_zero_or_eq_one f.ge <;> simp [Fields.gate, Gate.geBits, h]

theorem Fields.addr_cmBits (f : Fields) : f.addr.cmBits = f.cm := by
  obtain h | h := BitVec.eq_zero_or_eq_one f.cm <;> simp [Fields.addr, AddrOperand.cmBits, h]

/-- The bits of GP a gate uses: all of them when GE = 1 (R61). -/
def Gate.gpMask : Gate → BitVec 5
  | .always => 0
  | .ifPresent _ => 0x1F

/-- The bits of `aux` an address operand uses: all of them when CM = 0 (R61, R135). -/
def AddrOperand.auxMask : AddrOperand → Word
  | .absolute _ => 0xFFFFFFFF
  | .cursor => 0

theorem gateBits_eq (g : Gate) : gateBits g = ⟨0xFF, 0, 0, 1, 0, 0, g.gpMask, 0, 0⟩ := by
  cases g <;> rfl

theorem addrBits_eq (x : AddrOperand) (f : Fields) : addrBits x f = { f with cm := 1, aux := x.auxMask } := by
  cases x <;> rfl

theorem Fields.gate_gpBits (f : Fields) : f.gate.gpBits = f.gp &&& f.gate.gpMask := by
  unfold Fields.gate
  split
  · exact BitVec.and_allOnes.symm
  · exact BitVec.and_zero.symm

theorem Fields.addr_auxBits (f : Fields) : f.addr.auxBits = f.aux &&& f.addr.auxMask := by
  unfold Fields.addr
  split
  · exact BitVec.and_zero.symm
  · exact BitVec.and_allOnes.symm

/-- Row by row of the opcode map, the command that is read encodes back to the fields it was read from, masked to the
bits the row uses. -/
theorem encodeFields_of_readFields {f : Fields} {i : Instr} (h : readFields f = some i) :
    encodeFields i = f.mask (usedBits i) := by
  have hbit (v : BitVec 1) : v &&& 1#1 = v := BitVec.and_allOnes
  have hbyte (v : Byte) : v &&& 0xFF#8 = v := BitVec.and_allOnes
  have hword (v : Word) : v &&& 0xFFFFFFFF#32 = v := BitVec.and_allOnes
  have hdword (v : DWord) : v &&& 0xFFFFFFFFFFFFFFFF#64 = v := BitVec.and_allOnes
  have hlow1 (v : Word) : (v.extractLsb' 0 1).setWidth 32 = v &&& 1 := setWidth_extractLsb'_zero v 1
  have hlow16 (v : DWord) : (v.extractLsb' 0 16).setWidth 64 = v &&& 0xFFFF := setWidth_extractLsb'_zero v 16
  have hlow32 (v : DWord) : (v.extractLsb' 0 32).setWidth 64 = v &&& 0xFFFFFFFF := setWidth_extractLsb'_zero v 32
  have hpair (v : DWord) : (v.extractLsb' 8 8 ++ v.extractLsb' 0 8).setWidth 64 = v &&& 0xFFFF := by
    rw [← hlow16, extractLsb'_append_extractLsb' v 0 8 8]
  have hhalves (v : DWord) : v.extractLsb' 32 32 ++ v.extractLsb' 0 32 = v :=
    BitVec.extractLsb'_append_extractLsb'
  unfold readFields at h
  split at h <;> rename_i hop <;> cases h
  all_goals
    simp only [encodeFields, usedBits, Gate.fields, gateBits_eq, addrBits_eq, Fields.mask, Fields.word, hop,
      Fields.gate_geBits, Fields.gate_gpBits, Fields.addr_cmBits, Fields.addr_auxBits, hbit, hbyte, hword, hdword, hlow1,
      hlow16, hlow32, hpair, hhalves, BitVec.and_zero, BitVec.ofNat_eq_ofNat]

/-- Settles O1: the row of an encoded command is the command, and its operands pass R67's check. -/
theorem decodeOfEncodeGivesTheCommand : Obligations.DecodeOfEncodeGivesTheCommand :=
  fun _ => decode_encode

/-- Settles O2: the word is put together from its fields, and the row it chooses encodes back to their used bits. -/
theorem decodeUsesExactlyTheListedBits : Obligations.DecodeUsesExactlyTheListedBits := by
  intro w i h
  obtain ⟨hrow, -⟩ := decode_eq_command_iff.1 h
  calc encode i = ((Fields.ofWord w).mask (usedBits i)).toWord := by rw [encode, encodeFields_of_readFields hrow]
    _ = w &&& (usedBits i).toWord := by rw [Fields.toWord_mask, Fields.toWord_ofWord]

/-! ## Illegal words (R66, R67) -/

theorem lenFits_eq_false_iff {cap : Nat} {len : Word} : lenFits cap len = false ↔ cap < len.toNat := by
  simp [lenFits]

theorem shapeInRange_eq_false_iff {shape : Byte} : shapeInRange shape = false ↔ 7 < shape.toNat := by
  simp [shapeInRange]

theorem posInRange_eq_false_iff {pos : Byte} : posInRange pos = false ↔ 31 < pos.toNat := by
  simp [posInRange]

theorem fieldInWord_eq_false_iff {off width : Byte} : fieldInWord off width = false ↔
    width.toNat = 0 ∨ 32 < width.toNat ∨ 31 < off.toNat ∨ 32 < off.toNat + width.toNat := by
  simp only [fieldInWord, Bool.and_eq_false_iff, decide_eq_false_iff_not]
  omega

theorem m1WidthOk_eq_false_iff {width : Byte} : m1WidthOk width = false ↔ width.toNat ≠ 6 ∧ width.toNat ≠ 16 := by
  simp [m1WidthOk, BitVec.toNat_eq]

theorem byteCountOk_eq_false_iff {n : Byte} :
    byteCountOk n = false ↔ n.toNat ≠ 1 ∧ n.toNat ≠ 2 ∧ n.toNat ≠ 4 ∧ n.toNat ≠ 8 := by
  simp [byteCountOk, BitVec.toNat_eq, and_assoc]

/-- The opcode map has no row exactly for the values of `op` that R66 lists. -/
theorem unassignedOp_iff (f : Fields) : unassignedOp f.op.toNat ↔ readFields f = none := by
  unfold readFields
  split
  case h_28 =>
    simp only [iff_true, imp_false, BitVec.toNat_eq, BitVec.reduceToNat] at *
    unfold unassignedOp
    omega
  all_goals
    rename_i hop
    simp [unassignedOp, hop]

/-- Row by row of the opcode map, R67's table lists exactly the operands that are not well formed. -/
theorem operandOutOfRange_iff (f : Fields) : operandOutOfRange f ↔ ∃ i, readFields f = some i ∧ i.wf = false := by
  unfold readFields
  split
  case h_28 =>
    simp_all [operandOutOfRange]
  all_goals
    rename_i hop
    simp [operandOutOfRange, hop, Instr.wf, lenFits_eq_false_iff, shapeInRange_eq_false_iff, posInRange_eq_false_iff,
      fieldInWord_eq_false_iff, m1WidthOk_eq_false_iff, byteCountOk_eq_false_iff]

end Sys2Proof
end

section
/-! What a step does with an issued word (spec/30_encoding.md R62, R65 to R68, R77), and runs of any length. -/

namespace Sys2Proof.Machine

open Claims

/-- A word that is no command answers ILLEGAL_COMMAND and changes nothing, whatever its other fields are. -/
theorem step_issue_illegal {w : CommandWord} {why : Illegal} (h : decode w = .illegal why) (s : State) :
    step (s.issue w) = .next { s with response := some ⟨.illegalCommand, 0⟩ } :=
  (step_issue s w).trans (runWord_illegal h s)

theorem step_issue_command {w : CommandWord} {i : Instr} (h : decode w = .command i) (s : State) :
    step (s.issue w) = exec i s :=
  (step_issue s w).trans (runWord_command h s)

theorem exec_of_not_wf {i : Instr} (h : i.wf = false) (s : State) :
    exec i s = .next { s with response := some ⟨.illegalCommand, 0⟩ } := by
  rw [exec_eq_perform, h]
  exact perform_illegal i.gate (ownRule i) s

/-- Settles O3: a word is illegal for its `op` exactly where the opcode map has no row for it. -/
theorem unassignedOpcodeAnswersIllegal : Obligations.UnassignedOpcodeAnswersIllegal := by
  intro w s
  have hiff : unassignedOp (Fields.ofWord w).op.toNat ↔ ∃ op, decode w = .illegal (.unassignedOp op) :=
    (unassignedOp_iff _).trans decode_eq_unassignedOp_iff.symm
  refine ⟨hiff, fun h => ?_⟩
  obtain ⟨op, hd⟩ := hiff.1 h
  exact step_issue_illegal hd s

/-- Settles O4: a word is illegal for an operand exactly where its row reads an ill-formed command. -/
theorem outOfRangeOperandAnswersIllegal : Obligations.OutOfRangeOperandAnswersIllegal := by
  intro w s
  have hiff : operandOutOfRange (Fields.ofWord w) ↔ ∃ i, decode w = .illegal (.operandOutOfRange i) :=
    (operandOutOfRange_iff _).trans decode_eq_operandOutOfRange_iff.symm
  refine ⟨hiff, fun h => ?_⟩
  obtain ⟨i, hd⟩ := hiff.1 h
  exact step_issue_illegal hd s

/-- Settles O7: a legal command decodes to itself; an ill-formed one is answered as its word is. -/
theorem issuingAnEncodedCommandExecutesIt : Obligations.IssuingAnEncodedCommandExecutesIt := by
  intro i s
  cases hwf : i.wf with
  | true => exact step_issue_command (decode_encode hwf) s
  | false => exact (step_issue_illegal (decode_encode_illegal hwf) s).trans (exec_of_not_wf hwf s).symm

/-! ## Responses (R62) -/

theorem exec_answers (i : Instr) (s : State) : ∃ t, exec i s = .next t := by
  rw [exec_eq_perform]
  exact perform_answers i.wf i.gate (ownRule i) s

/-- A command answers once; unless its status is OK, its result is 0 and nothing else changes. -/
theorem exec_response (i : Instr) (s : State) : ∃ t r, exec i s = .next t ∧ t.response = some r ∧
    (r.status ≠ .ok → r.res = 0 ∧ t = { s with response := some r }) := by
  obtain ⟨t, ht⟩ := exec_answers i s
  rcases exec_cases ht with ⟨st, rfl⟩ | ⟨-, -, u, r, -, rfl⟩
  · exact ⟨_, ⟨st, 0⟩, ht, rfl, fun _ => ⟨rfl, rfl⟩⟩
  · exact ⟨_, ⟨.ok, r⟩, ht, rfl, fun hst => absurd rfl hst⟩

theorem storeRule_res {n : Nat} {x : AddrOperand} {v : DWord} {s u : State} {r : DWord}
    (h : storeRule n x v s = .ok (u, r)) : r = 0 := by
  rcases storeRule_cases n x v s with ⟨-, hc⟩ | ⟨-, hc⟩ <;> cases hc.symm.trans h
  rfl

theorem checkRule_res {e : CommandError} {x : AddrOperand} {size : DWord} {s u : State} {r : DWord}
    (h : checkRule e x size s = .ok (u, r)) : r = 0 := by
  rcases checkRule_cases e x size s with ⟨-, hc⟩ | ⟨-, hc⟩ <;> cases hc.symm.trans h
  rfl

/-- The rule of a command that has no result commits the result 0. -/
theorem ownRule_res_of_answersNothing {i : Instr} {s u : State} {r : DWord} (hi : answersNothing i = true)
    (h : ownRule i s = .ok (u, r)) : r = 0 := by
  cases i
  case bufset | curset | iwset => cases h; rfl
  case stbe => exact storeRule_res h
  case chksz | chkvl => exact checkRule_res h
  all_goals exact absurd hi Bool.false_ne_true

/-- Settles O12: an illegal word and an abnormal end answer 0, and so does every rule without a result. -/
theorem responseOfEveryCommand : Obligations.ResponseOfEveryCommand := by
  refine ⟨⟨rfl, rfl, rfl, rfl, rfl⟩, fun st => ?_, fun w s => ?_, fun i s t r hi h hr => ?_⟩
  · cases st <;> decide
  · cases hd : decode w with
    | command i =>
      rw [step_issue_command hd]
      exact exec_response i s
    | illegal why => exact ⟨_, ⟨.illegalCommand, 0⟩, step_issue_illegal hd s, rfl, fun _ => ⟨rfl, rfl⟩⟩
  · rcases exec_cases h with ⟨st, rfl⟩ | ⟨-, -, u, res, hrule, rfl⟩
    · cases hr
      rfl
    · cases hr
      exact ownRule_res_of_answersNothing hi hrule

/-! ## Runs (R193, R199) -/

/-- Every action of a host that keeps to the buffer memory is served, and what the host does next is left to it. -/
theorem serve_of_inBuffer {a : HostAction} (ha : a.inBuffer) (s : State) :
    ∃ t, serve a s = .next t ∧ t.host = s.host := by
  cases a with
  | command w =>
    cases hd : decode w with
    | command i =>
      obtain ⟨t, ht⟩ := exec_answers i s
      obtain ⟨-, -, -, -, -, hhost, -⟩ := onlyItsWritersChangeAPieceOfState i s t ht
      exact ⟨t, (runWord_command hd s).trans ht, hhost⟩
    | illegal why => exact ⟨_, runWord_illegal hd s, rfl⟩
  | writeByte addr b => exact ⟨_, if_pos ha, rfl⟩
  | readByte addr => exact ⟨_, if_pos ha, rfl⟩
  | reset => exact ⟨_, rfl, rfl⟩

/-- One step from a safe state ends in a safe state. -/
theorem State.Safe.step {s : State} (h : s.Safe) : ∃ t, step s = .next t ∧ t.Safe := by
  cases hhost : s.host with
  | nil => exact ⟨s, step_idle hhost, h⟩
  | cons a rest =>
    obtain ⟨ha, hrest⟩ := List.forall_mem_cons.1 (hhost ▸ h.host)
    obtain ⟨t, hserve, ht⟩ := serve_of_inBuffer ha { s with host := rest }
    have hstep : Machine.step s = .next t := (step_serves hhost).trans hserve
    exact ⟨t, hstep, stepKeepsSoundness s t h.inv hstep, ht.symm ▸ hrest⟩

theorem run_succ {s t : State} (h : step s = .next t) (k : Nat) :
    Host.Core.run Sys2Proof.core (k + 1) s = Host.Core.run Sys2Proof.core k t := by
  have hcore : Sys2Proof.core.step s = .next t := h
  simp only [Host.Core.run, hcore]

/-- Settles O17: by induction on the length of the run, the state being arbitrary. -/
theorem safeRunNeverStops : Obligations.SafeRunNeverStops := by
  intro k
  induction k with
  | zero => exact fun s h => ⟨s, rfl, h⟩
  | succ k ih =>
    intro s h
    obtain ⟨t, hstep, ht⟩ := h.step
    rw [run_succ hstep k]
    exact ih t ht

/-! ## The execution skeleton at one word (R64, R68, R77) -/

/-- Settles O5: the six words are evaluated. -/
theorem sampleWordsDecode : Obligations.SampleWordsDecode :=
  ⟨by decide, by decide, by decide, by decide, by decide, by decide⟩

/-- Settles O6: the step serves the word, and serving a decoded word is `exec` of its command. -/
theorem stepRunsTheDecodedCommand : Obligations.StepRunsTheDecodedCommand :=
  fun _ _ _ _ hhost hd => (step_serves hhost).trans (runWord_command hd _)

/-- Settles O8: neither the decoder's refusal nor R67's check looks at the gate. -/
theorem illegalityIsDecidedBeforeTheGate : Obligations.IllegalityIsDecidedBeforeTheGate := by
  refine ⟨fun w s h => ?_, fun _ s hwf => exec_of_not_wf hwf s⟩
  cases hd : decode w with
  | command i => exact absurd hd (h i)
  | illegal why => exact step_issue_illegal hd s

end Sys2Proof.Machine
end

section
/-! The rounding of the codec (spec/40_fixed_point.md R82): on rationals, as the nearest integer with ties away from zero. -/

namespace Sys2Proof.Machine

/-- rha(p) on a rational, as R82 writes it. -/
def roundAway (p : ℚ) : ℤ := if 0 ≤ p then ⌊p + 1 / 2⌋ else -⌊-p + 1 / 2⌋

/-- The model's integer division is the floor of R82. -/
theorem half_up_div_eq_floor (a : ℤ) {den : ℕ} (h : 0 < den) :
    (2 * a + den) / (2 * den) = ⌊(a : ℚ) / den + 1 / 2⌋ := by
  have hq : (a : ℚ) / den + 1 / 2 = ((2 * a + den : ℤ) : ℚ) / ((2 * den : ℕ) : ℚ) := by
    push_cast
    field_simp
  rw [hq, Rat.floor_intCast_div_natCast]
  push_cast
  rfl

theorem roundHalfAway_eq_roundAway (num : ℤ) {den : ℕ} (h : 0 < den) :
    roundHalfAway num den = roundAway ((num : ℚ) / den) := by
  have hsign : 0 ≤ (num : ℚ) / den ↔ 0 ≤ num := by
    rw [le_div_iff₀ (by exact_mod_cast h), zero_mul, Int.cast_nonneg_iff]
  unfold roundHalfAway roundAway
  rw [half_up_div_eq_floor num h, half_up_div_eq_floor (-num) h, Int.cast_neg, neg_div]
  exact if_congr hsign.symm rfl rfl

/-- Rounding is symmetric in the sign, because ties go away from zero on both sides (R95 item 7). -/
theorem roundAway_neg (p : ℚ) : roundAway (-p) = -roundAway p := by
  rcases lt_trichotomy p 0 with hp | rfl | hp
  · simp [roundAway, hp.le, not_le.mpr hp]
  · norm_num [roundAway]
  · simp [roundAway, hp.le, not_le.mpr hp]

theorem nearestAway_neg (p : ℚ) (n : ℤ) : NearestAway (-p) (-n) ↔ NearestAway p n := by
  unfold NearestAway
  rw [Int.cast_neg, neg_sub_neg, abs_sub_comm, abs_neg, abs_neg]

theorem nearestAway_iff_of_nonneg {p : ℚ} (hp : 0 ≤ p) (n : ℤ) : NearestAway p n ↔ roundAway p = n := by
  rw [roundAway, if_pos hp, Int.floor_eq_iff, NearestAway, abs_of_nonneg hp]
  constructor
  · rintro (hlt | ⟨heq, hfar⟩)
    · obtain ⟨hlow, hhigh⟩ := abs_lt.mp hlt
      constructor <;> linarith
    · rcases eq_or_eq_neg_of_abs_eq heq with htie | htie
      · have hn : 0 ≤ n := by
          have : (-1 : ℚ) < n := by linarith
          have : (-1 : ℤ) < n := by exact_mod_cast this
          omega
        rw [abs_of_nonneg (by exact_mod_cast hn)] at hfar
        linarith
      · constructor <;> linarith
  · rintro ⟨hlow, hhigh⟩
    rcases hlow.eq_or_lt with htie | hlow
    · refine .inr ⟨?_, ?_⟩
      · rw [htie, show p - (p + 1 / 2) = -(1 / 2) by ring, abs_neg, abs_of_pos one_half_pos]
      · rw [htie, abs_of_nonneg (by linarith)]
        linarith
    · exact .inl (abs_lt.mpr ⟨by linarith, by linarith⟩)

/-- The rounding answers the one nearest integer, the farther from zero on a tie (R82). -/
theorem nearestAway_iff (p : ℚ) (n : ℤ) : NearestAway p n ↔ roundAway p = n := by
  rcases le_total 0 p with hp | hp
  · exact nearestAway_iff_of_nonneg hp n
  · rw [← nearestAway_neg, nearestAway_iff_of_nonneg (neg_nonneg.mpr hp), roundAway_neg, neg_inj]

@[simp] theorem roundAway_intCast (n : ℤ) : roundAway n = n :=
  (nearestAway_iff n n).mp (.inl (by norm_num))

/-- Settles O40: the model's division is R82's floor, and the floor is the nearest integer. -/
theorem roundingIsHalfAwayFromZero : Obligations.RoundingIsHalfAwayFromZero := by
  intro num den hden
  rw [roundHalfAway_eq_roundAway num hden]
  exact ⟨rfl, nearestAway_iff _⟩

end Sys2Proof.Machine
end

section
/-! SUPPORT. The value of a binary64 pattern (spec/30_encoding.md R71): the model's exact integer, and at most 53 significant
bits. -/

namespace Sys2Proof.Machine

/-! ## The model's scaled integer -/

theorem f64Fraction_lt (v : DWord) : f64Fraction v < 2 ^ 52 := (v.extractLsb' 0 52).isLt

/-- The integer significand of a pattern (R71): with the hidden bit for a normal number. -/
def f64Significand (v : DWord) : ℕ := if f64Exponent v = 0 then f64Fraction v else 2 ^ 52 + f64Fraction v

theorem f64Significand_lt (v : DWord) : f64Significand v < 2 ^ 53 := by
  have := f64Fraction_lt v
  unfold f64Significand
  split <;> omega

/-- The model's numerator over `f64Denominator`; a subnormal number has the exponent of the smallest normal ones. -/
theorem f64Scaled_eq (v : DWord) : f64Scaled v =
    (if f64Negative v then -1 else 1) * ((f64Significand v * 2 ^ max (f64Exponent v) 1 : ℕ) : ℤ) := by
  unfold f64Scaled f64Significand
  rcases Nat.eq_zero_or_pos (f64Exponent v) with he | he
  · cases f64Negative v <;> simp [he]
  · cases f64Negative v <;> simp [he.ne', max_eq_left (Nat.succ_le_of_lt he)]

/-- The value of a pattern as one power of two times its integer significand. -/
theorem f64Value_eq_significand (v : DWord) : f64Value v =
    (if f64Negative v then -1 else 1) * f64Significand v * 2 ^ ((max (f64Exponent v) 1 : ℕ) - 1075 : ℤ) := by
  rw [f64Value, mul_assoc]
  congr 1
  unfold f64Significand
  rcases Nat.eq_zero_or_pos (f64Exponent v) with he | he
  · have hscale : (2 : ℚ) ^ (-1022 : ℤ) = 2 ^ (((max 0 1 : ℕ) : ℤ) - 1075) * 2 ^ (52 : ℤ) := by
      rw [← zpow_add₀ two_ne_zero]
      rfl
    rw [if_pos he, if_pos he, he, hscale, zpow_ofNat]
    field_simp
  · have hscale : (2 : ℚ) ^ ((f64Exponent v : ℤ) - 1023) = 2 ^ ((f64Exponent v : ℤ) - 1075) * 2 ^ (52 : ℤ) := by
      rw [← zpow_add₀ two_ne_zero]
      congr 1
      ring
    rw [if_neg he.ne', if_neg he.ne', max_eq_left (Nat.succ_le_of_lt he), hscale, zpow_ofNat]
    push_cast
    field_simp
    norm_num

theorem f64Denominator_pos : 0 < f64Denominator := by
  unfold f64Denominator
  generalize 1075 = d
  exact Nat.two_pow_pos d

/-- The value is the model's numerator over its denominator 2^1075. -/
theorem f64Value_eq_scaled (v : DWord) : f64Value v = (f64Scaled v : ℚ) / (f64Denominator : ℕ) := by
  rw [f64Value_eq_significand, f64Scaled_eq, zpow_sub₀ two_ne_zero, zpow_natCast, zpow_ofNat, ← mul_div_assoc,
    f64Denominator]
  generalize 1075 = d
  push_cast
  rw [mul_assoc]

theorem productScaled_div (v : DWord) (radix : Byte) :
    (productScaled v radix : ℚ) / (f64Denominator : ℕ) = f64Value v * 2 ^ radix.toNat := by
  rw [f64Value_eq_scaled, productScaled]
  push_cast
  ring

/-! ## Rationals of at most 53 significant bits -/

/-- A rational of at most 53 significant bits and any exponent. -/
def Significand53 (x : ℚ) : Prop := ∃ c e : ℤ, |c| < 2 ^ 53 ∧ x = c * 2 ^ e

theorem significand53_f64Value (v : DWord) : Significand53 (f64Value v) := by
  refine ⟨(if f64Negative v then -1 else 1) * f64Significand v, (max (f64Exponent v) 1 : ℕ) - 1075, ?_, ?_⟩
  · have := f64Significand_lt v
    rw [abs_mul, Nat.abs_cast]
    split <;> simp <;> omega
  · rw [f64Value_eq_significand]
    push_cast
    rfl

theorem Significand53.mul_two_pow {x : ℚ} (h : Significand53 x) (n : ℕ) : Significand53 (x * 2 ^ n) := by
  obtain ⟨c, e, hc, rfl⟩ := h
  exact ⟨c, e + n, hc, by rw [zpow_add₀ two_ne_zero, zpow_natCast, mul_assoc]⟩

/-- At every power of two: a multiple of it, or too small to have its last bit there. -/
theorem Significand53.multiple_or_small {x : ℚ} (h : Significand53 x) (j : ℕ) :
    (∃ z : ℤ, x = z * 2 ^ j) ∨ |x| < 2 ^ (52 + j) := by
  obtain ⟨c, e, hc, rfl⟩ := h
  rcases le_or_gt (j : ℤ) e with hje | hje
  · obtain ⟨n, rfl⟩ := Int.le.dest hje
    refine .inl ⟨c * 2 ^ n, ?_⟩
    rw [zpow_add₀ two_ne_zero, zpow_natCast, zpow_natCast]
    push_cast
    ring
  · right
    have hc' : |(c : ℚ)| < 2 ^ 53 := by exact_mod_cast hc
    have he : (2 : ℚ) ^ e ≤ 2 ^ ((j : ℤ) - 1) := zpow_le_zpow_right₀ one_le_two (by omega)
    rw [abs_mul, abs_of_pos (zpow_pos two_pos e : (0 : ℚ) < 2 ^ e)]
    calc |(c : ℚ)| * 2 ^ e < 2 ^ 53 * 2 ^ e := mul_lt_mul_of_pos_right hc' (zpow_pos two_pos e)
      _ ≤ 2 ^ 53 * 2 ^ ((j : ℤ) - 1) := mul_le_mul_of_nonneg_left he (by positivity)
      _ = 2 ^ (52 + j) := by
        rw [zpow_sub₀ two_ne_zero, zpow_natCast, pow_add]
        ring

end Sys2Proof.Machine
end

section
/-! The encoder (spec/40_fixed_point.md R83 to R86): its result in terms of the rational product, and the FXENC commands. -/

namespace Sys2Proof.Machine

open Claims

/-! ## The two cases of the encoder -/

theorem productOverflows_eq_false_iff (v : DWord) (radix : Byte) :
    productOverflows v radix = false ↔ |f64Value v * 2 ^ radix.toNat| < 2 ^ 1024 := by
  have hden : (0 : ℚ) < (f64Denominator : ℕ) := by exact_mod_cast f64Denominator_pos
  rw [← productScaled_div, abs_div, Nat.abs_cast, div_lt_iff₀ hden, productOverflows, decide_eq_false_iff_not, not_le]
  generalize 1024 = bound
  rw [← Int.cast_abs, Int.abs_eq_natAbs, Int.cast_natCast]
  exact_mod_cast Iff.rfl

theorem productFits_iff (v : DWord) (radix : Byte) :
    productFits v radix ↔ (f64Finite v && !productOverflows v radix) = true := by
  rw [productFits, ← productOverflows_eq_false_iff, Bool.and_eq_true, Bool.not_eq_true']

/-- R83, R84: a product that is finite in binary64 is rounded and cut to `w` bits. -/
theorem fxEncode_of_fits {v : DWord} {radix : Byte} (h : productFits v radix) (w : ℕ) :
    fxEncode w v radix = BitVec.ofInt w (roundAway (f64Value v * 2 ^ radix.toNat)) := by
  rw [fxEncode, if_pos ((productFits_iff v radix).mp h), roundHalfAway_eq_roundAway _ f64Denominator_pos, productScaled_div]

/-- R86: any other operand answers the free value. -/
theorem fxEncode_of_not_fits {v : DWord} {radix : Byte} (h : ¬ productFits v radix) (w : ℕ) :
    fxEncode w v radix = Config.fxNonfinite w v radix := by
  rw [fxEncode, if_neg (mt (productFits_iff v radix).mpr h)]

/-- A product that is an integer is not rounded. -/
theorem fxEncode_of_product_eq_int {v : DWord} {radix : Byte} {n : ℤ} (hfin : f64Finite v = true)
    (hprod : f64Value v * 2 ^ radix.toNat = n) (hlt : |n| < 2 ^ 1024) (w : ℕ) :
    fxEncode w v radix = BitVec.ofInt w n := by
  have hfits : productFits v radix := by
    refine ⟨hfin, ?_⟩
    rw [hprod]
    generalize 1024 = bound at hlt ⊢
    exact_mod_cast hlt
  rw [fxEncode_of_fits hfits, hprod, roundAway_intCast]

/-! ## The FXENC commands (R89 to R91) -/

/-- A command that answers a function of its operands alone, with its gate open (R77, R80). -/
theorem exec_of_pure {i : Instr} {s : State} {r : DWord} (hwf : i.wf = true) (hg : s.gateOpen i.gate = true)
    (hrule : ownRule i = answer fun _ => r) : exec i s = .next (s.respond r) := by
  rw [exec_eq_perform, hwf, hrule]
  exact perform_answer hg

section Commands

variable {g : Gate} {s : State} (hg : s.gateOpen g = true)
include hg

theorem exec_fxenc16_of_open (radix : Byte) (v : DWord) :
    exec (.fxenc16 g radix v) s = .next (s.respond ((fxEncode 16 v radix).signExtend 64)) :=
  exec_of_pure rfl hg rfl

theorem exec_fxenc32_of_open (radix : Byte) (v : DWord) :
    exec (.fxenc32 g radix v) s = .next (s.respond ((fxEncode 32 v radix).signExtend 64)) :=
  exec_of_pure rfl hg rfl

theorem exec_fxenc64_of_open (radix : Byte) (v : DWord) :
    exec (.fxenc64 g radix v) s = .next (s.respond (fxEncode 64 v radix)) := by
  rw [← BitVec.signExtend_eq (fxEncode 64 v radix)]
  exact exec_of_pure rfl hg rfl

end Commands

/-- Settles O41: the nearest integer is the one the encoder rounds to. -/
theorem fxencRoundsAndTruncates : Obligations.FxencRoundsAndTruncates := by
  intro g radix v s n hg hfits hn
  have henc (w : ℕ) : fxEncode w v radix = BitVec.ofInt w n := by
    rw [fxEncode_of_fits hfits, (nearestAway_iff _ n).mp hn]
  rw [exec_fxenc16_of_open hg, exec_fxenc32_of_open hg, exec_fxenc64_of_open hg, henc, henc, henc]
  exact ⟨rfl, rfl, rfl⟩

/-- Settles O42: without a finite product the encoder answers the free value, at every width. -/
theorem fxencOfNonfiniteAnswersTheFreeValue : Obligations.FxencOfNonfiniteAnswersTheFreeValue := by
  intro g radix v s hg hfits
  rw [exec_fxenc16_of_open hg, exec_fxenc32_of_open hg, exec_fxenc64_of_open hg, fxEncode_of_not_fits hfits,
    fxEncode_of_not_fits hfits, fxEncode_of_not_fits hfits]
  exact ⟨rfl, rfl, rfl⟩

/-! ## Laws of the encoder (R95 items 3, 4, 5 and 7) -/

/-- The two patterns of magnitude 1 (R71). -/
theorem f64Value_of_magnitude_one {v : DWord} (hexp : f64Exponent v = 1023) (hfrac : f64Fraction v = 0) :
    f64Value v = if f64Negative v then -1 else 1 := by
  simp [f64Value, hexp, hfrac]

theorem f64Value_one : f64Value 0x3FF0000000000000 = 1 := f64Value_of_magnitude_one (by decide) (by decide)

theorem f64Value_neg_one : f64Value 0xBFF0000000000000 = -1 := f64Value_of_magnitude_one (by decide) (by decide)

/-- Settles O47: the products of 1.0 and -1.0 are the integers 2^R and -2^R. -/
theorem encodeOfOneAtEveryRadix : Obligations.EncodeOfOneAtEveryRadix := by
  intro w radix _
  have hlt : |(2 : ℤ) ^ radix.toNat| < 2 ^ 1024 := by
    rw [abs_of_nonneg (by positivity)]
    have := radix.isLt
    exact pow_lt_pow_right₀ one_lt_two (by omega)
  have hpos : fxEncode w 0x3FF0000000000000 radix = BitVec.ofInt w (2 ^ radix.toNat) :=
    fxEncode_of_product_eq_int (by decide) (by rw [f64Value_one]; push_cast; ring) hlt w
  have hneg : fxEncode w 0xBFF0000000000000 radix = BitVec.ofInt w (-2 ^ radix.toNat) :=
    fxEncode_of_product_eq_int (by decide) (by rw [f64Value_neg_one]; push_cast; ring) (by rwa [abs_neg]) w
  have hmod (n : ℤ) : ((BitVec.ofInt w n).toNat : ℤ) = n % 2 ^ w := by
    rw [BitVec.toNat_ofInt, Int.toNat_of_nonneg (Int.emod_nonneg _ (by positivity))]
    push_cast
    rfl
  rw [hpos, hneg]
  refine ⟨?_, hmod _⟩
  have := hmod (2 ^ radix.toNat)
  exact_mod_cast this

/-- Flipping bit 63 flips the sign alone (R71). -/
theorem f64Value_flip_sign (v : DWord) : f64Value (v ^^^ 0x8000000000000000) = -f64Value v := by
  have hneg : f64Negative (v ^^^ 0x8000000000000000) = !f64Negative v := by
    simp [f64Negative]
  have hexp : f64Exponent (v ^^^ 0x8000000000000000) = f64Exponent v := by
    rw [f64Exponent, BitVec.extractLsb'_xor]
    simp [f64Exponent]
  have hfrac : f64Fraction (v ^^^ 0x8000000000000000) = f64Fraction v := by
    rw [f64Fraction, BitVec.extractLsb'_xor]
    simp [f64Fraction]
  rw [f64Value, f64Value, hneg, hexp, hfrac, ← neg_mul]
  congr 1
  cases f64Negative v <;> simp

theorem productFits_flip_sign {v : DWord} {radix : Byte} (h : productFits v radix) :
    productFits (v ^^^ 0x8000000000000000) radix := by
  obtain ⟨hfin, hlt⟩ := h
  refine ⟨?_, by rwa [f64Value_flip_sign, neg_mul, abs_neg]⟩
  rw [f64Finite, f64Exponent, BitVec.extractLsb'_xor]
  simpa [f64Finite, f64Exponent] using hfin

/-- Settles O48: a product of 53 significant bits that is at least 2^(52+W) is a multiple of 2^W. -/
theorem encodeOfLargeAndNegatedValues : Obligations.EncodeOfLargeAndNegatedValues := by
  intro w v radix _ hfits
  constructor
  · intro hlarge
    obtain ⟨z, hz⟩ | hsmall := ((significand53_f64Value v).mul_two_pow radix.toNat).multiple_or_small w
    · have hprod : f64Value v * 2 ^ radix.toNat = ((z * 2 ^ w : ℤ) : ℚ) := by
        rw [hz]
        push_cast
        rfl
      rw [fxEncode_of_fits hfits, hprod, roundAway_intCast]
      apply BitVec.eq_of_toNat_eq
      simp
    · exact absurd hlarge (not_le.mpr hsmall)
  · rw [fxEncode_of_fits (productFits_flip_sign hfits), fxEncode_of_fits hfits, f64Value_flip_sign, neg_mul,
      roundAway_neg, BitVec.ofInt_neg]

end Sys2Proof.Machine
end

section
/-! SUPPORT. The decoder's rounding rne53 (spec/40_fixed_point.md R87, R94): the nearest integer of 53 significant bits, ties to
the even significand. -/

namespace Sys2Proof.Machine

/-! ## The nearest multiple -/

/-- `n / u` rounded to the nearest integer, ties to even. -/
def nearestEvenQuotient (n u : ℕ) : ℕ :=
  if u < 2 * (n % u) ∨ (2 * (n % u) = u ∧ n / u % 2 = 1) then n / u + 1 else n / u

/-- The distance from `n` to a multiple of `u`, below or above it. -/
theorem abs_multiple_sub (n : ℕ) {u : ℕ} (hu : 0 < u) (z : ℤ) :
    (∃ t : ℕ, z = n / u - t ∧ |z * u - n| = t * u + n % u) ∨
    (∃ t : ℕ, z = n / u + 1 + t ∧ |z * u - n| = t * u + (u - n % u)) := by
  have hn : (n : ℤ) = u * (n / u) + n % u := (Int.mul_ediv_add_emod n u).symm
  have hr0 : (0 : ℤ) ≤ n % u := Int.emod_nonneg _ (by omega)
  have hru : (n : ℤ) % u < u := Int.emod_lt_of_pos _ (by omega)
  rcases le_or_gt z (n / u) with hz | hz
  · obtain ⟨t, ht⟩ := Int.le.dest hz
    have hdist : z * u - n = -(t * u + n % u) := by linear_combination (u : ℤ) * ht - hn
    refine .inl ⟨t, by omega, ?_⟩
    rw [hdist, abs_neg, abs_of_nonneg (by positivity)]
  · obtain ⟨t, ht⟩ := Int.le.dest (Int.add_one_le_of_lt hz)
    have hdist : z * u - n = t * u + (u - n % u) := by linear_combination (-(u : ℤ)) * ht - hn
    refine .inr ⟨t, by omega, ?_⟩
    rw [hdist, abs_of_nonneg (add_nonneg (by positivity) (by omega))]

theorem nearestEvenQuotient_cases (n u : ℕ) :
    (nearestEvenQuotient n u = n / u ∧ 2 * (n % u) ≤ u ∧ (2 * (n % u) = u → n / u % 2 = 0)) ∨
    (nearestEvenQuotient n u = n / u + 1 ∧ u ≤ 2 * (n % u) ∧ (2 * (n % u) = u → n / u % 2 = 1)) := by
  unfold nearestEvenQuotient
  split <;> omega

/-- How far the rounded quotient is from `n`: the smaller of the two distances. -/
theorem abs_nearestEvenQuotient_sub (n : ℕ) {u : ℕ} (hu : 0 < u) :
    |(nearestEvenQuotient n u : ℤ) * u - n| = min ((n : ℤ) % u) (u - n % u) := by
  have hn : (n : ℤ) = u * (n / u) + n % u := (Int.mul_ediv_add_emod n u).symm
  have hr0 : (0 : ℤ) ≤ n % u := Int.emod_nonneg _ (by omega)
  have hru : (n : ℤ) % u < u := Int.emod_lt_of_pos _ (by omega)
  rcases nearestEvenQuotient_cases n u with ⟨hq, hr, -⟩ | ⟨hq, hr, -⟩
  · have hdist : (nearestEvenQuotient n u : ℤ) * u - n = -(n % u) := by
      rw [hq]
      push_cast
      linear_combination -hn
    rw [hdist, abs_neg, abs_of_nonneg hr0]
    omega
  · have hdist : (nearestEvenQuotient n u : ℤ) * u - n = u - n % u := by
      rw [hq]
      push_cast
      linear_combination -hn
    rw [hdist, abs_of_nonneg (by omega)]
    omega

theorem nearestEvenQuotient_nearest (n : ℕ) {u : ℕ} (hu : 0 < u) (z : ℤ) :
    |(nearestEvenQuotient n u : ℤ) * u - n| ≤ |z * u - n| := by
  rw [abs_nearestEvenQuotient_sub n hu]
  rcases abs_multiple_sub n hu z with ⟨t, -, hdist⟩ | ⟨t, -, hdist⟩
  · exact (min_le_left _ _).trans (hdist ▸ le_add_of_nonneg_left (by positivity))
  · exact (min_le_right _ _).trans (hdist ▸ le_add_of_nonneg_left (by positivity))

/-- Another multiple that is as near leaves the even one chosen. -/
theorem nearestEvenQuotient_even_of_tie (n : ℕ) {u : ℕ} (hu : 0 < u) {z : ℤ}
    (htie : |(nearestEvenQuotient n u : ℤ) * u - n| = |z * u - n|) (hne : z ≠ nearestEvenQuotient n u) :
    nearestEvenQuotient n u % 2 = 0 := by
  rw [abs_nearestEvenQuotient_sub n hu] at htie
  have hcases := nearestEvenQuotient_cases n u
  rcases abs_multiple_sub n hu z with ⟨t, hz, hdist⟩ | ⟨t, hz, hdist⟩
  all_goals
    have htu : (t : ℤ) * u = 0 := le_antisymm (by omega) (by positivity)
    have ht : t = 0 := by
      rcases mul_eq_zero.mp htu with h | h <;> omega
    subst ht
    push_cast at hz htie
    omega

/-! ## Rounding to 53 bits -/

/-- The weight of the last of the 53 bits that are kept. -/
def ulp53 (n : ℕ) : ℕ := 2 ^ (n.log2 - 52)

theorem ulp53_pos (n : ℕ) : 0 < ulp53 n := Nat.two_pow_pos _

theorem roundEven53_of_lt {n : ℕ} (h : n < 2 ^ 53) : roundEven53 n = n := if_pos h

theorem ulp53_of_lt {n : ℕ} (h : n < 2 ^ 53) : ulp53 n = 1 := by
  rcases Nat.eq_zero_or_pos n with rfl | hn
  · rfl
  · have : n.log2 < 53 := (Nat.log2_lt hn.ne').mpr h
    rw [ulp53, Nat.sub_eq_zero_of_le (by omega), pow_zero]

/-- The weights 2^52 and 2^53 of the first bit bound an integer of at least 53 bits. -/
theorem ulp53_bounds {n : ℕ} (h : 2 ^ 53 ≤ n) : 2 ^ 52 * ulp53 n ≤ n ∧ n < 2 ^ 53 * ulp53 n := by
  have hn : n ≠ 0 := by omega
  have hlog : 53 ≤ n.log2 := (Nat.le_log2 hn).mpr h
  rw [ulp53, ← pow_add, ← pow_add, show 52 + (n.log2 - 52) = n.log2 by omega,
    show 53 + (n.log2 - 52) = n.log2 + 1 by omega]
  exact ⟨Nat.log2_self_le hn, Nat.lt_log2_self⟩

/-- An integer that already has at most 53 bits is its own quotient. -/
theorem roundEven53_eq_quotient (n : ℕ) : roundEven53 n = nearestEvenQuotient n (ulp53 n) * ulp53 n := by
  rcases lt_or_ge n (2 ^ 53) with h | h
  · simp [roundEven53_of_lt h, ulp53_of_lt h, nearestEvenQuotient, Nat.mod_one]
  · exact if_neg h.not_gt

theorem nearestEvenQuotient_ulp53_le (n : ℕ) : nearestEvenQuotient n (ulp53 n) ≤ 2 ^ 53 := by
  have hlt : n / ulp53 n < 2 ^ 53 := by
    rcases lt_or_ge n (2 ^ 53) with h | h
    · exact (Nat.div_le_self _ _).trans_lt h
    · exact (Nat.div_lt_iff_lt_mul (ulp53_pos n)).mpr (ulp53_bounds h).2
  rcases nearestEvenQuotient_cases n (ulp53 n) with ⟨hq, -⟩ | ⟨hq, -⟩ <;> omega

theorem roundEven53_pos {n : ℕ} (hn : n ≠ 0) : 0 < roundEven53 n := by
  have hle : ulp53 n ≤ n := by
    rcases lt_or_ge n (2 ^ 53) with h | h
    · rw [ulp53_of_lt h]
      omega
    · exact (Nat.le_mul_of_pos_left _ (Nat.two_pow_pos 52)).trans (ulp53_bounds h).1
  have hdiv : 0 < n / ulp53 n := Nat.div_pos hle (ulp53_pos n)
  rw [roundEven53_eq_quotient]
  refine Nat.mul_pos ?_ (ulp53_pos n)
  rcases nearestEvenQuotient_cases n (ulp53 n) with ⟨hq, -⟩ | ⟨hq, -⟩ <;> omega

/-- Rounding does not pass a power of two. -/
theorem roundEven53_le_two_pow {n k : ℕ} (h : n < 2 ^ k) : roundEven53 n ≤ 2 ^ k := by
  rcases lt_or_ge n (2 ^ 53) with hn | hn
  · exact (roundEven53_of_lt hn).trans_le h.le
  · have hlog : n.log2 < k := (Nat.log2_lt (by omega)).mpr h
    have hmin : 53 ≤ n.log2 := (Nat.le_log2 (by omega)).mpr hn
    calc roundEven53 n = nearestEvenQuotient n (ulp53 n) * ulp53 n := roundEven53_eq_quotient n
      _ ≤ 2 ^ 53 * ulp53 n := Nat.mul_le_mul_right _ (nearestEvenQuotient_ulp53_le n)
      _ = 2 ^ (n.log2 + 1) := by rw [ulp53, ← pow_add]; congr 1; omega
      _ ≤ 2 ^ k := Nat.pow_le_pow_right two_pos hlog

theorem abs_roundEven53_sub (n : ℕ) :
    |(roundEven53 n : ℤ) - n| = |(nearestEvenQuotient n (ulp53 n) : ℤ) * ulp53 n - n| := by
  rw [roundEven53_eq_quotient, Nat.cast_mul]

/-- The power of two below `n` is one of the candidates. -/
theorem abs_roundEven53_sub_le {n : ℕ} (h : 2 ^ 53 ≤ n) : |(roundEven53 n : ℤ) - n| ≤ n - 2 ^ n.log2 := by
  have hn : n ≠ 0 := by omega
  have hlog : 53 ≤ n.log2 := (Nat.le_log2 hn).mpr h
  have hpow : ((2 ^ 52 : ℕ) : ℤ) * ulp53 n = 2 ^ n.log2 := by
    rw [← Nat.cast_mul, ulp53, ← pow_add, Nat.cast_pow, Nat.cast_two]
    congr 1
    omega
  have hle : (2 : ℤ) ^ n.log2 ≤ n := by exact_mod_cast Nat.log2_self_le hn
  have := nearestEvenQuotient_nearest n (ulp53_pos n) (2 ^ 52 : ℕ)
  rwa [← abs_roundEven53_sub, hpow, abs_sub_comm (2 ^ n.log2), abs_of_nonneg (sub_nonneg.mpr hle)] at this

/-- No rational of 53 significant bits is nearer to `n` than the rounded integer, and one that is as near leaves it an
even significand (R94, G2). -/
theorem roundEven53_nearest (n : ℕ) {x : ℚ} (hx : Significand53 x) :
    |(roundEven53 n : ℚ) - n| ≤ |x - n| ∧
    (|(roundEven53 n : ℚ) - n| = |x - n| → x ≠ roundEven53 n → nearestEvenQuotient n (ulp53 n) % 2 = 0) := by
  rcases lt_or_ge n (2 ^ 53) with hn | hn
  · rw [roundEven53_of_lt hn, sub_self, abs_zero]
    exact ⟨abs_nonneg _, fun htie hne => absurd (sub_eq_zero.mp (abs_eq_zero.mp htie.symm)) hne⟩
  have hround : ((|(roundEven53 n : ℤ) - n| : ℤ) : ℚ) = |(roundEven53 n : ℚ) - n| := by push_cast; rfl
  rcases hx.multiple_or_small (n.log2 - 52) with ⟨z, hz⟩ | hsmall
  · have hdist : ((|z * ulp53 n - n| : ℤ) : ℚ) = |x - n| := by
      rw [hz, ulp53]
      push_cast
      rfl
    rw [← hround, ← hdist, abs_roundEven53_sub, Int.cast_le, Int.cast_inj]
    refine ⟨nearestEvenQuotient_nearest n (ulp53_pos n) z, fun htie hne => ?_⟩
    refine nearestEvenQuotient_even_of_tie n (ulp53_pos n) htie fun hzq => hne ?_
    rw [hz, hzq, roundEven53_eq_quotient, ulp53]
    push_cast
    rfl
  · have hlog : 53 ≤ n.log2 := (Nat.le_log2 (by omega)).mpr hn
    have hlt : |(roundEven53 n : ℚ) - n| < |x - n| := by
      calc |(roundEven53 n : ℚ) - n| ≤ n - 2 ^ n.log2 := by
            rw [← hround]
            exact_mod_cast abs_roundEven53_sub_le hn
        _ < n - |x| := by
            rw [show 52 + (n.log2 - 52) = n.log2 by omega] at hsmall
            linarith
        _ ≤ |x - n| := by
            have := abs_sub_abs_le_abs_sub (n : ℚ) x
            rwa [Nat.abs_cast, abs_sub_comm] at this
    exact ⟨hlt.le, fun htie => absurd htie hlt.ne⟩

/-! ## With the sign -/

/-- rne53 (R87). -/
def rne53 (i : ℤ) : ℤ := i.sign * roundEven53 i.natAbs

theorem rne53_natCast (n : ℕ) : rne53 n = roundEven53 n := by
  rcases Nat.eq_zero_or_pos n with rfl | hn
  · rfl
  · rw [rne53, Int.sign_natCast_of_ne_zero hn.ne', one_mul, Int.natAbs_natCast]

theorem rne53_neg (i : ℤ) : rne53 (-i) = -rne53 i := by
  rw [rne53, rne53, Int.sign_neg, Int.natAbs_neg, neg_mul]

theorem Significand53.neg {x : ℚ} (h : Significand53 x) : Significand53 (-x) := by
  obtain ⟨c, e, hc, rfl⟩ := h
  exact ⟨-c, e, by rwa [abs_neg], by push_cast; ring⟩

theorem rne53_nearest (i : ℤ) {x : ℚ} (hx : Significand53 x) :
    |(rne53 i : ℚ) - i| ≤ |x - i| ∧ (|(rne53 i : ℚ) - i| = |x - i| → x ≠ rne53 i →
      nearestEvenQuotient i.natAbs (ulp53 i.natAbs) % 2 = 0) := by
  obtain ⟨n, rfl | rfl⟩ := i.eq_nat_or_neg
  · rw [rne53_natCast]
    exact_mod_cast roundEven53_nearest n hx
  · have hflip (y : ℚ) : |-y - n| = |y - ((-n : ℤ) : ℚ)| := by
      rw [← abs_neg]
      congr 1
      push_cast
      ring
    have h := roundEven53_nearest n hx.neg
    rw [hflip x, ← neg_neg (roundEven53 n : ℚ), hflip, Ne, neg_inj] at h
    rw [rne53_neg, rne53_natCast, Int.natAbs_neg, Int.natAbs_natCast]
    exact_mod_cast h

/-- An integer of at most 53 significant bits is not rounded. -/
theorem rne53_eq_self {i : ℤ} (h : Significand53 (i : ℚ)) : rne53 i = i := by
  have hle := (rne53_nearest i h).1
  rw [sub_self, abs_zero] at hle
  exact_mod_cast sub_eq_zero.mp (abs_nonpos_iff.mp hle)

theorem significand53_of_abs_lt {i : ℤ} (h : |i| < 2 ^ 53) : Significand53 (i : ℚ) :=
  ⟨i, 0, h, by simp⟩

end Sys2Proof.Machine
end

section
/-! SUPPORT. Binary64 patterns (spec/30_encoding.md R71): the fields of a pattern put together, and the pattern of a value. -/

namespace Sys2Proof.Machine

/-! ## The fields of a pattern -/

section Fields

variable (s : BitVec 1) (e : BitVec 11) (f : BitVec 52)

@[simp] theorem f64Negative_append : f64Negative (s ++ e ++ f) = s.getLsbD 0 := by
  have hhigh : f64Negative (s ++ e ++ f) = (s ++ e).getLsbD 11 := BitVec.getLsbD_append
  rw [hhigh, BitVec.getLsbD_append]
  rfl

@[simp] theorem f64Exponent_append : f64Exponent (s ++ e ++ f) = e.toNat := by
  rw [f64Exponent]
  exact congrArg BitVec.toNat ((BitVec.extractLsb'_append_eq_of_le le_rfl).trans BitVec.extractLsb'_append_eq_right)

@[simp] theorem f64Fraction_append : f64Fraction (s ++ e ++ f) = f.toNat := by
  rw [f64Fraction]
  exact congrArg BitVec.toNat BitVec.extractLsb'_append_eq_right

end Fields

theorem f64Exponent_eq_toNat (v : DWord) : f64Exponent v = v.toNat / 2 ^ 52 % 2 ^ 11 := by
  rw [f64Exponent, BitVec.extractLsb'_toNat, Nat.shiftRight_eq_div_pow]

theorem f64Fraction_eq_toNat (v : DWord) : f64Fraction v = v.toNat % 2 ^ 52 := by
  rw [f64Fraction, BitVec.extractLsb'_toNat, Nat.shiftRight_zero]

theorem f64Negative_eq_toNat (v : DWord) : f64Negative v = decide (2 ^ 63 ≤ v.toNat) := by
  exact BitVec.msb_eq_decide v

/-- Bit 0 of a pattern is bit 0 of its fraction. -/
theorem getLsbD_zero_of_even_fraction {v : DWord} (h : f64Fraction v % 2 = 0) : v.getLsbD 0 = false := by
  rw [f64Fraction_eq_toNat] at h
  rw [BitVec.getLsbD, Nat.testBit_zero, decide_eq_false_iff_not]
  omega

/-- A pattern is its three fields. -/
theorem f64_ext {v v' : DWord} (hneg : f64Negative v = f64Negative v') (hexp : f64Exponent v = f64Exponent v')
    (hfrac : f64Fraction v = f64Fraction v') : v = v' := by
  rw [f64Negative_eq_toNat, f64Negative_eq_toNat, decide_eq_decide] at hneg
  rw [f64Exponent_eq_toNat, f64Exponent_eq_toNat] at hexp
  rw [f64Fraction_eq_toNat, f64Fraction_eq_toNat] at hfrac
  have := v.isLt
  have := v'.isLt
  apply BitVec.eq_of_toNat_eq
  omega

/-! ## The pattern of a value -/

/-- The hidden bit is there unless the exponent is the smallest. -/
theorem two_pow_52_le_f64Significand {v : DWord} (h : 1 < max (f64Exponent v) 1) : 2 ^ 52 ≤ f64Significand v := by
  unfold f64Significand
  split <;> omega

/-- Two significands, the first below 2^53 and the second with its hidden bit, cannot differ by a power of two. -/
theorem exponent_le_of_mul_two_pow_eq {c c' a a' : ℕ} (heq : c * 2 ^ a = c' * 2 ^ a') (hc : c < 2 ^ 53)
    (hc' : 1 < a' → 2 ^ 52 ≤ c') (ha : 1 ≤ a) : a' ≤ a := by
  by_contra hlt
  obtain ⟨d, rfl⟩ := Nat.exists_eq_add_of_lt (not_le.mp hlt)
  have hce : c = c' * 2 ^ (d + 1) := by
    refine Nat.eq_of_mul_eq_mul_right (Nat.two_pow_pos a) (heq.trans ?_)
    ring
  have hge : 2 ^ 52 * 2 ^ 1 ≤ c' * 2 ^ (d + 1) :=
    Nat.mul_le_mul (hc' (by omega)) (Nat.pow_le_pow_right two_pos (by omega))
  omega

/-- The exponent and the fraction are determined by the magnitude. -/
theorem f64_fields_of_magnitude_eq {v v' : DWord}
    (h : f64Significand v * 2 ^ max (f64Exponent v) 1 = f64Significand v' * 2 ^ max (f64Exponent v') 1) :
    f64Exponent v = f64Exponent v' ∧ f64Fraction v = f64Fraction v' := by
  have hexp : max (f64Exponent v) 1 = max (f64Exponent v') 1 := le_antisymm
    (exponent_le_of_mul_two_pow_eq h.symm (f64Significand_lt v') two_pow_52_le_f64Significand (le_max_right _ _))
    (exponent_le_of_mul_two_pow_eq h (f64Significand_lt v) two_pow_52_le_f64Significand (le_max_right _ _))
  rw [hexp] at h
  have hsig := Nat.eq_of_mul_eq_mul_right (Nat.two_pow_pos _) h
  have := f64Fraction_lt v
  have := f64Fraction_lt v'
  unfold f64Significand at hsig
  split at hsig <;> split at hsig <;> omega

theorem signed_magnitude_inj {b b' : Bool} {m m' : ℕ}
    (h : (if b then -1 else 1) * (m : ℤ) = (if b' then -1 else 1) * (m' : ℤ)) (hm : m ≠ 0) : b = b' ∧ m = m' := by
  cases b <;> cases b' <;> simp at h ⊢ <;> omega

/-- A value other than zero has one pattern. -/
theorem f64_eq_of_value_eq {v v' : DWord} (h : f64Value v = f64Value v') (hne : f64Value v ≠ 0) : v = v' := by
  have hden : ((f64Denominator : ℕ) : ℚ) ≠ 0 := by exact_mod_cast f64Denominator_pos.ne'
  have hscaled : f64Scaled v = f64Scaled v' := by
    rwa [f64Value_eq_scaled, f64Value_eq_scaled, div_left_inj' hden, Int.cast_inj] at h
  have hnonzero : f64Scaled v ≠ 0 := by
    intro hzero
    rw [f64Value_eq_scaled, hzero, Int.cast_zero, zero_div] at hne
    exact hne rfl
  rw [f64Scaled_eq] at hnonzero
  rw [f64Scaled_eq, f64Scaled_eq] at hscaled
  obtain ⟨hneg, hmag⟩ := signed_magnitude_inj hscaled (by exact_mod_cast right_ne_zero_of_mul hnonzero)
  obtain ⟨hexp, hfrac⟩ := f64_fields_of_magnitude_eq hmag
  exact f64_ext hneg hexp hfrac

end Sys2Proof.Machine
end

section
/-! The decoder (spec/40_fixed_point.md R87) and the round trips (R95 items 1 and 2). -/

namespace Sys2Proof.Machine

open Claims

/-! ## The fraction of a decoded number -/

/-- A product of at most 53 bits and a power of two fills its 52 fraction bits exactly; `b` trailing zeros of the first factor
are trailing zeros of the significand. -/
theorem two_pow_log2_dvd {c j b : ℕ} (hc : c ≤ 2 ^ 53) (hb : b ≤ 52) (hdvd : 2 ^ b ∣ c) :
    2 ^ ((c * 2 ^ j).log2 + b) ∣ c * 2 ^ j * 2 ^ 52 := by
  rcases Nat.eq_zero_or_pos c with rfl | hpos
  · simp
  have hne : c * 2 ^ j ≠ 0 := (Nat.mul_pos hpos (Nat.two_pow_pos j)).ne'
  rcases le_or_gt (c * 2 ^ j).log2 (j + 52) with hlog | hlog
  · calc 2 ^ ((c * 2 ^ j).log2 + b) ∣ 2 ^ (j + 52 + b) := Nat.pow_dvd_pow 2 (by omega)
      _ = 2 ^ b * 2 ^ j * 2 ^ 52 := by ring
      _ ∣ c * 2 ^ j * 2 ^ 52 := Nat.mul_dvd_mul_right (Nat.mul_dvd_mul_right hdvd _) _
  · have hpow : c * 2 ^ j = 2 ^ (53 + j) := by
      refine le_antisymm (pow_add 2 53 j ▸ Nat.mul_le_mul_right _ hc) ?_
      exact (Nat.le_log2 hne).mp (by omega)
    rw [hpow, Nat.log2_two_pow, ← pow_add]
    exact Nat.pow_dvd_pow 2 (by omega)

/-- The 53 significant bits of a number, as an integer from 2^52 on. -/
def leading53 (m : ℕ) : ℕ := m * 2 ^ 52 / 2 ^ m.log2

theorem leading53_bounds {m : ℕ} (h : m ≠ 0) : 2 ^ 52 ≤ leading53 m ∧ leading53 m < 2 ^ 53 := by
  have hpos := Nat.two_pow_pos m.log2
  constructor
  · rw [leading53, Nat.le_div_iff_mul_le hpos, mul_comm]
    exact Nat.mul_le_mul_right _ (Nat.log2_self_le h)
  · rw [leading53, Nat.div_lt_iff_lt_mul hpos]
    calc m * 2 ^ 52 < 2 ^ (m.log2 + 1) * 2 ^ 52 := Nat.mul_lt_mul_of_pos_right Nat.lt_log2_self (Nat.two_pow_pos 52)
      _ = 2 ^ 53 * 2 ^ m.log2 := by ring

/-- The significand of a rounded number loses no bit. -/
theorem leading53_roundEven53 (n : ℕ) :
    leading53 (roundEven53 n) * 2 ^ (roundEven53 n).log2 = roundEven53 n * 2 ^ 52 := by
  rw [leading53, roundEven53_eq_quotient]
  exact Nat.div_mul_cancel (two_pow_log2_dvd (b := 0) (nearestEvenQuotient_ulp53_le n) (by decide) (one_dvd _))

theorem leading53_roundEven53_even {n : ℕ} (h : nearestEvenQuotient n (ulp53 n) % 2 = 0) :
    leading53 (roundEven53 n) % 2 = 0 := by
  have hdvd : 2 ^ ((roundEven53 n).log2 + 1) ∣ roundEven53 n * 2 ^ 52 := by
    rw [roundEven53_eq_quotient]
    exact two_pow_log2_dvd (nearestEvenQuotient_ulp53_le n) (by decide) (Nat.dvd_of_mod_eq_zero h)
  obtain ⟨t, ht⟩ := hdvd
  rw [leading53, ht, pow_succ, mul_assoc, Nat.mul_div_cancel_left _ (Nat.two_pow_pos _), Nat.mul_mod_right]

/-! ## The fields and the value of a decoded raw integer -/

section Decode

variable {w : ℕ} (raw : BitVec w) (radix : Byte)

variable {raw} in
theorem fxDecode_of_toInt_eq_zero (h : raw.toInt = 0) : fxDecode w raw radix = 0 := if_pos h

theorem natAbs_toInt_lt (hw : w ≤ 64) : raw.toInt.natAbs < 2 ^ 64 := by
  have hlow := BitVec.le_two_mul_toInt (x := raw)
  have hhigh := BitVec.two_mul_toInt_lt (x := raw)
  have hpow : (2 : ℤ) ^ w ≤ 2 ^ 64 := pow_le_pow_right₀ one_le_two hw
  omega

theorem log2_roundEven53_lt (hw : w ≤ 64) : (roundEven53 raw.toInt.natAbs).log2 < 65 := by
  rcases Nat.eq_zero_or_pos (roundEven53 raw.toInt.natAbs) with hzero | hpos
  · rw [hzero]
    decide
  · exact (Nat.log2_lt hpos.ne').mpr ((roundEven53_le_two_pow (natAbs_toInt_lt raw hw)).trans_lt (by decide))

/-- A raw integer other than 0 decodes to a normal number with these fields (R87). -/
theorem fxDecode_fields (hw : w ≤ 64) (hne : raw.toInt ≠ 0) :
    f64Negative (fxDecode w raw radix) = decide (raw.toInt < 0) ∧
    f64Exponent (fxDecode w raw radix) = 1023 + (roundEven53 raw.toInt.natAbs).log2 - radix.toNat ∧
    f64Fraction (fxDecode w raw radix) = leading53 (roundEven53 raw.toInt.natAbs) - 2 ^ 52 := by
  have hpos := roundEven53_pos (Int.natAbs_ne_zero.mpr hne)
  have hlog := log2_roundEven53_lt raw hw
  have hsig := leading53_bounds hpos.ne'
  simp only [fxDecode, if_neg hne, f64Negative_append, f64Exponent_append, f64Fraction_append, BitVec.toNat_ofNat]
  refine ⟨?_, Nat.mod_eq_of_lt (by omega), Nat.mod_eq_of_lt (by unfold leading53 at hsig; omega)⟩
  by_cases hneg : raw.toInt < 0 <;> simp [hneg]

theorem f64Finite_fxDecode (hw : w ≤ 64) : f64Finite (fxDecode w raw radix) = true := by
  by_cases hzero : raw.toInt = 0
  · rw [fxDecode_of_toInt_eq_zero radix hzero]
    decide
  · obtain ⟨-, hexp, -⟩ := fxDecode_fields raw radix hw hzero
    have hlog := log2_roundEven53_lt raw hw
    rw [f64Finite, hexp, bne_iff_ne]
    omega

/-- The decoded value times 2^R is the rounded raw integer (R87). -/
theorem f64Value_fxDecode_mul (hw : w ≤ 64) :
    f64Value (fxDecode w raw radix) * 2 ^ radix.toNat = rne53 raw.toInt := by
  by_cases hzero : raw.toInt = 0
  · have hvalue : f64Value 0 = 0 := by simp [f64Value, f64Exponent, f64Fraction]
    rw [fxDecode_of_toInt_eq_zero radix hzero, hvalue, hzero, zero_mul]
    rfl
  obtain ⟨hneg, hexp, hfrac⟩ := fxDecode_fields raw radix hw hzero
  have hradix := radix.isLt
  have hlow := (leading53_bounds (roundEven53_pos (Int.natAbs_ne_zero.mpr hzero)).ne').1
  have hsig : f64Significand (fxDecode w raw radix) = leading53 (roundEven53 raw.toInt.natAbs) := by
    rw [f64Significand, hexp, hfrac, if_neg (by omega)]
    omega
  have hsign : (if decide (raw.toInt < 0) then -1 else 1 : ℚ) = (raw.toInt.sign : ℤ) := by
    rcases lt_or_gt_of_ne hzero with hlt | hgt
    · simp [hlt, Int.sign_eq_neg_one_of_neg hlt]
    · simp [hgt.not_gt, Int.sign_eq_one_of_pos hgt]
  have hleading : (leading53 (roundEven53 raw.toInt.natAbs) : ℚ) * 2 ^ (roundEven53 raw.toInt.natAbs).log2 =
      roundEven53 raw.toInt.natAbs * 2 ^ 52 := by
    exact_mod_cast leading53_roundEven53 raw.toInt.natAbs
  have hscale : (2 : ℚ) ^ ((max (1023 + (roundEven53 raw.toInt.natAbs).log2 - radix.toNat) 1 : ℕ) - 1075 : ℤ) *
      2 ^ radix.toNat * 2 ^ 52 = 2 ^ (roundEven53 raw.toInt.natAbs).log2 := by
    rw [← zpow_natCast, ← zpow_natCast, ← zpow_natCast, ← zpow_add₀ two_ne_zero, ← zpow_add₀ two_ne_zero]
    congr 1
    omega
  rw [f64Value_eq_significand, hneg, hexp, hsig, hsign, rne53, Int.cast_mul, Int.cast_natCast]
  refine mul_right_cancel₀ (pow_ne_zero 52 (two_ne_zero (α := ℚ))) ?_
  linear_combination (raw.toInt.sign : ℚ) * (leading53 (roundEven53 raw.toInt.natAbs) : ℚ) * hscale +
    (raw.toInt.sign : ℚ) * hleading

/-- A raw integer of at most 53 bits is not rounded, so at the widths 16 and 32 none is (R92, R93). -/
theorem rne53_toInt (hw : w ≤ 53) : rne53 raw.toInt = raw.toInt := by
  refine rne53_eq_self (significand53_of_abs_lt (abs_lt.mpr ?_))
  have hlow := BitVec.le_two_mul_toInt (x := raw)
  have hhigh := BitVec.two_mul_toInt_lt (x := raw)
  have hpow : (2 : ℤ) ^ w ≤ 2 ^ 53 := pow_le_pow_right₀ one_le_two hw
  omega

theorem f64Value_fxDecode_of_le (hw : w ≤ 53) :
    f64Value (fxDecode w raw radix) = (raw.toInt : ℚ) / 2 ^ radix.toNat := by
  rw [eq_div_iff (pow_ne_zero _ two_ne_zero), f64Value_fxDecode_mul raw radix (by omega), rne53_toInt raw hw]

/-- Encoding a decoded raw integer gives the rounded one, cut to `w` bits (R95 item 1). -/
theorem fxEncode_fxDecode (hw : w ≤ 64) :
    fxEncode w (fxDecode w raw radix) radix = BitVec.ofInt w (rne53 raw.toInt) := by
  refine fxEncode_of_product_eq_int (f64Finite_fxDecode raw radix hw) (f64Value_fxDecode_mul raw radix hw) ?_ w
  have hsign : |raw.toInt.sign| ≤ 1 := by
    rcases Int.sign_trichotomy raw.toInt with h | h | h <;> simp [h]
  calc |rne53 raw.toInt| = |raw.toInt.sign| * (roundEven53 raw.toInt.natAbs : ℤ) := by rw [rne53, abs_mul, Nat.abs_cast]
    _ ≤ 1 * (2 ^ 64 : ℕ) := mul_le_mul hsign (by exact_mod_cast roundEven53_le_two_pow (natAbs_toInt_lt raw hw))
        (Int.natCast_nonneg _) zero_le_one
    _ < 2 ^ 1024 := by
        rw [one_mul, Nat.cast_pow, Nat.cast_two]
        exact pow_lt_pow_right₀ one_lt_two (by decide)

end Decode

/-! ## The FXDEC commands (R92 to R94) -/

/-- Settles O43: at 16 and 32 bits no raw integer is rounded. -/
theorem fxdecOfNarrowWidthsIsExact : Obligations.FxdecOfNarrowWidthsIsExact := by
  intro g radix s hg
  refine ⟨fun raw => ⟨fxDecode 16 raw radix, exec_of_pure rfl hg rfl, f64Finite_fxDecode raw radix (by decide),
      f64Value_fxDecode_of_le raw radix (by decide), ?_⟩,
    fun raw => ⟨fxDecode 32 raw radix, exec_of_pure rfl hg rfl, f64Finite_fxDecode raw radix (by decide),
      f64Value_fxDecode_of_le raw radix (by decide), ?_⟩⟩
  all_goals
    rintro rfl
    exact fxDecode_of_toInt_eq_zero radix BitVec.toInt_zero

/-- Settles O44: the decoded value scaled by 2^R is rne53 of the raw integer, which no 53 significant bits approach better. -/
theorem fxdec64RoundsToNearestEven : Obligations.Fxdec64RoundsToNearestEven := by
  intro g radix raw s hg
  refine ⟨fxDecode 64 raw radix, exec_of_pure rfl hg rfl, f64Finite_fxDecode raw radix le_rfl, ?_, fun v _ => ?_⟩
  · rintro rfl
    exact fxDecode_of_toInt_eq_zero radix BitVec.toInt_zero
  rw [f64Value_fxDecode_mul raw radix le_rfl]
  obtain ⟨hnearest, htie⟩ := rne53_nearest raw.toInt (significand53_f64Value v)
  refine ⟨hnearest, fun heq hne => getLsbD_zero_of_even_fraction ?_⟩
  by_cases hzero : raw.toInt = 0
  · rw [fxDecode_of_toInt_eq_zero radix hzero]
    decide
  · obtain ⟨-, -, hfrac⟩ := fxDecode_fields raw radix le_rfl hzero
    have heven := leading53_roundEven53_even (htie heq hne)
    rw [hfrac]
    omega

/-! ## The round trips (R95 items 1 and 2) -/

/-- Settles O45: the encoder gets back the integer the decoder rounded to. -/
theorem encodeOfDecodeGivesTheRaw : Obligations.EncodeOfDecodeGivesTheRaw := by
  refine ⟨fun radix raw => ?_, fun radix raw => ?_, fun radix raw => fxEncode_fxDecode raw radix le_rfl⟩
  all_goals rw [fxEncode_fxDecode raw radix (by decide), rne53_toInt raw (by decide), BitVec.ofInt_toInt]

/-- Settles O46: `k` is the value of a pattern times 2^R, so it has 53 significant bits and is not rounded, and a value other
than zero has one pattern. -/
theorem decodeOfEncodeGivesTheValue : Obligations.DecodeOfEncodeGivesTheValue := by
  intro w v radix k hw hfin hvalue hlow hhigh
  have hw' : 0 < w ∧ w ≤ 64 := by omega
  have hscale : (2 : ℚ) ^ radix.toNat ≠ 0 := pow_ne_zero _ two_ne_zero
  have hprod : f64Value v * 2 ^ radix.toNat = k := by rw [hvalue, div_mul_cancel₀ _ hscale]
  have hlt : |k| < 2 ^ 1024 :=
    (abs_le.mpr ⟨hlow, hhigh.le⟩).trans_lt (pow_lt_pow_right₀ one_lt_two (by omega))
  have hraw : (BitVec.ofInt w k).toInt = k := BitVec.toInt_ofInt_eq_self hw'.1 hlow hhigh
  rw [fxEncode_of_product_eq_int hfin hprod hlt]
  split
  case isTrue hk => exact fxDecode_of_toInt_eq_zero radix (hraw.trans hk)
  case isFalse hk =>
    have hsig : Significand53 (k : ℚ) := hprod ▸ (significand53_f64Value v).mul_two_pow radix.toNat
    have hdec : f64Value (fxDecode w (BitVec.ofInt w k) radix) = f64Value v := by
      refine mul_right_cancel₀ hscale ?_
      rw [f64Value_fxDecode_mul _ radix hw'.2, hraw, rne53_eq_self hsig, hprod]
    refine f64_eq_of_value_eq hdec ?_
    rw [hdec, hvalue]
    exact div_ne_zero (by exact_mod_cast hk) hscale

end Sys2Proof.Machine
end

section
/-! The gate (spec/41_bitmap_selector.md R104) and the registers (R101, R102; spec/43_buffer.md R136 to R139). -/

namespace Sys2Proof.Machine

/-! ## The gate -/

section Ungated

variable (i : Instr)

@[simp] theorem gate_ungated : (ungated i).gate = .always := by
  cases i <;> rfl

@[simp] theorem wf_ungated : (ungated i).wf = i.wf := by
  cases i <;> rfl

/-- The gate is no operand of a command's own rule. -/
@[simp] theorem ownRule_ungated : ownRule (ungated i) = ownRule i := by
  cases i <;> rfl

end Ungated

theorem perform_of_gateOpen {g : Gate} {s : State} (hg : s.gateOpen g = true) (legal : Bool) (rule : Effect) :
    perform legal g rule s = perform legal .always rule s := by
  rw [perform, hg]
  rfl

theorem exec_of_gateOpen {i : Instr} {s : State} (hg : s.gateOpen i.gate = true) : exec i s = exec (ungated i) s := by
  rw [exec_eq_perform, exec_eq_perform, gate_ungated, wf_ungated, ownRule_ungated]
  exact perform_of_gateOpen hg _ _

theorem exec_of_gateClosed {i : Instr} {s : State} (hwf : i.wf = true) (hg : s.gateOpen i.gate = false) :
    exec i s = .next { s with response := some ⟨.skipped, 0⟩ } := by
  rw [exec_eq_perform, hwf]
  exact perform_skipped _ hg

/-- Settles O9: the gate alone decides between SKIPPED and the command's own rule, which does not read it. -/
theorem gateSkipsOrRunsTheCommand : Obligations.GateSkipsOrRunsTheCommand := by
  intro i s hwf
  exact ⟨fun p hp hbit => exec_of_gateClosed hwf ((congrArg s.gateOpen hp).trans hbit),
    fun p hp hbit => exec_of_gateOpen ((congrArg s.gateOpen hp).trans hbit),
    fun ha => exec_of_gateOpen (congrArg s.gateOpen ha)⟩

/-! ## The registers -/

/-- A legal command with its gate open whose own rule raises no error. -/
theorem exec_of_rule_ok {i : Instr} {s u : State} {r : DWord} (hwf : i.wf = true) (hg : s.gateOpen i.gate = true)
    (hrule : ownRule i s = .ok (u, r)) : exec i s = .next (u.respond r) := by
  rw [exec_eq_perform, hwf]
  exact perform_ok hg hrule

/-- Settles O22: each of the three rules is one write; only BUFSET has an operand that can be out of range. -/
theorem registerWritesComplete : Obligations.RegisterWritesComplete := by
  intro g s hg
  refine ⟨fun w => exec_of_rule_ok (u := { s with iw := w }) rfl hg rfl,
    fun o => exec_of_rule_ok (u := { s with cur := o }) rfl hg rfl, fun l => ?_⟩
  split
  case isTrue hfits => exact exec_of_rule_ok (u := { s with len := l, cur := 0 }) (decide_eq_true hfits) hg rfl
  case isFalse hover => exact exec_of_not_wf (i := .bufset g l) (decide_eq_false hover) s

/-- Zero-extension keeps the number (R9). -/
theorem toNat_zext {w : ℕ} (v : BitVec w) (hw : w ≤ 64) : (zext v).toNat = v.toNat :=
  BitVec.toNat_setWidth_of_le hw

/-- Settles O23: each of the three rules answers its register zero-extended. -/
theorem registerReadsComplete : Obligations.RegisterReadsComplete := by
  intro g s hg
  exact ⟨⟨zext s.iw, exec_of_rule_ok rfl hg rfl, toNat_zext _ (by decide)⟩,
    ⟨zext s.len, exec_of_rule_ok rfl hg rfl, toNat_zext _ (by decide)⟩,
    ⟨zext s.cur, exec_of_rule_ok rfl hg rfl, toNat_zext _ (by decide)⟩⟩

end Sys2Proof.Machine
end

section
/-! SUPPORT. The bits of words put together by OR (spec/41_bitmap_selector.md R105 to R113): one flag at one position, and
a loop that ORs one term per entry. BMTST and BMOR are the case of a single flag. -/

namespace Sys2Proof.Machine

/-- One flag at one bit position of a word of any width: the term that `orBit` and the unpack loops OR in. -/
def flagAt (w pos : ℕ) (flag : Bool) : BitVec w := (if flag then 1#w else 0#w) <<< pos

theorem orBit_eq (word : Word) (pos : ℕ) (flag : Bool) : orBit word pos flag = word ||| flagAt 32 pos flag := rfl

theorem getLsbD_flagAt {w pos : ℕ} (hpos : pos < w) (flag : Bool) (k : ℕ) :
    (flagAt w pos flag).getLsbD k = (decide (k = pos) && flag) := by
  cases flag with
  | false => simp [flagAt]
  | true =>
    rw [Bool.and_true]
    calc (flagAt w pos true).getLsbD k = (decide (pos < w) && decide (pos = k)) := BitVec.getLsbD_twoPow pos k
      _ = decide (k = pos) := by simp [hpos, eq_comm]

theorem getLsbD_flagAt_iff {w pos : ℕ} (hpos : pos < w) (flag : Bool) (k : ℕ) :
    (flagAt w pos flag).getLsbD k = true ↔ pos = k ∧ flag = true := by
  rw [getLsbD_flagAt hpos, Bool.and_eq_true, decide_eq_true_eq, eq_comm]

/-- A bit of a loop of ORs is set when it was set before or some term sets it. -/
theorem getLsbD_foldl_or {α : Type} {w : ℕ} (term : α → BitVec w) (l : List α) (acc : BitVec w) (k : ℕ) :
    (l.foldl (fun acc a => acc ||| term a) acc).getLsbD k = true ↔
      acc.getLsbD k = true ∨ ∃ a ∈ l, (term a).getLsbD k = true := by
  induction l generalizing acc with
  | nil => simp
  | cons a rest ih =>
    rw [List.foldl_cons, ih, BitVec.getLsbD_or, Bool.or_eq_true, or_assoc]
    simp only [List.mem_cons, exists_eq_or_imp]

/-- A loop of ORs that starts from 0. -/
theorem getLsbD_foldl_or_zero {α : Type} {w : ℕ} (term : α → BitVec w) (l : List α) (k : ℕ) :
    (l.foldl (fun acc a => acc ||| term a) 0).getLsbD k = true ↔ ∃ a ∈ l, (term a).getLsbD k = true := by
  simp [getLsbD_foldl_or]

/-- Zero-extension keeps the bits (R9). -/
theorem getLsbD_zext {w : ℕ} (v : BitVec w) (hw : w ≤ 64) (k : ℕ) : (zext v).getLsbD k = v.getLsbD k := by
  rw [← BitVec.testBit_toNat, toNat_zext v hw, BitVec.testBit_toNat]

theorem toNat_ite_testBit (word : Word) (pos : ℕ) :
    (if testBit word pos then 1 else 0 : DWord).toNat = word.toNat / 2 ^ pos % 2 := by
  rw [testBit, BitVec.getLsbD, Nat.testBit_eq_decide_div_mod_eq]
  rcases Nat.mod_two_eq_zero_or_one (word.toNat / 2 ^ pos) with h | h <;> simp [h]

/-- Settles O33: BMOR ORs in one flag, BMTST reads one bit. -/
theorem singleBitCommandsComplete : Obligations.SingleBitCommandsComplete := by
  intro g pos w f s hg hpos
  have hwf : posInRange pos = true := decide_eq_true hpos
  refine ⟨⟨zext (orBit w pos.toNat (f.getLsbD 0)), exec_of_pure hwf hg rfl, fun k => ?_⟩,
    ⟨_, exec_of_pure hwf hg rfl, toNat_ite_testBit w pos.toNat⟩⟩
  rw [getLsbD_zext _ (by decide), orBit_eq, BitVec.getLsbD_or, getLsbD_flagAt (by omega)]

end Sys2Proof.Machine
end

section
/-! The indicator bitmaps (spec/41_bitmap_selector.md R107 to R109), for any table of entries at distinct positions. -/

namespace Sys2Proof.Machine

/-! ## The loops as folds over the indexed entries -/

theorem packEntries_eq_foldl (flags : Word) (l : List Config.ShapeEntry) (i : ℕ) (word : Word) :
    packEntries flags l i word =
      (l.zipIdx i).foldl (fun w p => orBit w p.1.pos.val (flags.getLsbD p.2)) word := by
  induction l generalizing i word with
  | nil => rfl
  | cons e rest ih => exact ih (i + 1) _

theorem unpackEntries_eq_foldl (word : Word) (l : List Config.ShapeEntry) (i : ℕ) (flags : Word) :
    unpackEntries word l i flags =
      (l.zipIdx i).foldl (fun w p => orBit w p.2 (word.getLsbD p.1.pos.val)) flags := by
  induction l generalizing i flags with
  | nil => rfl
  | cons e rest ih => exact ih (i + 1) _

/-- Pack is the fold of the one-bit OR over the entries (R109). -/
theorem packShape_eq_foldl (l : List Config.ShapeEntry) (flags : Word) :
    packShape l flags = l.zipIdx.foldl (fun w p => orBit w p.1.pos.val (flags.getLsbD p.2)) 0 :=
  packEntries_eq_foldl flags l 0 0

/-! ## The bits of a packed word and of an unpacked flags vector -/

section Bits

variable {l : List Config.ShapeEntry}

theorem getLsbD_packShape (flags : Word) (k : ℕ) : (packShape l flags).getLsbD k = true ↔
    ∃ (j : ℕ) (e : Config.ShapeEntry), l[j]? = some e ∧ e.pos.val = k ∧ flags.getLsbD j = true := by
  simp only [packShape_eq_foldl, orBit_eq, getLsbD_foldl_or_zero, getLsbD_flagAt_iff (Fin.isLt _),
    List.mem_zipIdx_iff_getElem?, Prod.exists]
  exact exists_comm

theorem getLsbD_unpackShape (hshort : l.length ≤ 32) (word : Word) (j : ℕ) :
    (unpackShape l word).getLsbD j = true ↔ ∃ e, l[j]? = some e ∧ word.getLsbD e.pos.val = true := by
  have hterm : ∀ p ∈ l.zipIdx, (flagAt 32 p.2 (word.getLsbD p.1.pos.val)).getLsbD j = true ↔
      p.2 = j ∧ word.getLsbD p.1.pos.val = true := fun p hp =>
    getLsbD_flagAt_iff (by have := List.snd_lt_of_mem_zipIdx hp; omega) _ j
  rw [unpackShape, unpackEntries_eq_foldl]
  simp only [orBit_eq, getLsbD_foldl_or_zero]
  constructor
  · rintro ⟨p, hp, hbit⟩
    obtain ⟨rfl, hword⟩ := (hterm p hp).1 hbit
    exact ⟨p.1, List.mem_zipIdx_iff_getElem?.1 hp, hword⟩
  · rintro ⟨e, he, hword⟩
    have hmem : (e, j) ∈ l.zipIdx := List.mem_zipIdx_iff_getElem?.2 he
    exact ⟨(e, j), hmem, (hterm _ hmem).2 ⟨rfl, hword⟩⟩

/-- In a table of distinct positions a position has one index. -/
theorem index_eq_of_pos_eq (hdistinct : (l.map Config.ShapeEntry.pos).Nodup) {i j : ℕ} {e e' : Config.ShapeEntry}
    (hi : l[i]? = some e) (hj : l[j]? = some e') (hpos : e.pos = e'.pos) : i = j := by
  have hlt : i < (l.map Config.ShapeEntry.pos).length := by
    rw [List.length_map]
    exact (List.getElem?_eq_some_iff.1 hi).1
  refine (List.getElem?_inj hlt hdistinct).1 ?_
  rw [List.getElem?_map, List.getElem?_map, hi, hj, Option.map_some, Option.map_some, hpos]

/-- At the position of entry j a packed word holds flag j, and no other. -/
theorem getLsbD_packShape_at_entry (hdistinct : (l.map Config.ShapeEntry.pos).Nodup) {j : ℕ} {e : Config.ShapeEntry}
    (he : l[j]? = some e) (flags : Word) :
    (packShape l flags).getLsbD e.pos.val = true ↔ flags.getLsbD j = true := by
  rw [getLsbD_packShape]
  constructor
  · rintro ⟨i, e', he', hpos, hflag⟩
    rwa [index_eq_of_pos_eq hdistinct he he' (Fin.ext hpos.symm)]
  · exact fun hflag => ⟨j, e, he, rfl, hflag⟩

/-- The word with a 1 at each position of a table: the mask of R109. -/
def positionMask (l : List Config.ShapeEntry) : Word := (l.map fun e => 1#32 <<< e.pos.val).foldr (· ||| ·) 0

theorem getLsbD_positionMask (l : List Config.ShapeEntry) (k : ℕ) :
    (positionMask l).getLsbD k = true ↔ ∃ e ∈ l, e.pos.val = k := by
  have hterm (e : Config.ShapeEntry) : (1#32 <<< e.pos.val).getLsbD k = true ↔ e.pos.val = k :=
    (getLsbD_flagAt_iff e.pos.isLt true k).trans (and_iff_left rfl)
  rw [positionMask, ← List.foldl_eq_foldr, List.foldl_map, getLsbD_foldl_or_zero]
  simp only [hterm]

/-! ## The laws of R109 -/

/-- The flags at and above the number of entries are lost, the others come back. -/
theorem unpackShape_packShape (hshort : l.length ≤ 32) (hdistinct : (l.map Config.ShapeEntry.pos).Nodup) (flags : Word) :
    (unpackShape l (packShape l flags)).toNat = flags.toNat % 2 ^ l.length := by
  apply Nat.eq_of_testBit_eq
  intro j
  rw [Nat.testBit_mod_two_pow, BitVec.testBit_toNat, BitVec.testBit_toNat, Bool.eq_iff_iff, getLsbD_unpackShape hshort,
    Bool.and_eq_true, decide_eq_true_eq]
  constructor
  · rintro ⟨e, he, hbit⟩
    exact ⟨(List.getElem?_eq_some_iff.1 he).1, (getLsbD_packShape_at_entry hdistinct he flags).1 hbit⟩
  · rintro ⟨hlt, hflag⟩
    have he : l[j]? = some l[j] := List.getElem?_eq_getElem hlt
    exact ⟨l[j], he, (getLsbD_packShape_at_entry hdistinct he flags).2 hflag⟩

/-- The bits outside the table are lost, the others come back. -/
theorem packShape_unpackShape (hshort : l.length ≤ 32) (word : Word) :
    packShape l (unpackShape l word) = word &&& positionMask l := by
  apply BitVec.eq_of_getLsbD_eq
  intro k _
  rw [Bool.eq_iff_iff, getLsbD_packShape, BitVec.getLsbD_and, Bool.and_eq_true, getLsbD_positionMask]
  constructor
  · rintro ⟨j, e, he, rfl, hflag⟩
    obtain ⟨e', he', hword⟩ := (getLsbD_unpackShape hshort word j).1 hflag
    cases he.symm.trans he'
    exact ⟨hword, e, List.mem_of_getElem? he, rfl⟩
  · rintro ⟨hword, e, hmem, rfl⟩
    obtain ⟨j, he⟩ := List.getElem?_of_mem hmem
    exact ⟨j, e, he, rfl, (getLsbD_unpackShape hshort word j).2 ⟨e, he, hword⟩⟩

end Bits

/-- Settles O36: the laws hold for any table of at most 32 entries at distinct positions, as every shape is. -/
theorem bitmapPackAndUnpackAreInverse : Obligations.BitmapPackAndUnpackAreInverse := fun sh =>
  ⟨unpackShape_packShape (Config.shape_short sh) (Config.shape_distinct sh),
    packShape_unpackShape (Config.shape_short sh), packShape_eq_foldl _⟩

/-! ## BMPACK and BMUNPACK -/

section Commands

variable {g : Gate} {s : State} (sh : Fin 8)

theorem toNat_shapeByte : (BitVec.ofNat 8 sh.val).toNat = sh.val := by
  rw [BitVec.toNat_ofNat]
  omega

theorem shapeInRange_shapeByte : shapeInRange (BitVec.ofNat 8 sh.val) = true := by
  rw [shapeInRange, toNat_shapeByte]
  exact decide_eq_true (by omega)

theorem shapeEntries_shapeByte : shapeEntries (BitVec.ofNat 8 sh.val) = Config.shape sh := by
  simp only [shapeEntries, toNat_shapeByte, sh.isLt, dif_pos]

theorem exec_bmpack_of_open (hg : s.gateOpen g = true) (flags : Word) :
    exec (.bmpack g (BitVec.ofNat 8 sh.val) flags) s = .next (s.respond (zext (packShape (Config.shape sh) flags))) := by
  rw [← shapeEntries_shapeByte]
  exact exec_of_pure (shapeInRange_shapeByte sh) hg rfl

theorem exec_bmunpack_of_open (hg : s.gateOpen g = true) (word : Word) :
    exec (.bmunpack g (BitVec.ofNat 8 sh.val) word) s = .next (s.respond (zext (unpackShape (Config.shape sh) word))) := by
  rw [← shapeEntries_shapeByte]
  exact exec_of_pure (shapeInRange_shapeByte sh) hg rfl

end Commands

/-- Settles O34: the result is the packed word. -/
theorem bmpackSetsThePositionsOfSetFlags : Obligations.BmpackSetsThePositionsOfSetFlags := by
  intro g sh flags s hg
  refine ⟨_, exec_bmpack_of_open sh hg flags, fun k => ?_⟩
  rw [getLsbD_zext _ (by decide)]
  exact getLsbD_packShape flags k

/-- Settles O35: the result is the unpacked flags vector; a shape has at most 32 entries. -/
theorem bmunpackReadsThePositions : Obligations.BmunpackReadsThePositions := by
  intro g sh w s hg
  refine ⟨_, exec_bmunpack_of_open sh hg w, fun j => ?_⟩
  rw [getLsbD_zext _ (by decide)]
  exact getLsbD_unpackShape (Config.shape_short sh) w j

end Sys2Proof.Machine
end

section
/-! The enable/value pairs (spec/41_bitmap_selector.md R110 to R114), for any table of sixteen distinct positions. -/

namespace Sys2Proof.Machine

/-! ## The positions are distinct (R111) -/

section Positions

variable {t : Config.PairPositions} {i j : Fin 8}

theorem ep_inj (h : (t.ep i).val = (t.ep j).val) : i = j :=
  List.inj_on_of_nodup_map (List.nodup_append'.1 t.distinct).1 (List.mem_finRange i) (List.mem_finRange j) (Fin.ext h)

theorem vp_inj (h : (t.vp i).val = (t.vp j).val) : i = j :=
  List.inj_on_of_nodup_map (List.nodup_append'.1 t.distinct).2.1 (List.mem_finRange i) (List.mem_finRange j) (Fin.ext h)

theorem ep_ne_vp (t : Config.PairPositions) (i j : Fin 8) : (t.ep i).val ≠ (t.vp j).val := fun h =>
  List.disjoint_of_nodup_append t.distinct (List.mem_map_of_mem (List.mem_finRange i))
    (Fin.ext h ▸ List.mem_map_of_mem (List.mem_finRange j))

end Positions

/-! ## The bits of a packed word and of the unpacked bytes -/

section Bits

variable (t : Config.PairPositions)

theorem packPairs_eq_foldl (enables values : Byte) : packPairs t enables values =
    (List.finRange 8).foldl (fun word i => word |||
      (flagAt 32 (t.ep i).val (enables.getLsbD i.val) ||| flagAt 32 (t.vp i).val (values.getLsbD i.val))) 0 := by
  simp only [packPairs, orBit_eq, BitVec.or_assoc]

theorem getLsbD_packPairs (enables values : Byte) (k : ℕ) : (packPairs t enables values).getLsbD k = true ↔
    ∃ i : Fin 8, ((t.ep i).val = k ∧ enables.getLsbD i.val = true) ∨
      ((t.vp i).val = k ∧ values.getLsbD i.val = true) := by
  simp only [packPairs_eq_foldl, getLsbD_foldl_or_zero, BitVec.getLsbD_or, Bool.or_eq_true,
    getLsbD_flagAt_iff (Fin.isLt _), List.mem_finRange, true_and]

/-- The byte that collects one flag for each of the eight pairs. -/
theorem getLsbD_collectFlags (flag : Fin 8 → Bool) (i : Fin 8) :
    ((List.finRange 8).foldl (fun acc j => acc ||| flagAt 8 j.val (flag j)) 0).getLsbD i.val = flag i := by
  rw [Bool.eq_iff_iff, getLsbD_foldl_or_zero]
  simp only [getLsbD_flagAt_iff (Fin.isLt _), List.mem_finRange, true_and, Fin.val_inj, exists_eq_left]

theorem getLsbD_unpackEnables (word : Word) (i : Fin 8) :
    (unpackEnables t word).getLsbD i.val = word.getLsbD (t.ep i).val :=
  getLsbD_collectFlags (fun j => testBit word (t.ep j).val) i

theorem getLsbD_unpackValues (word : Word) (i : Fin 8) :
    (unpackValues t word).getLsbD i.val = (word.getLsbD (t.ep i).val && word.getLsbD (t.vp i).val) :=
  getLsbD_collectFlags (fun j => testBit word (t.ep j).val && testBit word (t.vp j).val) i

/-- At an enable position a packed word holds that pair's enable, and nothing else. -/
theorem getLsbD_packPairs_ep (enables values : Byte) (i : Fin 8) :
    (packPairs t enables values).getLsbD (t.ep i).val = enables.getLsbD i.val := by
  rw [Bool.eq_iff_iff, getLsbD_packPairs]
  constructor
  · rintro ⟨j, ⟨hpos, hbit⟩ | ⟨hpos, -⟩⟩
    · rwa [← ep_inj hpos]
    · exact absurd hpos.symm (ep_ne_vp t i j)
  · exact fun hbit => ⟨i, .inl ⟨rfl, hbit⟩⟩

/-- At a value position a packed word holds that pair's value, and nothing else. -/
theorem getLsbD_packPairs_vp (enables values : Byte) (i : Fin 8) :
    (packPairs t enables values).getLsbD (t.vp i).val = values.getLsbD i.val := by
  rw [Bool.eq_iff_iff, getLsbD_packPairs]
  constructor
  · rintro ⟨j, ⟨hpos, -⟩ | ⟨hpos, hbit⟩⟩
    · exact absurd hpos (ep_ne_vp t j i)
    · rwa [← vp_inj hpos]
  · exact fun hbit => ⟨i, .inr ⟨rfl, hbit⟩⟩

/-! ## The laws of R114 -/

theorem unpackEnables_packPairs (enables values : Byte) : unpackEnables t (packPairs t enables values) = enables := by
  apply BitVec.eq_of_getLsbD_eq
  intro k hk
  rw [getLsbD_unpackEnables t _ ⟨k, hk⟩, getLsbD_packPairs_ep]

/-- A value whose enable is clear is lost. -/
theorem unpackValues_packPairs (enables values : Byte) :
    unpackValues t (packPairs t enables values) = (values &&& enables) := by
  apply BitVec.eq_of_getLsbD_eq
  intro k hk
  rw [getLsbD_unpackValues t _ ⟨k, hk⟩, getLsbD_packPairs_ep, getLsbD_packPairs_vp, BitVec.getLsbD_and, Bool.and_comm]

/-- The bits outside the table and the values whose enable is clear are lost. -/
theorem getLsbD_packPairs_unpack (word : Word) (k : ℕ) :
    (packPairs t (unpackEnables t word) (unpackValues t word)).getLsbD k = true ↔ word.getLsbD k = true ∧
      ∃ i : Fin 8, (t.ep i).val = k ∨ ((t.vp i).val = k ∧ word.getLsbD (t.ep i).val = true) := by
  simp only [getLsbD_packPairs, getLsbD_unpackEnables, getLsbD_unpackValues, Bool.and_eq_true]
  constructor
  · rintro ⟨i, ⟨rfl, henable⟩ | ⟨rfl, henable, hvalue⟩⟩
    · exact ⟨henable, i, .inl rfl⟩
    · exact ⟨hvalue, i, .inr ⟨rfl, henable⟩⟩
  · rintro ⟨hbit, i, rfl | ⟨rfl, henable⟩⟩
    · exact ⟨i, .inl ⟨rfl, hbit⟩⟩
    · exact ⟨i, .inr ⟨rfl, henable, hbit⟩⟩

end Bits

/-- Settles O39: the laws hold for any table of distinct positions, as EVPOS is. -/
theorem pairPackAndUnpackLaws : Obligations.PairPackAndUnpackLaws :=
  ⟨fun e v => ⟨unpackEnables_packPairs _ e v, unpackValues_packPairs _ e v⟩, getLsbD_packPairs_unpack _⟩

/-! ## EVPACK and EVUNPACK -/

/-- Settles O37: the result is the packed word. -/
theorem evpackSetsThePairPositions : Obligations.EvpackSetsThePairPositions := by
  intro g e v s hg
  refine ⟨zext (packPairs Config.evPos e v), exec_of_pure rfl hg rfl, fun k => ?_⟩
  rw [getLsbD_zext _ (by decide)]
  exact getLsbD_packPairs Config.evPos e v k

/-- Settles O38: the result is the byte of values above the byte of enables. -/
theorem evunpackGatesValuesByEnables : Obligations.EvunpackGatesValuesByEnables := by
  intro g w s hg
  refine ⟨zext (unpackValues Config.evPos w ++ unpackEnables Config.evPos w), exec_of_pure rfl hg rfl, ?_,
    fun i => ⟨?_, ?_⟩⟩
  · rw [toNat_zext _ (by decide)]
    exact BitVec.isLt _
  · rw [getLsbD_zext _ (by decide), BitVec.getLsbD_append, if_pos i.isLt, getLsbD_unpackEnables]
  · rw [getLsbD_zext _ (by decide), BitVec.getLsbD_append, if_neg (by omega), Nat.add_sub_cancel_left,
      getLsbD_unpackValues]

end Sys2Proof.Machine
end

section
/-! SUPPORT. A command whose result is a number (spec/30_encoding.md R77, R80). -/

namespace Sys2Proof.Machine

/-- A command that answers a function of its operands alone, when that is a number of 64 bits. -/
theorem exec_of_pure_number {i : Instr} {s : State} {n : ℕ} (hwf : i.wf = true) (hg : s.gateOpen i.gate = true)
    (hrule : ownRule i = answer fun _ => BitVec.ofNat 64 n) (hn : n < 2 ^ 64) :
    ∃ r : DWord, exec i s = .next (s.respond r) ∧ r.toNat = n :=
  ⟨_, exec_of_pure hwf hg hrule, (BitVec.toNat_ofNat n 64).trans (Nat.mod_eq_of_lt hn)⟩

end Sys2Proof.Machine
end

section
/-! Bit fields (spec/42_bitfield.md R120 to R124): the bits of an insert and of an extract, on any field inside the word. -/

namespace Sys2Proof.Machine

open Claims

/-! ## Bit by bit -/

theorem getLsbD_mask {width : ℕ} (hw : width ≤ 32) (k : ℕ) : (mask width).getLsbD k = decide (k < width) := by
  rw [mask, BitVec.getLsbD_ofNat, Nat.testBit_two_pow_sub_one, ← Bool.decide_and]
  exact decide_eq_decide.2 (by omega)

section Field

variable {off width : ℕ} (hfit : off + width ≤ 32)
include hfit

theorem getLsbD_fieldMask (k : ℕ) : (fieldMask (off, width)).getLsbD k = decide (off ≤ k ∧ k < off + width) := by
  rw [fieldMask, BitVec.getLsbD_shiftLeft, getLsbD_mask (by omega), ← decide_not, ← Bool.decide_and, ← Bool.decide_and]
  exact decide_eq_decide.2 (by omega)

/-- A masked value at its field: the term that an insert ORs in. -/
theorem getLsbD_mask_shifted (v : Word) (k : ℕ) : ((v &&& mask width) <<< off).getLsbD k =
    (decide (off ≤ k ∧ k < off + width) && v.getLsbD (k - off)) := by
  have hterm : (v &&& mask width) <<< off = fieldMask (off, width) &&& v <<< off := by
    rw [BitVec.shiftLeft_and_distrib, BitVec.and_comm, fieldMask]
  rw [hterm, BitVec.getLsbD_and, getLsbD_fieldMask hfit, BitVec.getLsbD_shiftLeft]
  by_cases hk : off ≤ k ∧ k < off + width
  · rw [decide_eq_true (by omega : k < 32), decide_eq_false (by omega : ¬k < off), Bool.not_false, Bool.true_and,
      Bool.true_and]
  · rw [decide_eq_false hk, Bool.false_and, Bool.false_and]

theorem getLsbD_insertField (w v : Word) (k : ℕ) : (insertField off width w v).getLsbD k =
    (w.getLsbD k || (decide (off ≤ k ∧ k < off + width) && v.getLsbD (k - off))) := by
  rw [insertField, BitVec.getLsbD_or, getLsbD_mask_shifted hfit]

theorem getLsbD_extractField (w : Word) (k : ℕ) : (extractField off width w).getLsbD k =
    (w.getLsbD (off + k) && decide (k < width)) := by
  rw [extractField, BitVec.getLsbD_and, BitVec.getLsbD_ushiftRight, getLsbD_mask (by omega)]

/-- The field as an unsigned number (R123). -/
theorem toNat_extractField (w : Word) : (extractField off width w).toNat = w.toNat / 2 ^ off % 2 ^ width := by
  apply Nat.eq_of_testBit_eq
  intro k
  rw [BitVec.testBit_toNat, getLsbD_extractField hfit, Nat.testBit_mod_two_pow, Nat.testBit_div_two_pow,
    BitVec.testBit_toNat, Bool.and_comm, Nat.add_comm]

/-- R124 item 1: the inserted value is ORed over the old field. -/
theorem extractField_insertField (w v : Word) :
    extractField off width (insertField off width w v) = (extractField off width w ||| (v &&& mask width)) := by
  apply BitVec.eq_of_getLsbD_eq
  intro k _
  rw [BitVec.getLsbD_or, BitVec.getLsbD_and, getLsbD_mask (by omega), getLsbD_extractField hfit,
    getLsbD_extractField hfit, getLsbD_insertField hfit, Nat.add_sub_cancel_left]
  by_cases hk : k < width <;> simp [hk]

/-- R124 item 2: an insert leaves a field disjoint from its own as it was. -/
theorem extractField_insertField_of_disjoint {off' width' : ℕ} (hfit' : off' + width' ≤ 32)
    (hdisjoint : off + width ≤ off' ∨ off' + width' ≤ off) (w v : Word) :
    extractField off width (insertField off' width' w v) = extractField off width w := by
  apply BitVec.eq_of_getLsbD_eq
  intro k _
  rw [getLsbD_extractField hfit, getLsbD_extractField hfit, getLsbD_insertField hfit']
  by_cases hk : k < width
  · have hout : ¬(off' ≤ off + k ∧ off + k < off' + width') := by omega
    rw [decide_eq_false hout, Bool.false_and, Bool.or_false]
  · rw [decide_eq_false hk, Bool.and_false, Bool.and_false]

/-- Copying a field of `w0` into `w` ORs in what `w0` holds under the field's mask. -/
theorem insertField_extractField (w w0 : Word) :
    insertField off width w (extractField off width w0) = w ||| (w0 &&& fieldMask (off, width)) := by
  refine congrArg (w ||| ·) ?_
  apply BitVec.eq_of_getLsbD_eq
  intro k _
  rw [getLsbD_mask_shifted hfit, getLsbD_extractField hfit, BitVec.getLsbD_and, getLsbD_fieldMask hfit]
  by_cases hk : off ≤ k ∧ k < off + width
  · rw [decide_eq_true hk, decide_eq_true (by omega : k - off < width), Nat.add_sub_cancel' hk.1, Bool.true_and]
  · rw [decide_eq_false hk, Bool.false_and, Bool.and_false]

end Field

/-! ## The laws of R124 -/

/-- R124 item 2: two inserts are two ORs, so they commute on any two fields. -/
theorem insertField_comm (off width off' width' : ℕ) (w u v : Word) :
    insertField off width (insertField off' width' w u) v = insertField off' width' (insertField off width w v) u := by
  unfold insertField
  ac_rfl

theorem insertField_zero (off width : ℕ) (w : Word) : insertField off width w 0 = w := by
  simp [insertField]

/-- R124 item 3: the bits outside the fields are lost, the others come back. -/
theorem foldl_insertField_extractField {fs : List (ℕ × ℕ)} (hfs : ∀ f ∈ fs, fieldOk f) (w0 : Word) :
    fs.foldl (fun w f => insertField f.1 f.2 w (extractField f.1 f.2 w0)) 0 =
      w0 &&& fs.foldl (fun m f => m ||| fieldMask f) 0 := by
  have hcopy : fs.foldl (fun w f => insertField f.1 f.2 w (extractField f.1 f.2 w0)) 0 =
      fs.foldl (fun w f => w ||| (w0 &&& fieldMask f)) 0 :=
    List.foldl_ext _ _ _ fun w f hf => insertField_extractField (hfs f hf).2 w w0
  apply BitVec.eq_of_getLsbD_eq
  intro k _
  rw [hcopy, Bool.eq_iff_iff, getLsbD_foldl_or_zero, BitVec.getLsbD_and, Bool.and_eq_true, getLsbD_foldl_or_zero]
  simp only [BitVec.getLsbD_and, Bool.and_eq_true]
  constructor
  · rintro ⟨f, hf, hw0, hmask⟩
    exact ⟨hw0, f, hf, hmask⟩
  · rintro ⟨hw0, f, hf, hmask⟩
    exact ⟨f, hf, hw0, hmask⟩

/-- Settles O50: only an extract after another field's insert needs the fields disjoint; ORs commute, and copying a bit twice
is copying it once. -/
theorem insertAndExtractLaws : Obligations.InsertAndExtractLaws :=
  ⟨fun _ w v hf => extractField_insertField hf.2 w v,
    fun _ _ w u v hf hh hdisjoint =>
      ⟨insertField_comm _ _ _ _ w u v, extractField_insertField_of_disjoint hf.2 hh.2 hdisjoint w u⟩,
    fun _ w0 hfs _ => foldl_insertField_extractField hfs w0,
    fun _ w _ => insertField_zero _ _ w⟩

/-! ## BFINS and BFEXT -/

/-- Settles O49: the results are the inserted word and the extracted field, zero-extended. -/
theorem bitFieldCommandsComplete : Obligations.BitFieldCommandsComplete := by
  intro g off width w v s hg hwidth hoff hfit
  have hwf : fieldInWord off width = true := by
    rw [← Bool.not_eq_false, fieldInWord_eq_false_iff]
    omega
  refine ⟨⟨zext (insertField off.toNat width.toNat w v), exec_of_pure hwf hg rfl, fun k => ?_⟩,
    ⟨zext (extractField off.toNat width.toNat w), exec_of_pure hwf hg rfl, ?_⟩⟩
  · rw [getLsbD_zext _ (by decide), getLsbD_insertField hfit]
  · rw [toNat_zext _ (by decide), toNat_extractField hfit]

end Sys2Proof.Machine
end

section
/-! The (value - 1) codec (spec/42_bitfield.md R125 to R128): both directions at once for its two widths, which differ only
in whether the threshold is the all-ones pattern (16 bits) or one above it (6 bits), where all-ones is its value - 1. -/

namespace Sys2Proof.Machine

/-! ## The tables of R126 and R127 -/

section Widths

variable {w : ℕ} (hw : w = 16 ∨ w = 6)
include hw

/-- The threshold is the all-ones pattern or one above it. -/
theorem m1Threshold_bounds : 0 < m1Threshold w ∧ m1Threshold w ≤ 2 ^ w ∧ 2 ^ w ≤ m1Threshold w + 1 := by
  rcases hw with rfl | rfl <;> decide

theorem m1Threshold_lt : m1Threshold w < 2 ^ 64 := by
  rcases hw with rfl | rfl <;> decide

/-- R126 without the modulus: 0 and everything from the threshold on become all-ones. -/
theorem m1Encode_eq (v : ℕ) :
    m1Encode w v = if v = 0 then 2 ^ w - 1 else if v < m1Threshold w then v - 1 else 2 ^ w - 1 := by
  obtain ⟨hpos, hle, hge⟩ := m1Threshold_bounds hw
  have hcast : ((2 ^ w : ℕ) : ℤ) = 2 ^ w := Nat.cast_pow 2 w
  unfold m1Encode
  split
  case isTrue hsat => rw [if_neg (by omega), if_neg (by omega), Nat.min_eq_right (by omega)]
  case isFalse hbelow =>
    rw [← hcast]
    rcases Nat.eq_zero_or_pos v with rfl | hv
    · rw [if_pos rfl, Int.emod_eq_add_self_emod, Int.emod_eq_of_lt (by omega) (by omega)]
      omega
    · rw [if_neg (by omega), if_pos (by omega), Int.emod_eq_of_lt (by omega) (by omega)]
      omega

theorem m1Encode_lt (v : ℕ) : m1Encode w v < 2 ^ w := by
  obtain ⟨hpos, hle, hge⟩ := m1Threshold_bounds hw
  rw [m1Encode_eq hw]
  split_ifs <;> omega

theorem m1Decode_le {x : ℕ} (hx : x < 2 ^ w) : m1Decode w x ≤ m1Threshold w := by
  obtain ⟨hpos, hle, hge⟩ := m1Threshold_bounds hw
  rw [m1Decode]
  split <;> omega

/-! ## The laws of R128 -/

theorem m1Decode_m1Encode (v : ℕ) :
    m1Decode w (m1Encode w v) = if 1 ≤ v ∧ v ≤ m1Threshold w then v else m1Threshold w := by
  obtain ⟨hpos, hle, hge⟩ := m1Threshold_bounds hw
  rw [m1Encode_eq hw, m1Decode]
  split_ifs <;> omega

/-- Only the pattern just below the threshold can be lost: it decodes to the threshold, which encodes to all-ones. -/
theorem m1Encode_m1Decode {x : ℕ} (hx : x < 2 ^ w) :
    m1Encode w (m1Decode w x) = if x + 1 = m1Threshold w then 2 ^ w - 1 else x := by
  obtain ⟨hpos, hle, hge⟩ := m1Threshold_bounds hw
  by_cases hbelow : x < m1Threshold w
  · rw [m1Decode, if_pos hbelow, m1Encode_eq hw, if_neg (Nat.succ_ne_zero x), Nat.add_sub_cancel]
    split_ifs <;> omega
  · rw [m1Decode, if_neg hbelow, m1Encode_eq hw, if_neg (by omega), if_neg hbelow, if_neg (by omega)]
    omega

end Widths

/-- Settles O52: at 6 bits the pattern below the threshold is all-ones, so none is lost. -/
theorem valueMinusOneLaws : Obligations.ValueMinusOneLaws := by
  refine ⟨m1Decode_m1Encode (.inl rfl), fun x hx => ?_, m1Decode_m1Encode (.inr rfl), fun x hx => ?_⟩
  · rw [m1Encode_m1Decode (.inl rfl) (by omega)]
    exact if_congr (Nat.succ_inj (b := 0xFFFE)) rfl rfl
  · rw [m1Encode_m1Decode (.inr rfl) (by omega), show m1Threshold 6 = 64 from rfl]
    split <;> omega

/-! ## M1ENC and M1DEC -/

theorem m1WidthOk_of_toNat {width : Byte} (hwidth : width.toNat = 16 ∨ width.toNat = 6) : m1WidthOk width = true := by
  rw [← Bool.not_eq_false, m1WidthOk_eq_false_iff]
  omega

section Commands

variable {g : Gate} {s : State} (hg : s.gateOpen g = true) {width : Byte} (hwidth : width.toNat = 16 ∨ width.toNat = 6)
include hg hwidth

theorem exec_m1enc_of_open (v : Word) : ∃ r : DWord,
    exec (.m1enc g width v) s = .next (s.respond r) ∧ r.toNat = m1Encode width.toNat v.toNat := by
  refine exec_of_pure_number (m1WidthOk_of_toNat hwidth) hg rfl ?_
  calc m1Encode width.toNat v.toNat < 2 ^ width.toNat := m1Encode_lt hwidth _
    _ ≤ 2 ^ 64 := Nat.pow_le_pow_right (by decide) (by omega)

theorem exec_m1dec_of_open (x : BitVec 16) : ∃ r : DWord,
    exec (.m1dec g width x) s = .next (s.respond r) ∧
      r.toNat = m1Decode width.toNat (x.toNat % 2 ^ width.toNat) := by
  refine exec_of_pure_number (m1WidthOk_of_toNat hwidth) hg rfl ?_
  calc m1Decode width.toNat (x.toNat % 2 ^ width.toNat) ≤ m1Threshold width.toNat :=
        m1Decode_le hwidth (Nat.mod_lt _ (Nat.two_pow_pos _))
    _ < 2 ^ 64 := m1Threshold_lt hwidth

end Commands

/-- Settles O51: the tables at the two widths, with their thresholds 0xFFFF and 64. -/
theorem valueMinusOneCommandsComplete : Obligations.ValueMinusOneCommandsComplete := by
  intro g s hg
  refine ⟨fun v => ?_, fun v => ?_, fun x => ?_, fun x => ?_⟩
  · obtain ⟨r, hexec, hr⟩ := exec_m1enc_of_open hg (width := 16) (.inl rfl) v
    refine ⟨r, hexec, hr.trans ((m1Encode_eq (.inl rfl) _).trans ?_)⟩
    exact if_congr Iff.rfl rfl (if_congr Nat.lt_succ_iff rfl rfl)
  · obtain ⟨r, hexec, hr⟩ := exec_m1enc_of_open hg (width := 6) (.inr rfl) v
    refine ⟨r, hexec, hr.trans ((m1Encode_eq (.inr rfl) _).trans ?_)⟩
    exact if_congr Iff.rfl rfl (if_congr Nat.lt_succ_iff rfl rfl)
  · obtain ⟨r, hexec, hr⟩ := exec_m1dec_of_open hg (width := 16) (.inl rfl) x
    refine ⟨r, hexec, ?_⟩
    calc r.toNat = m1Decode 16 (x.toNat % 2 ^ 16) := hr
      _ = m1Decode 16 x.toNat := by rw [Nat.mod_eq_of_lt x.isLt]
      _ = if x.toNat ≤ 0xFFFE then x.toNat + 1 else x.toNat := if_congr Nat.lt_succ_iff rfl rfl
      _ = if x.toNat ≤ 0xFFFE then x.toNat + 1 else 0xFFFF := by
        have := x.isLt
        split <;> omega
  · obtain ⟨r, hexec, hr⟩ := exec_m1dec_of_open hg (width := 6) (.inr rfl) x
    exact ⟨r, hexec, hr.trans (if_pos (Nat.mod_lt _ (by decide)))⟩

end Sys2Proof.Machine
end

section
/-! The size sum of VSIZE (spec/43_buffer.md R143): three 32-bit operands cannot carry it out of 64 bits. -/

namespace Sys2Proof.Machine

theorem vsizeOf_lt (base count stride : Word) : vsizeOf base count stride < 2 ^ 64 := by
  have hcount : count.toNat ≤ 2 ^ 32 - 1 := Nat.le_sub_one_of_lt count.isLt
  have hstride : stride.toNat ≤ 2 ^ 32 - 1 := Nat.le_sub_one_of_lt stride.isLt
  calc base.toNat + count.toNat * stride.toNat < 2 ^ 32 + (2 ^ 32 - 1) * (2 ^ 32 - 1) :=
        Nat.add_lt_add_of_lt_of_le base.isLt (Nat.mul_le_mul hcount hstride)
    _ ≤ 2 ^ 64 := by decide

/-- Settles O31: the sum fits the 64-bit result. -/
theorem vsizeIsExact : Obligations.VsizeIsExact := fun _ base count stride _ hg =>
  exec_of_pure_number rfl hg rfl (vsizeOf_lt base count stride)

end Sys2Proof.Machine
end

section
/-! The commands that access the buffer or check an extent of it (spec/43_buffer.md R135, R140, R141, R144, R145, R147). -/

namespace Sys2Proof.Machine

/-! ## The cursor, and the numbers that go in and out -/

/-- The cursor is all that post-modification touches (R135). -/
theorem State.advance_eq (s : State) (x : AddrOperand) (n : ℕ) : s.advance x n = { s with cur := (s.advance x n).cur } := by
  cases x <;> rfl

/-- A cursor that stays within LEN does not wrap (R135). -/
theorem State.toNat_advance_cursor {s : State} {n : ℕ} (fits : s.ea .cursor + n ≤ s.len.toNat) :
    (s.advance .cursor n).cur.toNat = s.cur.toNat + n :=
  Nat.mod_eq_of_lt (fits.trans_lt s.len.isLt)

/-- A byte of the low `n` bytes of a value is a byte of the value (R140). -/
theorem ofNat_lowBytes_div {n k : ℕ} (hk : k < n) (v : DWord) :
    BitVec.ofNat 8 (lowBytes n v / 2 ^ (8 * (n - 1 - k))) = v.extractLsb' (8 * (n - k - 1)) 8 := by
  apply BitVec.eq_of_getLsbD_eq
  intro i hi
  have hbyte : i + 8 * (n - k - 1) < 8 * n := by omega
  rw [Nat.sub_right_comm, BitVec.getLsbD_ofNat, lowBytes, Nat.testBit_div_two_pow, Nat.testBit_mod_two_pow,
    BitVec.testBit_toNat, BitVec.getLsbD_extractLsb', Nat.add_comm (8 * (n - k - 1))]
  simp [hbyte]

theorem State.loadBE_lt (s : State) (a n : ℕ) : s.loadBE a n < 2 ^ (8 * n) := by
  induction n generalizing a with
  | zero => exact Nat.one_pos
  | succ n ih =>
    calc s.loadBE a (n + 1) = s.loadBE (a + 1) n + 2 ^ (8 * n) * (s.byteAt a).toNat := by
          rw [State.loadBE, Nat.add_comm, Nat.mul_comm]
      _ < 2 ^ (8 * n) * 2 ^ 8 := Nat.add_mul_lt_mul_of_lt_of_lt (ih _) (s.byteAt a).isLt
      _ = 2 ^ (8 * (n + 1)) := (Nat.pow_add 2 _ 8).symm

theorem accessWidth_le_eight {n : Byte} (hn : Claims.accessWidth n) : n.toNat ≤ 8 := by
  rcases hn with rfl | rfl | rfl | rfl <;> decide

/-- The number of an access is a 64-bit result as it stands (R42, R141). -/
theorem State.toNat_ofNat_loadBE (s : State) (a : ℕ) {n : Byte} (hn : Claims.accessWidth n) :
    (BitVec.ofNat 64 (s.loadBE a n.toNat)).toNat = s.loadBE a n.toNat :=
  Nat.mod_eq_of_lt ((s.loadBE_lt a n.toNat).trans_le
    (Nat.pow_le_pow_right two_pos (Nat.mul_le_mul_left 8 (accessWidth_le_eight hn))))

/-! ## STBE and LDBE inside LEN -/

/-- Settles O26: `exec_stbe_of_fits` gives the state; its bytes, its cursor and its other fields are read off it. -/
theorem storeCompletes : Obligations.StoreCompletes := by
  intro g n x v s hg hn fits
  refine ⟨_, exec_stbe_of_fits hg hn v fits, rfl, fun k hk => ?_, fun a ha => ?_, ?_, by simp⟩
  · rw [State.respond_byteAt, State.advance_byteAt, State.byteAt_storeBE_inside s _ _ hk, ofNat_lowBytes_div hk]
  · rw [State.respond_byteAt, State.advance_byteAt, State.byteAt_storeBE_outside s _ ha]
  · cases x with
    | absolute => rfl
    | cursor => exact State.toNat_advance_cursor fits

/-- Settles O27: `exec_ldbe_of_fits` gives the state and the answer, which 64 bits hold. -/
theorem loadCompletes : Obligations.LoadCompletes := by
  intro g n x s hg hn fits
  refine ⟨_, (s.advance x n.toNat).cur, ?_, (s.toNat_ofNat_loadBE (s.ea x) hn).trans (s.loadBE_eq_sum _ _), ?_⟩
  · rw [exec_ldbe_of_fits hg hn fits, State.advance_eq]
    rfl
  · cases x with
    | absolute => rfl
    | cursor => exact State.toNat_advance_cursor fits

/-! ## CHKSZ and CHKVL -/

/-- A legal command with its gate open whose own rule raises an error. -/
theorem exec_of_rule_error {i : Instr} {s : State} {e : CommandError} (hwf : i.wf = true) (hg : s.gateOpen i.gate = true)
    (hrule : ownRule i s = .error e) : exec i s = .next (s.raise e.status) := by
  rw [exec_eq_perform, hwf]
  exact perform_error hg hrule

section Rules

variable {x : AddrOperand} {s : State}

theorem checkRule_of_fits (e : CommandError) {size : DWord} (fits : s.ea x + size.toNat ≤ s.len.toNat) :
    checkRule e x size s = .ok (s, 0) :=
  ((checkRule_cases e x size s).resolve_right fun h => h.1.not_ge fits).2

theorem checkRule_of_overrun (e : CommandError) {size : DWord} (hover : s.len.toNat < s.ea x + size.toNat) :
    checkRule e x size s = .error e :=
  ((checkRule_cases e x size s).resolve_left fun h => h.1.not_gt hover).2

theorem storeRule_of_fits {n : ℕ} (v : DWord) (fits : s.ea x + n ≤ s.len.toNat) : storeRule n x v s =
    .ok (({ s with buf := s.buf.storeBE (s.ea x) (lowBytes n v) n } : State).advance x n, 0) :=
  ((storeRule_cases n x v s).resolve_right fun h => h.1.not_ge fits).2

theorem loadRule_of_fits {n : ℕ} (fits : s.ea x + n ≤ s.len.toNat) :
    loadRule n x s = .ok (s.advance x n, BitVec.ofNat 64 (s.loadBE (s.ea x) n)) :=
  ((loadRule_cases n x s).resolve_right fun h => h.1.not_ge fits).2

end Rules

/-- What a legal check with its gate open answers, whichever error is its own (R144, R145). -/
theorem exec_check_of_open {i : Instr} {e : CommandError} {x : AddrOperand} {size : DWord} {s : State}
    (hi : ownRule i = checkRule e x size) (hwf : i.wf = true) (hg : s.gateOpen i.gate = true) :
    (s.ea x + size.toNat ≤ s.len.toNat → exec i s = .next (s.respond 0)) ∧
    (s.len.toNat < s.ea x + size.toNat → exec i s = .next (s.raise e.status)) :=
  ⟨fun fits => exec_of_rule_ok hwf hg (hi ▸ checkRule_of_fits e fits),
    fun hover => exec_of_rule_error hwf hg (hi ▸ checkRule_of_overrun e hover)⟩

/-- Settles O29: the two commands differ only in the error of the one rule they share. -/
theorem extentChecksComplete : Obligations.ExtentChecksComplete := by
  intro g x size s hg
  obtain ⟨hszFits, hszOver⟩ := exec_check_of_open (i := .chksz g x size) rfl rfl hg
  obtain ⟨hvlFits, hvlOver⟩ := exec_check_of_open (i := .chkvl g x size) rfl rfl hg
  exact ⟨fun fits => ⟨hszFits fits, hvlFits fits⟩, fun hover => ⟨hszOver hover, hvlOver hover⟩⟩

/-! ## Accesses inside a checked extent (R147) -/

theorem CommandError.status_ne_ok (e : CommandError) : e.status ≠ .ok := by
  cases e <;> decide

/-- Status OK is answered only by a rule that ran without an error (R62, R77). -/
theorem ownRule_ok_of_response_ok {i : Instr} {s t : State} {r : DWord} (h : exec i s = .next t)
    (hok : t.response = some ⟨.ok, r⟩) : ∃ u r', ownRule i s = .ok (u, r') := by
  rw [exec_eq_perform] at h
  rcases perform_cases h with ⟨-, rfl⟩ | ⟨-, -, rfl⟩ | ⟨-, -, e, -, rfl⟩ | ⟨-, -, u, r', hrule, -⟩
  · simp at hok
  · simp at hok
  · simp [e.status_ne_ok] at hok
  · exact ⟨u, r', hrule⟩

/-- A check that answered OK found the extent inside LEN. -/
theorem fits_of_check_ok {i : Instr} {e : CommandError} {x : AddrOperand} {size : DWord} {s t : State} {r : DWord}
    (hi : ownRule i = checkRule e x size) (h : exec i s = .next t) (hok : t.response = some ⟨.ok, r⟩) :
    s.ea x + size.toNat ≤ s.len.toNat := by
  obtain ⟨u, r', hrule⟩ := ownRule_ok_of_response_ok h hok
  by_contra hover
  rw [hi, checkRule_of_overrun e (not_le.1 hover)] at hrule
  cases hrule

/-- A legal command whose own rule raises no error: its gate alone decides between OK and SKIPPED. -/
theorem exec_status_of_rule_ok {i : Instr} {s u : State} {r : DWord} (hwf : i.wf = true)
    (hrule : ownRule i s = .ok (u, r)) : ∃ w r, exec i s = .next w ∧ w.response = some r ∧
      r.status = if s.gateOpen i.gate then .ok else .skipped := by
  cases hg : s.gateOpen i.gate with
  | false => exact ⟨_, _, exec_of_gateClosed hwf hg, rfl, rfl⟩
  | true => exact ⟨_, _, exec_of_rule_ok hwf hg hrule, rfl, rfl⟩

/-- Settles O30: the check bounds the extent by LEN, so the range of an access inside it fits whenever LEN is the same. -/
theorem accessInsideACheckedExtentIsOk : Obligations.AccessInsideACheckedExtentIsOk := by
  intro gc g x y size n v s t u hn hcheck hok hlen _ hend
  have hextent : s.ea x + size.toNat ≤ s.len.toNat := by
    rcases hcheck with hchksz | hchkvl
    · exact fits_of_check_ok rfl hchksz hok
    · exact fits_of_check_ok rfl hchkvl hok
  have fits : u.ea y + n.toNat ≤ u.len.toNat := hlen ▸ hend.trans hextent
  have hwf : byteCountOk n = true := byteCountOk_of_accessWidth hn
  exact ⟨exec_status_of_rule_ok (i := .stbe g n y v) hwf (storeRule_of_fits v fits),
    exec_status_of_rule_ok (i := .ldbe g n y) hwf (loadRule_of_fits fits)⟩

end Sys2Proof.Machine
end

section
/-! SUPPORT. Strings of bytes in the buffer (spec/20_memory.md R41): the bytes of a big-endian number, and that a string of
bytes stands at an address. -/

namespace Sys2Proof.Machine

/-! ## The bytes of a number -/

/-- The low `n` bytes of a number, most significant first (R41). -/
def beBytes (n v : ℕ) : List Byte := (List.range n).map fun k => BitVec.ofNat 8 (v / 2 ^ (8 * (n - 1 - k)))

@[simp] theorem length_beBytes (n v : ℕ) : (beBytes n v).length = n := by
  rw [beBytes, List.length_map, List.length_range]

theorem getElem_beBytes {n v k : ℕ} (hk : k < (beBytes n v).length) :
    (beBytes n v)[k] = BitVec.ofNat 8 (v / 2 ^ (8 * (n - 1 - k))) := by
  simp [beBytes]

/-- One byte is its own string. -/
theorem beBytes_one (b : Byte) : beBytes 1 b.toNat = [b] := by
  simp [beBytes]

/-- A number put together of two: the bytes of the high one, then those of the low one. -/
theorem beBytes_append (m n u : ℕ) {v : ℕ} (hv : v < 2 ^ (8 * n)) :
    beBytes (m + n) (u * 2 ^ (8 * n) + v) = beBytes m u ++ beBytes n v := by
  rw [beBytes, List.range_add, List.map_append, List.map_map]
  congr 1
  · refine List.map_congr_left fun k hk => ?_
    have hlt : k < m := List.mem_range.1 hk
    rw [show 8 * (m + n - 1 - k) = 8 * n + 8 * (m - 1 - k) by omega, Nat.pow_add, ← Nat.div_div_eq_div_mul,
      Nat.mul_comm u, Nat.mul_add_div (by positivity), Nat.div_eq_of_lt hv, Nat.add_zero]
  · refine List.map_congr_left fun k hk => ?_
    have hlt : k < n := List.mem_range.1 hk
    have hhigh : u * 2 ^ (8 * n) = 2 ^ (8 * (n - 1 - k)) * (2 ^ 8 * (u * 2 ^ (8 * k))) := by
      rw [show 8 * n = 8 * (n - 1 - k) + (8 + 8 * k) by omega, Nat.pow_add, Nat.pow_add]
      ac_rfl
    apply BitVec.eq_of_toNat_eq
    simp only [Function.comp_apply, BitVec.toNat_ofNat]
    rw [show m + n - 1 - (m + k) = n - 1 - k by omega, hhigh, Nat.mul_add_div (by positivity), Nat.mul_add_mod]

/-! ## Strings that stand in the buffer -/

/-- The string `bs` stands in BUF from `a` on. -/
def State.holds (s : State) (a : ℕ) (bs : List Byte) : Prop := ∀ k (hk : k < bs.length), s.byteAt (a + k) = bs[k]

section Holds

variable {s t : State} {a : ℕ}

theorem State.holds_nil (s : State) (a : ℕ) : s.holds a [] := fun _ hk => absurd hk (Nat.not_lt_zero _)

theorem State.holds_append {bs cs : List Byte} : s.holds a (bs ++ cs) ↔ s.holds a bs ∧ s.holds (a + bs.length) cs := by
  constructor
  · intro h
    refine ⟨fun k hk => ?_, fun k hk => ?_⟩
    · rw [h k (by rw [List.length_append]; omega), List.getElem_append_left hk]
    · rw [Nat.add_assoc, h (bs.length + k) (by rw [List.length_append]; omega),
        List.getElem_append_right (Nat.le_add_right _ _)]
      simp
  · rintro ⟨hbs, hcs⟩ k hk
    rw [List.length_append] at hk
    rcases Nat.lt_or_ge k bs.length with hlt | hge
    · rw [hbs k hlt, List.getElem_append_left hlt]
    · rw [List.getElem_append_right hge, ← hcs (k - bs.length) (by omega)]
      congr 1
      omega

/-- A string stands where the same bytes are. -/
theorem State.holds.congr {bs : List Byte} (h : s.holds a bs)
    (hsame : ∀ k, k < bs.length → t.byteAt (a + k) = s.byteAt (a + k)) : t.holds a bs :=
  fun k hk => (hsame k hk).trans (h k hk)

/-- What a load reads where the bytes of a number stand (R42). -/
theorem State.loadBE_of_holds {n v : ℕ} (h : s.holds a (beBytes n v)) : s.loadBE a n = v % 2 ^ (8 * n) :=
  State.loadBE_of_bytes fun k hk => (h k (by rwa [length_beBytes])).trans (getElem_beBytes _)

end Holds

end Sys2Proof.Machine
end

section
/-! SUPPORT. What a sequence of ungated commands does where it meets no error (spec/44_field_layouts.md R155, R173, R174):
each store and load at the cursor moves the cursor past a string of bytes, and the pure commands between them change
nothing. -/

namespace Sys2Proof.Machine

open Claims

/-! ## How a sequence goes on -/

/-- The latest command was answered OK. -/
def State.answeredOk (s : State) : Prop := s.response.map Response.status = some .ok

theorem State.answeredOk_respond (s : State) (r : DWord) : (s.respond r).answeredOk := rfl

theorem State.answeredOk_of_response {s : State} {r : DWord} (h : s.response = some ⟨.ok, r⟩) : s.answeredOk := by
  rw [State.answeredOk, h]
  rfl

theorem finish_of_answeredOk {α : Type} {s : State} (h : s.answeredOk) (v : α) :
    finish v s = some ⟨.ok, some v, s⟩ := by
  rw [finish, h]
  rfl

/-- There is room for `n` bytes at the cursor (R135). -/
def State.Room (s : State) (n : ℕ) : Prop := s.cur.toNat + n ≤ s.len.toNat

/-- From `s` to `t` the cursor passed the string `bs`, which stands there in `t`; LEN and every byte outside are as before.
A passed byte is a command answered OK, so only the empty string can leave an earlier response to be the last. -/
structure Passed (s t : State) (bs : List Byte) : Prop where
  cur : t.cur.toNat = s.cur.toNat + bs.length
  len : t.len = s.len
  holds : t.holds s.cur.toNat bs
  frame : ∀ a, ¬ covers s.cur.toNat bs.length a → t.byteAt a = s.byteAt a
  answered : s.answeredOk ∨ bs ≠ [] → t.answeredOk

/-- The string `bs` stands at the cursor, inside LEN: what the loads of a sequence are to read. -/
structure State.Ahead (s : State) (bs : List Byte) : Prop where
  holds : s.holds s.cur.toNat bs
  room : s.Room bs.length

section Passing

variable {s t u : State} {bs cs : List Byte}

theorem Passed.refl (s : State) : Passed s s [] :=
  ⟨rfl, rfl, s.holds_nil _, fun _ _ => rfl, fun h => h.resolve_right fun hne => hne rfl⟩

/-- A command that only answers passes nothing. -/
theorem Passed.respond (s : State) (r : DWord) : Passed s (s.respond r) [] :=
  ⟨rfl, rfl, State.holds_nil _ _, fun _ _ => rfl, fun _ => rfl⟩

theorem Passed.trans (h : Passed s t bs) (k : Passed t u cs) : Passed s u (bs ++ cs) where
  cur := by rw [k.cur, h.cur, List.length_append, Nat.add_assoc]
  len := k.len.trans h.len
  holds := by
    refine State.holds_append.2 ⟨h.holds.congr fun j hj => k.frame _ ?_, h.cur ▸ k.holds⟩
    rw [covers, h.cur]
    omega
  frame a ha := by
    rw [covers, List.length_append] at ha
    have hcur := h.cur
    have hfirst : ¬ covers s.cur.toNat bs.length a := by rw [covers]; omega
    have hsecond : ¬ covers t.cur.toNat cs.length a := by rw [covers]; omega
    rw [k.frame a hsecond, h.frame a hfirst]
  answered hok := by
    refine k.answered ?_
    by_cases hcs : cs = []
    · subst hcs
      rw [List.append_nil] at hok
      exact .inl (h.answered hok)
    · exact .inr hcs

theorem State.Room.mono {m n : ℕ} (room : s.Room m) (hle : n ≤ m) : s.Room n :=
  (Nat.add_le_add_left hle _).trans room

/-- A cursor and a LEN of 32 bits bound the room (R40). -/
theorem State.Room.lt {n : ℕ} (room : s.Room n) : n < 2 ^ 32 :=
  (Nat.le_add_left n _).trans_lt (Nat.lt_of_le_of_lt room s.len.isLt)

theorem Passed.room {m n : ℕ} (h : Passed s t bs) (room : s.Room m) (hle : bs.length + n ≤ m) : t.Room n := by
  rw [State.Room] at room ⊢
  rw [h.cur, h.len]
  omega

/-- What stood behind the passed string is now at the cursor. -/
theorem Passed.ahead (h : Passed s t bs) (ahead : s.Ahead (bs ++ cs)) : t.Ahead cs where
  holds := by
    rw [h.cur]
    refine (State.holds_append.1 ahead.holds).2.congr fun k _ => h.frame _ ?_
    rw [covers]
    omega
  room := h.room ahead.room List.length_append.ge

/-- Back at its start, the sequence has the passed string ahead. -/
theorem Passed.rewind (h : Passed s t bs) (room : s.Room bs.length) : ({ t with cur := s.cur } : State).Ahead bs where
  holds := h.holds
  room := by
    rw [State.Room] at room ⊢
    rwa [h.len]

theorem State.Room.respond {n : ℕ} (h : s.Room n) (r : DWord) : (s.respond r).Room n := h

theorem State.Ahead.respond (h : s.Ahead bs) (r : DWord) : (s.respond r).Ahead bs := ⟨h.holds, h.room⟩

end Passing

/-! ## Pure commands and checks -/

@[simp] theorem State.respond_respond (s : State) (q r : DWord) : (s.respond q).respond r = s.respond r := rfl

section Commands

variable {α : Type} {s : State}

theorem send_of_pure {i : Instr} {r : DWord} (hwf : i.wf = true) (hg : i.gate = .always)
    (hrule : ownRule i = answer fun _ => r) (k : DWord → State → Option (Finish α)) :
    send i s k = k r (s.respond r) :=
  send_ok (exec_of_pure hwf (hg ▸ rfl) hrule) rfl k

theorem send_fxenc16 (radix : Byte) (v : DWord) (k : DWord → State → Option (Finish α)) :
    send (.fxenc16 .always radix v) s k = k (sext (fxEncode 16 v radix)) (s.respond (sext (fxEncode 16 v radix))) :=
  send_of_pure rfl rfl rfl k

theorem send_fxdec16 (radix : Byte) (raw : BitVec 16) (k : DWord → State → Option (Finish α)) :
    send (.fxdec16 .always radix raw) s k = k (fxDecode 16 raw radix) (s.respond (fxDecode 16 raw radix)) :=
  send_of_pure rfl rfl rfl k

theorem send_bfins {off width : Byte} (h : fieldInWord off width = true) (w v : Word)
    (k : DWord → State → Option (Finish α)) : send (.bfins .always off width w v) s k =
      k (zext (insertField off.toNat width.toNat w v)) (s.respond (zext (insertField off.toNat width.toNat w v))) :=
  send_of_pure (i := .bfins .always off width w v) h rfl rfl k

theorem send_bfext {off width : Byte} (h : fieldInWord off width = true) (w : Word)
    (k : DWord → State → Option (Finish α)) : send (.bfext .always off width w) s k =
      k (zext (extractField off.toNat width.toNat w)) (s.respond (zext (extractField off.toNat width.toNat w))) :=
  send_of_pure (i := .bfext .always off width w) h rfl rfl k

/-- The size that VSIZE hands on is the exact one (R143). -/
theorem send_vsize (s : State) (base stride : Word) {n : ℕ} (hn : n < 2 ^ 32) :
    ∃ size : DWord, size.toNat = base.toNat + stride.toNat * n ∧
      ∀ {α : Type} (k : DWord → State → Option (Finish α)),
        send (.vsize .always base (BitVec.ofNat 32 n) stride) s k = k size (s.respond size) := by
  obtain ⟨size, hexec, hsize⟩ := vsizeIsExact .always base (BitVec.ofNat 32 n) stride s rfl
  rw [BitVec.toNat_ofNat, Nat.mod_eq_of_lt hn, Nat.mul_comm] at hsize
  exact ⟨size, hsize, fun k => send_ok hexec rfl k⟩

/-- A check that finds its extent inside LEN lets the sequence go on (R146). -/
theorem send_chksz {size : DWord} (room : s.Room size.toNat) (k : DWord → State → Option (Finish α)) :
    send (.chksz .always .cursor size) s k = k 0 (s.respond 0) :=
  send_ok ((extentChecksComplete .always .cursor size s rfl).1 room).1 rfl k

theorem send_chkvl {addr : Word} {size : DWord} (fits : addr.toNat + size.toNat ≤ s.len.toNat)
    (k : DWord → State → Option (Finish α)) : send (.chkvl .always (.absolute addr) size) s k = k 0 (s.respond 0) :=
  send_ok ((extentChecksComplete .always (.absolute addr) size s rfl).1 fits).2 rfl k

end Commands

/-! ## One store or load -/

section Access

variable {n : Byte} {s : State}

/-- The bytes of a stored value stand where it was stored (R140). -/
theorem exec_stbe_holds (hn : accessWidth n) (x : AddrOperand) (v : DWord) (fits : s.ea x + n.toNat ≤ s.len.toNat) :
    ∃ t, exec (.stbe .always n x v) s = .next t ∧ t.response = some ⟨.ok, 0⟩ ∧
      t.holds (s.ea x) (beBytes n.toNat v.toNat) ∧ (∀ a, ¬ covers (s.ea x) n.toNat a → t.byteAt a = s.byteAt a) ∧
      t.cur = (s.advance x n.toNat).cur ∧ t.len = s.len := by
  obtain ⟨t, hexec, hresp, hbytes, hframe, hcur, -, hlen, -⟩ := storeCompletes .always n x v s rfl hn fits
  refine ⟨t, hexec, hresp, fun k hk => ?_, hframe, BitVec.eq_of_toNat_eq ?_, hlen⟩
  · rw [length_beBytes] at hk
    rw [getElem_beBytes, Nat.sub_right_comm, ← extractLsb'_byte_ofNat v.isLt, BitVec.ofNat_toNat, BitVec.setWidth_eq]
    exact hbytes k hk
  · cases x with
    | absolute => exact hcur
    | cursor => exact hcur.trans (State.toNat_advance_cursor fits).symm

/-- A store that has room passes the bytes of its value (R140). -/
theorem send_stbe (hn : accessWidth n) (v : DWord) (room : s.Room n.toNat) :
    ∃ t, Passed s t (beBytes n.toNat v.toNat) ∧ ∀ {α : Type} (k : DWord → State → Option (Finish α)),
      send (.stbe .always n .cursor v) s k = k 0 t := by
  obtain ⟨t, hexec, hresp, hholds, hframe, hcur, hlen⟩ := exec_stbe_holds hn .cursor v room
  refine ⟨t, ⟨?_, hlen, hholds, ?_, fun _ => State.answeredOk_of_response hresp⟩, fun k => send_ok hexec hresp k⟩
  · rw [hcur, length_beBytes, State.toNat_advance_cursor room]
  · rwa [length_beBytes]

/-- A load passes the bytes ahead and hands on their number (R141). -/
theorem fetch_ldbe (hn : accessWidth n) {v : DWord} (hv : v.toNat < 2 ^ (8 * n.toNat)) {cs : List Byte}
    (ahead : s.Ahead (beBytes n.toNat v.toNat ++ cs)) :
    ∃ t, Passed s t (beBytes n.toNat v.toNat) ∧ ∀ {α : Type} (k : DWord → State → Option (Finish α)),
      fetch (.ldbe .always n .cursor) s k = k v t := by
  obtain ⟨hholds, -⟩ := State.holds_append.1 ahead.holds
  have room : s.cur.toNat + n.toNat ≤ s.len.toNat := by
    have := ahead.room
    rw [State.Room, List.length_append, length_beBytes] at this
    omega
  obtain ⟨r, c, hexec, hr, hcur⟩ := loadCompletes .always n .cursor s rfl hn room
  have hval : r = v := by
    apply BitVec.eq_of_toNat_eq
    rw [hr, ← State.loadBE_eq_sum, State.ea, State.loadBE_of_holds hholds, Nat.mod_eq_of_lt hv]
  rw [hval] at hexec
  refine ⟨{ s with cur := c, response := some ⟨.ok, v⟩ }, ⟨?_, rfl, hholds, fun _ _ => rfl, fun _ => rfl⟩,
    fun k => fetch_ok hexec rfl k⟩
  rwa [length_beBytes]

end Access

/-! ## Words and bytes, and lists of them -/

theorem extractLsb'_zext {w : ℕ} (hw : w ≤ 64) (v : BitVec w) : (zext v).extractLsb' 0 w = v := by
  apply BitVec.eq_of_toNat_eq
  rw [BitVec.extractLsb'_toNat, toNat_zext v hw, Nat.shiftRight_zero, Nat.mod_eq_of_lt v.isLt]

/-- The four bytes of a word. -/
def wordBytes (w : Word) : List Byte := beBytes 4 w.toNat

@[simp] theorem length_wordBytes (w : Word) : (wordBytes w).length = 4 := length_beBytes 4 _

theorem wordBytes_ne_nil (w : Word) : wordBytes w ≠ [] :=
  List.ne_nil_of_length_pos ((length_wordBytes w).symm ▸ four_pos)

theorem wordBytes_eq (w : Word) : wordBytes w = beBytes (4#8).toNat (zext w).toNat := by
  rw [toNat_zext w (by decide)]
  rfl

theorem singleton_eq_beBytes (b : Byte) : [b] = beBytes (1#8).toNat (zext b).toNat := by
  rw [toNat_zext b (by decide)]
  exact (beBytes_one b).symm

/-- The bytes of a list of words, in order (R173). -/
def listBytes (es : List Word) : List Byte := es.flatMap wordBytes

@[simp] theorem length_listBytes (es : List Word) : (listBytes es).length = 4 * es.length := by
  simp [listBytes, List.length_flatMap, Nat.mul_comm]

theorem listBytes_cons (e : Word) (es : List Word) : listBytes (e :: es) = wordBytes e ++ listBytes es := rfl

theorem listBytes_append (es fs : List Word) : listBytes (es ++ fs) = listBytes es ++ listBytes fs := List.flatMap_append

section Strings

variable {s : State}

theorem send_word (w : Word) (room : s.Room 4) :
    ∃ t, Passed s t (wordBytes w) ∧ ∀ {α : Type} (k : DWord → State → Option (Finish α)),
      send (.stbe .always 4 .cursor (zext w)) s k = k 0 t := by
  rw [wordBytes_eq]
  exact send_stbe (.inr (.inr (.inl rfl))) (zext w) room

theorem send_byte (b : Byte) (room : s.Room 1) :
    ∃ t, Passed s t [b] ∧ ∀ {α : Type} (k : DWord → State → Option (Finish α)),
      send (.stbe .always 1 .cursor (zext b)) s k = k 0 t := by
  rw [singleton_eq_beBytes]
  exact send_stbe (.inl rfl) (zext b) room

theorem fetch_word {w : Word} {cs : List Byte} (ahead : s.Ahead (wordBytes w ++ cs)) :
    ∃ t, Passed s t (wordBytes w) ∧ ∀ {α : Type} (k : DWord → State → Option (Finish α)),
      fetch (.ldbe .always 4 .cursor) s k = k (zext w) t := by
  rw [wordBytes_eq] at ahead ⊢
  exact fetch_ldbe (.inr (.inr (.inl rfl))) ((toNat_zext w (by decide)).trans_lt w.isLt) ahead

theorem fetch_byte {b : Byte} {cs : List Byte} (ahead : s.Ahead (b :: cs)) :
    ∃ t, Passed s t [b] ∧ ∀ {α : Type} (k : DWord → State → Option (Finish α)),
      fetch (.ldbe .always 1 .cursor) s k = k (zext b) t := by
  rw [← List.singleton_append, singleton_eq_beBytes] at ahead
  rw [singleton_eq_beBytes]
  exact fetch_ldbe (.inl rfl) ((toNat_zext b (by decide)).trans_lt b.isLt) ahead

/-- STLIST passes the bytes of its list (R173). -/
theorem stlist_passed {es : List Word} (room : s.Room (4 * es.length)) :
    ∃ t, Passed s t (listBytes es) ∧ ∀ {α : Type} (k : State → Option (Finish α)),
      stlist .always es s k = k t := by
  induction es generalizing s with
  | nil => exact ⟨s, Passed.refl s, fun k => rfl⟩
  | cons e es ih =>
    rw [List.length_cons, Nat.mul_succ, Nat.add_comm] at room
    obtain ⟨t, ht, hsend⟩ := send_word (s := s) e (room.mono (by omega))
    obtain ⟨u, hu, hlist⟩ := ih (ht.room room (by rw [length_wordBytes]))
    exact ⟨u, ht.trans hu, fun k => (hsend _).trans (hlist k)⟩

/-- LDLIST hands on the list ahead (R173). -/
theorem ldlist_passed {es : List Word} {cs : List Byte} (ahead : s.Ahead (listBytes es ++ cs)) :
    ∃ t, Passed s t (listBytes es) ∧ ∀ {α : Type} (k : List Word → State → Option (Finish α)),
      ldlist .always es.length s k = k es t := by
  induction es generalizing s with
  | nil => exact ⟨s, Passed.refl s, fun k => rfl⟩
  | cons e es ih =>
    rw [listBytes_cons, List.append_assoc] at ahead
    obtain ⟨t, ht, hfetch⟩ := fetch_word ahead
    obtain ⟨u, hu, hlist⟩ := ih (ht.ahead ahead)
    refine ⟨u, ht.trans hu, fun k => ?_⟩
    rw [List.length_cons, ldlist, hfetch, hlist, low32_zext]

/-- The stores of a string of bytes pass it (R166). -/
theorem stbytes_passed {bs : List Byte} (room : s.Room bs.length) :
    ∃ t, Passed s t bs ∧ ∀ {α : Type} (k : State → Option (Finish α)), stbytes .always bs s k = k t := by
  induction bs generalizing s with
  | nil => exact ⟨s, Passed.refl s, fun k => rfl⟩
  | cons b bs ih =>
    rw [List.length_cons, Nat.add_comm] at room
    obtain ⟨t, ht, hsend⟩ := send_byte (s := s) b (room.mono (by omega))
    obtain ⟨u, hu, hbytes⟩ := ih (ht.room room le_rfl)
    exact ⟨u, ht.trans hu, fun k => (hsend _).trans (hbytes k)⟩

/-- The loads of as many bytes hand on the string ahead (R166). -/
theorem ldbytes_passed {bs cs : List Byte} (ahead : s.Ahead (bs ++ cs)) :
    ∃ t, Passed s t bs ∧ ∀ {α : Type} (k : List Byte → State → Option (Finish α)),
      ldbytes .always bs.length s k = k bs t := by
  induction bs generalizing s with
  | nil => exact ⟨s, Passed.refl s, fun k => rfl⟩
  | cons b bs ih =>
    obtain ⟨t, ht, hfetch⟩ := fetch_byte ahead
    obtain ⟨u, hu, hbytes⟩ := ih (ht.ahead ahead)
    refine ⟨u, ht.trans hu, fun k => ?_⟩
    rw [List.length_cons, ldbytes, hfetch, hbytes, extractLsb'_zext (by decide)]

/-! Stores of two lists in a row are those of one. -/

theorem stlist_append {α : Type} (g : Gate) (es fs : List Word) (s : State) (k : State → Option (Finish α)) :
    stlist g (es ++ fs) s k = stlist g es s fun t => stlist g fs t k := by
  induction es generalizing s with
  | nil => rfl
  | cons e es ih => exact congrArg (send _ s) (funext fun _ => funext fun t => ih t)

theorem stbytes_append {α : Type} (g : Gate) (bs cs : List Byte) (s : State) (k : State → Option (Finish α)) :
    stbytes g (bs ++ cs) s k = stbytes g bs s fun t => stbytes g cs t k := by
  induction bs generalizing s with
  | nil => rfl
  | cons b bs ih => exact congrArg (send _ s) (funext fun _ => funext fun t => ih t)

end Strings

end Sys2Proof.Machine
end

section
/-! The structures of one or two words (spec/44_field_layouts.md R157 to R159), the lists of words (R173) and the overlay
(R175). -/

namespace Sys2Proof.Machine

open Claims

/-! ## Lists of words -/

/-- Settles O55: storing passes the list's bytes, and loading from its start passes them again; an empty list issues
nothing. -/
theorem storedListIsLoadedBack : Obligations.StoredListIsLoadedBack := by
  rintro es s (rfl | room)
  case inl => exact ⟨s, _, fun k => rfl, rfl, fun _ _ => rfl, fun k => rfl⟩
  case inr =>
    obtain ⟨t, hpassed, hstore⟩ := stlist_passed room
    have ahead := hpassed.rewind (by rwa [length_listBytes])
    rw [← List.append_nil (listBytes es)] at ahead
    obtain ⟨u, -, hload⟩ := ldlist_passed ahead
    obtain ⟨hcur, -, -, hframe, -⟩ := hpassed
    rw [length_listBytes] at hcur hframe
    exact ⟨t, u, fun k => hstore k, hcur, hframe, fun k => hload k⟩

/-! ## Gain -/

theorem getLsbD_low32 (v : DWord) {k : ℕ} (hk : k < 32) : (low32 v).getLsbD k = v.getLsbD k := by
  rw [low32, BitVec.getLsbD_extractLsb', Nat.zero_add, decide_eq_true hk, Bool.true_and]

/-- The low bits of an FXENC16 result are the encoding (R85). -/
theorem getLsbD_low32_sext (v : BitVec 16) {k : ℕ} (hk : k < 16) : (low32 (sext v)).getLsbD k = v.getLsbD k := by
  rw [getLsbD_low32 _ (by omega), sext, BitVec.getLsbD_signExtend, if_pos hk, decide_eq_true (by omega), Bool.true_and]

/-- The two inserts of PACK.GAIN put two halfwords together (R157). -/
theorem insertField_halves (x y : BitVec 16) :
    insertField 16 16 (insertField 0 16 0 (low32 (sext x))) (low32 (sext y)) = y ++ x := by
  apply BitVec.eq_of_getLsbD_eq
  intro k hk
  rw [getLsbD_insertField (by decide), getLsbD_insertField (by decide), BitVec.getLsbD_append,
    show (0 : Word).getLsbD k = false from BitVec.getLsbD_zero, Bool.false_or]
  rcases Nat.lt_or_ge k 16 with hlow | hhigh
  · rw [Nat.sub_zero, getLsbD_low32_sext x hlow]
    simp [hlow, hlow.not_ge]
  · rw [getLsbD_low32_sext y (by omega)]
    simp [hhigh, hhigh.not_gt, hk]

/-- What UNPACK.GAIN gives to FXDEC16 is the halfword of its BFEXT (R157). -/
theorem extractLsb'_extractField (w : Word) {off : ℕ} (hfit : off + 16 ≤ 32) :
    (zext (extractField off 16 w)).extractLsb' 0 16 = w.extractLsb' off 16 := by
  apply BitVec.eq_of_getLsbD_eq
  intro k hk
  rw [BitVec.getLsbD_extractLsb', BitVec.getLsbD_extractLsb', getLsbD_zext _ (by decide), getLsbD_extractField hfit,
    Nat.zero_add, decide_eq_true hk, Bool.and_true]

/-- The word of Gain: stage 2 in the high half, stage 1 in the low half (R157). -/
def gainWord (x y : BitVec 16) : Word := y ++ x

/-- The halfwords of the word in the order of their addresses. -/
theorem wordBytes_gainWord (x y : BitVec 16) : wordBytes (gainWord x y) = beBytes 2 y.toNat ++ beBytes 2 x.toNat := by
  rw [wordBytes, gainWord, BitVec.toNat_append, ← Nat.shiftLeft_add_eq_or_of_lt x.isLt, Nat.shiftLeft_eq]
  exact beBytes_append 2 2 _ x.isLt

/-- The fields of the two halfwords (R157). -/
theorem fieldInWord_gain : fieldInWord 0 16 = true ∧ fieldInWord 16 16 = true := ⟨rfl, rfl⟩

theorem packGain_eq (x y : DWord) (s : State) : packGain .always x y s =
    send (.stbe .always 4 .cursor (zext (gainWord (fxEncode 16 x gainRadix) (fxEncode 16 y gainRadix))))
      (s.respond (zext (gainWord (fxEncode 16 x gainRadix) (fxEncode 16 y gainRadix)))) fun _ t => finish () t := by
  simp only [packGain, send_fxenc16, send_bfins fieldInWord_gain.1, send_bfins fieldInWord_gain.2, BitVec.reduceToNat,
    low32_zext, insertField_halves, State.respond_respond, gainWord]

theorem unpackGain_eq {s t : State} {x y : BitVec 16}
    (hfetch : ∀ k : DWord → State → Option (Finish (DWord × DWord)),
      fetch (.ldbe .always 4 .cursor) s k = k (zext (gainWord x y)) t) : unpackGain .always s =
        some ⟨.ok, some (fxDecode 16 x gainRadix, fxDecode 16 y gainRadix), t.respond (fxDecode 16 y gainRadix)⟩ := by
  have hlow : (zext (extractField 0 16 (gainWord x y))).extractLsb' 0 16 = x :=
    (extractLsb'_extractField _ (by decide)).trans BitVec.extractLsb'_append_eq_right
  have hhigh : (zext (extractField 16 16 (gainWord x y))).extractLsb' 0 16 = y :=
    (extractLsb'_extractField _ (by decide)).trans BitVec.extractLsb'_append_eq_left
  simp only [unpackGain, hfetch, low32_zext, send_bfext fieldInWord_gain.1, send_bfext fieldInWord_gain.2,
    BitVec.reduceToNat, hlow, hhigh, send_fxdec16, State.respond_respond,
    finish_of_answeredOk (State.answeredOk_respond _ _)]

/-- Settles O53: the one store passes the two halfwords, and the one load hands them back to the decoder. -/
theorem gainIsPackedAndUnpacked : Obligations.GainIsPackedAndUnpacked := by
  intro s x y room
  obtain ⟨t, hstored, hsend⟩ := send_word (gainWord (fxEncode 16 x 7) (fxEncode 16 y 7)) (State.Room.respond room _)
  have hpassed := (Passed.respond s _).trans hstored
  have ahead := hpassed.rewind room
  rw [← List.append_nil (_ ++ _)] at ahead
  obtain ⟨_, -, hfetch⟩ := fetch_word ahead
  have hholds := hpassed.holds
  rw [List.nil_append, wordBytes_gainWord, State.holds_append, length_beBytes] at hholds
  refine ⟨t, _, ?_, hpassed.cur, ?_, ?_, unpackGain_eq fun k => hfetch k⟩
  · rw [packGain_eq]
    exact (hsend _).trans (finish_of_answeredOk (hstored.answered (.inr (wordBytes_ne_nil _))) ())
  · rw [State.loadBE_of_holds hholds.1, Nat.mod_eq_of_lt (BitVec.isLt _)]
  · rw [State.loadBE_of_holds hholds.2, Nat.mod_eq_of_lt (BitVec.isLt _)]

/-! ## Device identifier -/

theorem insertField_zero_word (width : ℕ) (v : Word) : insertField 0 width 0 v = v &&& mask width := by
  simp [insertField]

theorem extractField_and_mask (width : ℕ) (v : Word) : extractField 0 width (v &&& mask width) = v &&& mask width := by
  rw [extractField, BitVec.ushiftRight_zero, BitVec.and_assoc, BitVec.and_self]

theorem toNat_and_mask {width : ℕ} (hw : width ≤ 32) (v : Word) : (v &&& mask width).toNat = v.toNat % 2 ^ width := by
  apply Nat.eq_of_testBit_eq
  intro k
  rw [BitVec.testBit_toNat, BitVec.getLsbD_and, getLsbD_mask hw, Nat.testBit_mod_two_pow, BitVec.testBit_toNat,
    Bool.and_comm]

/-- The bytes of two words in a row are those of one number (R159). -/
theorem State.loadBE_of_holds_two_words {s : State} {a : ℕ} {v w : Word} (h : s.holds a (wordBytes v ++ wordBytes w)) :
    s.loadBE a 8 = v.toNat * 2 ^ 32 + w.toNat := by
  have hv := v.isLt
  have hw : w.toNat < 2 ^ (8 * 4) := w.isLt
  rw [wordBytes, wordBytes, ← beBytes_append 4 4 _ hw] at h
  rw [State.loadBE_of_holds h]
  omega

/-- The fields of the two words (R159). -/
theorem fieldInWord_devid :
    fieldInWord 0 24 = true ∧ fieldInWord 0 (BitVec.ofNat 8 Config.devCodeWidth) = true := ⟨rfl, rfl⟩

theorem toNat_devCodeWidth : (BitVec.ofNat 8 Config.devCodeWidth).toNat = 16 := rfl

theorem packDevid_eq (oui code : Word) (s : State) : packDevid .always oui code s =
    send (.stbe .always 4 .cursor (zext (oui &&& mask 24))) (s.respond (zext (oui &&& mask 24))) fun _ t =>
    send (.stbe .always 4 .cursor (zext (code &&& mask 16))) (t.respond (zext (code &&& mask 16))) fun _ u =>
    finish () u := by
  simp only [packDevid, send_bfins fieldInWord_devid.1, send_bfins fieldInWord_devid.2, toNat_devCodeWidth,
    BitVec.reduceToNat, insertField_zero_word]

/-- Settles O54: two stores pass the masked words, and two loads hand them on to extracts that keep them. -/
theorem deviceIdentifierIsPackedAndUnpacked : Obligations.DeviceIdentifierIsPackedAndUnpacked := by
  intro s oui code room
  obtain ⟨t, ht, hsend⟩ := send_word (oui &&& mask 24)
    ((State.Room.mono (s := s) room (by decide)).respond (zext (oui &&& mask 24)))
  have hfirst := (Passed.respond s _).trans ht
  obtain ⟨u, hu, hsend'⟩ := send_word (code &&& mask 16)
    ((hfirst.room room (by simp)).respond (zext (code &&& mask 16)))
  have hpassed := hfirst.trans ((Passed.respond t _).trans hu)
  have ahead := hpassed.rewind room
  rw [← List.append_nil (_ ++ _), List.append_assoc] at ahead
  obtain ⟨v, hv, hfetch⟩ := fetch_word ahead
  obtain ⟨w, -, hfetch'⟩ := fetch_word (State.Ahead.respond (hv.ahead ahead) (zext (oui &&& mask 24)))
  refine ⟨u, w.respond (zext (code &&& mask 16)), ?_, hpassed.cur, ?_, ?_⟩
  · rw [packDevid_eq, hsend, hsend', finish_of_answeredOk (hu.answered (.inl rfl))]
  · rw [State.loadBE_of_holds_two_words hpassed.holds, toNat_and_mask (by decide), toNat_and_mask (by decide)]
  · simp only [unpackDevid, hfetch, send_bfext fieldInWord_devid.1, hfetch', send_bfext fieldInWord_devid.2,
      toNat_devCodeWidth, BitVec.reduceToNat, low32_zext, extractField_and_mask,
      finish_of_answeredOk (State.answeredOk_respond _ _)]
    rfl

/-! ## Overlay -/

theorem insertField_whole_word (w v : Word) : insertField 0 32 w v = w ||| v := by
  rw [insertField, show mask 32 = BitVec.allOnes 32 from rfl, BitVec.and_allOnes, BitVec.shiftLeft_zero]

/-- The four bytes at an address as a word (R42). -/
def State.wordAt (s : State) (a : ℕ) : Word := BitVec.ofNat 32 (s.loadBE a 4)

theorem State.toNat_wordAt (s : State) (a : ℕ) : (s.wordAt a).toNat = s.loadBE a 4 :=
  (BitVec.toNat_ofNat _ _).trans (Nat.mod_eq_of_lt (s.loadBE_lt a 4))

theorem fetch_word_absolute {s : State} {addr : Word} (fits : addr.toNat + 4 ≤ s.len.toNat) {α : Type}
    (k : DWord → State → Option (Finish α)) : fetch (.ldbe .always 4 (.absolute addr)) s k =
      k (zext (s.wordAt addr.toNat)) (s.respond (zext (s.wordAt addr.toNat))) := by
  have hr : BitVec.ofNat 64 (s.loadBE addr.toNat 4) = zext (s.wordAt addr.toNat) := by
    rw [← State.toNat_wordAt, BitVec.ofNat_toNat, zext]
  rw [← hr]
  exact fetch_ok (exec_ldbe_of_fits (n := 4) (x := .absolute addr) rfl (.inr (.inr (.inl rfl))) fits) rfl k

/-- Settles O58: the load reads the old word, the insert of a whole word is an OR, and the store is the only write. -/
theorem overlayOrsIntoTheWord : Obligations.OverlayOrsIntoTheWord := by
  intro s addr bits fits
  obtain ⟨w, hw⟩ : ∃ w, w = s.wordAt addr.toNat ||| bits := ⟨_, rfl⟩
  obtain ⟨t, hexec, hresp, hholds, hframe, hcur, -⟩ := exec_stbe_holds (s := s.respond (zext w)) (n := 4)
    (.inr (.inr (.inl rfl))) (.absolute addr) (zext w) fits
  have hword : t.holds addr.toNat (wordBytes w) := wordBytes_eq w ▸ hholds
  have hwhole : fieldInWord 0 32 = true := rfl
  refine ⟨t, ?_, ?_, hcur, hframe⟩
  · simp only [overlay, fetch_word_absolute fits, low32_zext, send_bfins hwhole, BitVec.reduceToNat,
      insertField_whole_word, ← hw, State.respond_respond, send_ok hexec hresp,
      finish_of_answeredOk (State.answeredOk_of_response hresp)]
  · rw [State.loadBE_of_holds hword, Nat.mod_eq_of_lt w.isLt, hw, BitVec.toNat_or, State.toNat_wordAt]

end Sys2Proof.Machine
end

section
/-! ContextAssociationLists (spec/44_field_layouts.md R160 to R163): the header under any layout R161 allows, then the
lists. -/

namespace Sys2Proof.Machine

open Claims Config

/-! ## Inserting and extracting a list of sub-fields (R130) -/

/-- The field of a word that a sub-field of the header is. -/
def fieldOf (f : SubField) : ℕ × ℕ := (f.off.val, f.width)

theorem toNat_ofNat_width {f : SubField} (h : fieldOk (fieldOf f)) : (BitVec.ofNat 8 f.width).toNat = f.width := by
  obtain ⟨-, hfit⟩ : 1 ≤ f.width ∧ f.off.val + f.width ≤ 32 := h
  rw [BitVec.toNat_ofNat]
  omega

theorem toNat_ofNat_off (f : SubField) : (BitVec.ofNat 8 f.off.val).toNat = f.off.val := by
  rw [BitVec.toNat_ofNat]
  omega

theorem fieldInWord_of_fieldOk {f : SubField} (h : fieldOk (fieldOf f)) :
    fieldInWord (BitVec.ofNat 8 f.off.val) (BitVec.ofNat 8 f.width) = true := by
  have hwidth := toNat_ofNat_width h
  obtain ⟨hpos, hfit⟩ : 1 ≤ f.width ∧ f.off.val + f.width ≤ 32 := h
  rw [← Bool.not_eq_false, fieldInWord_eq_false_iff, hwidth, toNat_ofNat_off]
  omega

/-- The inserts of `insertAll` as a fold. -/
def insertFields (ps : List (SubField × Word)) (w : Word) : Word :=
  ps.foldl (fun w p => insertField p.1.off.val p.1.width w p.2) w

/-- The extract of one sub-field from a header of two words. -/
def headerField (w0 w1 : Word) (f : SubField) : Word := extractField f.off.val f.width (if f.word = 0 then w0 else w1)

section Sequences

variable {s : State}

theorem insertAll_passed {ps : List (SubField × Word)} (hps : ∀ p ∈ ps, fieldOk (fieldOf p.1)) (w : Word) :
    ∃ t, Passed s t [] ∧ ∀ {α : Type} (k : Word → State → Option (Finish α)),
      insertAll ps w s k = k (insertFields ps w) t := by
  induction ps generalizing s w with
  | nil => exact ⟨s, Passed.refl s, fun k => rfl⟩
  | cons p ps ih =>
    obtain ⟨f, v⟩ := p
    obtain ⟨hf, hrest⟩ := List.forall_mem_cons.1 hps
    obtain ⟨t, ht, hinsert⟩ := ih (s := s.respond (zext (insertField f.off.val f.width w v))) hrest
      (insertField f.off.val f.width w v)
    refine ⟨t, (Passed.respond s _).trans ht, fun k => ?_⟩
    rw [insertAll, send_bfins (fieldInWord_of_fieldOk hf), toNat_ofNat_off, toNat_ofNat_width hf, low32_zext, hinsert]
    rfl

theorem extractAll_passed {fs : List SubField} (hfs : ∀ f ∈ fs, fieldOk (fieldOf f)) (w0 w1 : Word) :
    ∃ t, Passed s t [] ∧ ∀ {α : Type} (k : List Word → State → Option (Finish α)),
      extractAll w0 w1 fs s k = k (fs.map (headerField w0 w1)) t := by
  induction fs generalizing s with
  | nil => exact ⟨s, Passed.refl s, fun k => rfl⟩
  | cons f fs ih =>
    obtain ⟨hf, hrest⟩ := List.forall_mem_cons.1 hfs
    obtain ⟨t, ht, hextract⟩ := ih (s := s.respond (zext (headerField w0 w1 f))) hrest
    refine ⟨t, (Passed.respond s _).trans ht, fun k => ?_⟩
    rw [extractAll, send_bfext (fieldInWord_of_fieldOk hf), toNat_ofNat_off, toNat_ofNat_width hf, ← headerField,
      hextract, low32_zext]
    rfl

end Sequences

/-! ## What stands in a word after the inserts (R124) -/

theorem insertFields_of_zero {ps : List (SubField × Word)} (hps : ∀ p ∈ ps, p.2 = 0) (w : Word) :
    insertFields ps w = w := by
  induction ps with
  | nil => rfl
  | cons p ps ih =>
    obtain ⟨hp, hrest⟩ := List.forall_mem_cons.1 hps
    rw [insertFields, List.foldl_cons, hp, insertField_zero]
    exact ih hrest

/-- The fields of two sub-fields share no bit. -/
def fieldsApart (f g : SubField) : Prop := f.off.val + f.width ≤ g.off.val ∨ g.off.val + g.width ≤ f.off.val

section Apart

variable {f : SubField} (hf : fieldOk (fieldOf f))
include hf

/-- Inserts of other fields leave a field as it was. -/
theorem extractField_insertFields_of_apart {ps : List (SubField × Word)} (hps : ∀ p ∈ ps, fieldOk (fieldOf p.1))
    (hapart : ∀ p ∈ ps, fieldsApart f p.1) (w : Word) :
    extractField f.off.val f.width (insertFields ps w) = extractField f.off.val f.width w := by
  induction ps generalizing w with
  | nil => rfl
  | cons p ps ih =>
    obtain ⟨hp, hrest⟩ := List.forall_mem_cons.1 hps
    obtain ⟨hfp, hfrest⟩ := List.forall_mem_cons.1 hapart
    rw [insertFields, List.foldl_cons, ← insertFields, ih hrest hfrest]
    exact extractField_insertField_of_disjoint hf.2 hp.2 hfp w p.2

/-- A field that fits its value comes back from an insert over zeros. -/
theorem extractField_insertField_of_lt {v w : Word} (hv : v.toNat < 2 ^ f.width)
    (hw : extractField f.off.val f.width w = 0) :
    extractField f.off.val f.width (insertField f.off.val f.width w v) = v := by
  have hfit : f.off.val + f.width ≤ 32 := hf.2
  rw [extractField_insertField hfit, hw]
  refine BitVec.zero_or.trans (BitVec.eq_of_toNat_eq ?_)
  rw [toNat_and_mask (by omega), Nat.mod_eq_of_lt hv]

end Apart

theorem extractField_zero (off width : ℕ) : extractField off width 0 = 0 := by
  simp [extractField]

/-- Every value comes back from a word into which fields that share no bit were inserted. -/
theorem extractField_insertFields {ps : List (SubField × Word)} (hps : ∀ p ∈ ps, fieldOk (fieldOf p.1))
    (hapart : ps.Pairwise fun p q => fieldsApart p.1 q.1) {p : SubField × Word} (hp : p ∈ ps)
    (hv : p.2.toNat < 2 ^ p.1.width) : extractField p.1.off.val p.1.width (insertFields ps 0) = p.2 := by
  obtain ⟨before, after, rfl⟩ := List.append_of_mem hp
  obtain ⟨-, hrest, hbefore⟩ := List.pairwise_append.1 hapart
  obtain ⟨hafter, -⟩ := List.pairwise_cons.1 hrest
  obtain ⟨hokBefore, hokRest⟩ := List.forall_mem_append.1 hps
  obtain ⟨hok, hokAfter⟩ := List.forall_mem_cons.1 hokRest
  have hzero : extractField p.1.off.val p.1.width (insertFields before 0) = 0 :=
    (extractField_insertFields_of_apart hok hokBefore
      (fun q hq => (hbefore q hq p List.mem_cons_self).symm) 0).trans (extractField_zero _ _)
  rw [insertFields, List.foldl_append, List.foldl_cons, ← insertFields, ← insertFields,
    extractField_insertFields_of_apart hok hokAfter hafter, extractField_insertField_of_lt hok hv hzero]

/-! ## The header (R160, R161) -/

theorem fieldOk_of_mem_calFields {f : SubField} (hf : f ∈ calFields) : fieldOk (fieldOf f) := by
  have hfit := cal.fit
  simp only [List.all_cons, List.all_nil, Bool.and_true, Bool.and_eq_true, SubField.fits, decide_eq_true_eq] at hfit
  obtain ⟨hsys, hvec, htag, hasync⟩ := hfit
  simp only [calFields, List.mem_cons, List.not_mem_nil, or_false] at hf
  rcases hf with rfl | rfl | rfl | rfl | rfl
  · exact ⟨by decide, by decide⟩
  · exact ⟨by decide, hsys⟩
  · exact ⟨by decide, hvec⟩
  · exact ⟨by decide, htag⟩
  · exact ⟨by decide, hasync⟩

theorem calFields_apart : calFields.Pairwise fun f g => f.apart g = true := cal.apart

theorem fieldsApart_of_apart {f g : SubField} (h : f.apart g = true) (hword : f.word = g.word) : fieldsApart f g := by
  simpa [SubField.apart, hword, fieldsApart] using h

section Header

variable (x : CalLists)

/-- The sub-fields of the header with the values of `x`. -/
def CalLists.pairs : List (SubField × Word) := calFields.zip x.fieldValues

/-- One word of the header. -/
def CalLists.headerWord (k : Fin 2) : Word := insertFields (x.inWord k) 0

theorem CalLists.map_fst_pairs : x.pairs.map Prod.fst = calFields := List.map_fst_zip (by rfl)

theorem CalLists.map_snd_pairs : x.pairs.map Prod.snd = x.fieldValues := List.map_snd_zip (by rfl)

theorem CalLists.fieldOk_of_mem_pairs {p : SubField × Word} (hp : p ∈ x.pairs) : fieldOk (fieldOf p.1) :=
  fieldOk_of_mem_calFields (List.of_mem_zip hp).1

theorem CalLists.fieldOk_of_mem_inWord (k : Fin 2) : ∀ p ∈ x.inWord k, fieldOk (fieldOf p.1) :=
  fun _ hp => x.fieldOk_of_mem_pairs (List.mem_of_mem_filter hp)

theorem CalLists.inWord_apart (k : Fin 2) : (x.inWord k).Pairwise fun p q => fieldsApart p.1 q.1 := by
  have hpairs : x.pairs.Pairwise fun p q => p.1.apart q.1 = true :=
    List.pairwise_map.1 (x.map_fst_pairs ▸ calFields_apart)
  refine (hpairs.filter _).imp_of_mem fun {p q} hp hq hpq => fieldsApart_of_apart hpq ?_
  rw [of_decide_eq_true (List.mem_filter.1 hp).2, of_decide_eq_true (List.mem_filter.1 hq).2]

variable {x}

theorem CalLists.wf_iff : x.wf = true ↔
    x.source.length < 2 ^ 8 ∧ x.system.length < 2 ^ 8 ∧ x.vector.length < 2 ^ 15 ∧ x.async.length < 2 ^ 15 ∧
      ∀ l, x.asyncTag = some l → l.length = x.async.length := by
  simp only [CalLists.wf, Bool.and_eq_true, decide_eq_true_eq, Option.all_eq_true, and_assoc]

/-- The counts fit their sub-fields (R160). -/
theorem CalLists.value_lt_of_wf (hwf : x.wf = true) {p : SubField × Word} (hp : p ∈ x.pairs) :
    p.2.toNat < 2 ^ p.1.width := by
  obtain ⟨hsource, hsystem, hvector, hasync, -⟩ := CalLists.wf_iff.1 hwf
  have hofNat {n width : ℕ} (hn : n < 2 ^ width) : (BitVec.ofNat 32 n).toNat < 2 ^ width :=
    (BitVec.toNat_ofNat n 32 ▸ Nat.mod_le n _).trans_lt hn
  simp only [CalLists.pairs, calFields, CalLists.fieldValues, List.zip_cons_cons, List.zip_nil_right, List.mem_cons,
    List.not_mem_nil, or_false] at hp
  rcases hp with rfl | rfl | rfl | rfl | rfl
  · exact hofNat hsource
  · exact hofNat hsystem
  · exact hofNat hvector
  · cases x.asyncTag.isSome <;> decide
  · exact hofNat hasync

/-- UNPACK.CAL reads the counts that PACK.CAL has written, wherever the sub-fields lie. -/
theorem CalLists.map_headerField (hwf : x.wf = true) :
    calFields.map (headerField (x.headerWord 0) (x.headerWord 1)) = x.fieldValues := by
  rw [← x.map_fst_pairs, ← x.map_snd_pairs, List.map_map]
  refine List.map_congr_left fun p hp => ?_
  have hword : (if p.1.word = 0 then x.headerWord 0 else x.headerWord 1) = x.headerWord p.1.word := by
    split
    case isTrue h => rw [h]
    case isFalse h => rw [show p.1.word = 1 by omega]
  rw [Function.comp_apply, headerField, hword]
  exact extractField_insertFields (x.fieldOk_of_mem_inWord _) (x.inWord_apart _)
    (List.mem_filter.2 ⟨hp, decide_eq_true rfl⟩) (CalLists.value_lt_of_wf hwf hp)

end Header

/-! ## The whole structure -/

/-- The entries of the lists in the order they are stored (R162). -/
def CalLists.entries (x : CalLists) : List Word := x.source ++ x.system ++ x.vector ++ x.async ++ x.asyncTag.getD []

/-- The bytes of the structure (R160, R162). -/
def CalLists.bytes (x : CalLists) : List Byte :=
  wordBytes (x.headerWord 0) ++ (wordBytes (x.headerWord 1) ++ listBytes x.entries)

/-- How many entries the structure has (R160). -/
def CalLists.count (x : CalLists) : ℕ :=
  calCount x.source.length x.system.length x.vector.length x.async.length x.asyncTag.isSome

theorem CalLists.length_entries {x : CalLists} (hwf : x.wf = true) : x.entries.length = x.count := by
  obtain ⟨-, -, -, -, htag⟩ := CalLists.wf_iff.1 hwf
  simp only [CalLists.entries, CalLists.count, calCount, List.length_append]
  cases h : x.asyncTag with
  | none => rfl
  | some l => rw [Option.getD_some, htag l h]; rfl

theorem CalLists.length_bytes {x : CalLists} (hwf : x.wf = true) : x.bytes.length = 8 + 4 * x.count := by
  rw [CalLists.bytes, List.length_append, List.length_append, length_wordBytes, length_wordBytes, length_listBytes,
    CalLists.length_entries hwf, ← Nat.add_assoc]

/-- PACK.CAL passes the bytes of the structure. -/
theorem packCal_passed {x : CalLists} {s : State} (hwf : x.wf = true) (room : s.Room (8 + 4 * x.count)) :
    ∃ t, Passed s t x.bytes ∧ packCal .always x s = some ⟨.ok, some (), t⟩ := by
  have hcount : x.count < 2 ^ 32 := (show x.count ≤ 8 + 4 * x.count by omega).trans_lt room.lt
  obtain ⟨size, hsize, hvsize⟩ := send_vsize s 8 4 hcount
  have hfits : (s.respond size).Room size.toNat := by
    rw [hsize]
    exact room
  obtain ⟨t0, ht0, hinsert0⟩ := insertAll_passed (s := (s.respond size).respond 0) (x.fieldOk_of_mem_inWord 0) 0
  have h0 := (Passed.respond s 0).trans ht0
  obtain ⟨t1, ht1, hstore0⟩ := send_word (x.headerWord 0)
    (h0.room room (by simp only [List.append_nil, List.length_nil]; omega))
  obtain ⟨t2, ht2, hinsert1⟩ := insertAll_passed (s := t1) (x.fieldOk_of_mem_inWord 1) 0
  have h2 := (h0.trans ht1).trans ht2
  obtain ⟨t3, ht3, hstore1⟩ := send_word (x.headerWord 1) (h2.room room (by simp))
  have h3 := h2.trans ht3
  obtain ⟨t4, ht4, hlists⟩ := stlist_passed (es := x.entries) (h3.room room (by simp [CalLists.length_entries hwf]))
  refine ⟨t4, ?_, ?_⟩
  · simpa only [CalLists.bytes, List.nil_append, List.append_nil, List.append_assoc] using h3.trans ht4
  · rw [CalLists.headerWord] at hstore0 hstore1
    rw [packCal, ← CalLists.count, hvsize, send_chksz hfits, hinsert0, hstore0, hinsert1, hstore1, ← stlist_append,
      ← stlist_append, ← stlist_append, ← stlist_append, ← CalLists.entries, hlists, finish_of_answeredOk]
    exact ht4.answered (.inl (ht3.answered (.inr (wordBytes_ne_nil _))))

/-- The load part of UNPACK.CAL hands on the lists ahead (R163). -/
theorem unpackCalLists_of_ahead {x : CalLists} {s : State}
    (htag : ∀ l, x.asyncTag = some l → l.length = x.async.length) (ahead : s.Ahead (listBytes x.entries)) (hok : s.answeredOk) :
    ∃ t, unpackCalLists .always x.source.length x.system.length x.vector.length x.async.length x.asyncTag.isSome s =
      some ⟨.ok, some x, t⟩ := by
  obtain ⟨source, system, vector, async, asyncTag⟩ := x
  simp only [CalLists.entries, listBytes_append, List.append_assoc] at ahead htag ⊢
  obtain ⟨t1, h1, hsource⟩ := ldlist_passed ahead
  obtain ⟨t2, h2, hsystem⟩ := ldlist_passed (h1.ahead ahead)
  obtain ⟨t3, h3, hvector⟩ := ldlist_passed (h2.ahead (h1.ahead ahead))
  have ahead3 := h3.ahead (h2.ahead (h1.ahead ahead))
  obtain ⟨t4, h4, hasync⟩ := ldlist_passed ahead3
  have hok4 := (((h1.trans h2).trans h3).trans h4).answered (.inl hok)
  rw [unpackCalLists, hsource, hsystem, hvector, hasync]
  cases asyncTag with
  | none => exact ⟨t4, finish_of_answeredOk hok4 _⟩
  | some l =>
    have ahead4 := h4.ahead ahead3
    rw [Option.getD_some, ← List.append_nil (listBytes l)] at ahead4
    obtain ⟨t5, h5, hl⟩ := ldlist_passed ahead4
    rw [← htag l rfl, Option.isSome_some, if_pos rfl, hl]
    exact ⟨t5, finish_of_answeredOk (h5.answered (.inl hok4)) _⟩

/-- UNPACK.CAL hands on the structure ahead, whose bytes it checks against LEN twice (R163). -/
theorem unpackCal_of_ahead {x : CalLists} {s : State} (hwf : x.wf = true) (ahead : s.Ahead x.bytes) :
    ∃ t, unpackCal .always s.cur s = some ⟨.ok, some x, t⟩ := by
  obtain ⟨hsource, hsystem, hvector, hasync, htag⟩ := CalLists.wf_iff.1 hwf
  have room : s.Room (8 + 4 * x.count) := CalLists.length_bytes hwf ▸ ahead.room
  have hcount : x.count < 2 ^ 32 := (show x.count ≤ 8 + 4 * x.count by omega).trans_lt room.lt
  obtain ⟨t0, ht0, hfetch0⟩ := fetch_word (ahead.respond 0)
  have ahead0 := ht0.ahead (ahead.respond 0)
  obtain ⟨t1, ht1, hfetch1⟩ := fetch_word ahead0
  obtain ⟨t2, ht2, hextract⟩ := extractAll_passed (s := t1) (fun f => fieldOk_of_mem_calFields)
    (x.headerWord 0) (x.headerWord 1)
  obtain ⟨size, hsize, hvsize⟩ := send_vsize t2 8 4 hcount
  have hlen : t2.len = s.len := ht2.len.trans (ht1.len.trans ht0.len)
  have hfits : s.cur.toNat + size.toNat ≤ (t2.respond size).len.toNat := by
    rw [hsize, State.respond_len, hlen]
    exact room
  have ahead2 : ((t2.respond size).respond 0).Ahead (listBytes x.entries) :=
    ((ht2.ahead (ht1.ahead ahead0)).respond size).respond 0
  obtain ⟨t3, hlists⟩ := unpackCalLists_of_ahead htag ahead2 rfl
  rw [unpackCal, send_chksz (room.mono (by simp)), hfetch0, hfetch1, low32_zext, low32_zext, hextract,
    CalLists.map_headerField hwf]
  have hcounted {n : ℕ} (hn : n < 2 ^ 15) : (BitVec.ofNat 32 n).toNat = n :=
    (BitVec.toNat_ofNat n 32).trans (Nat.mod_eq_of_lt (hn.trans (by decide)))
  have htagged : decide ((if x.asyncTag.isSome then 1 else 0 : Word) = 1) = x.asyncTag.isSome := by
    cases x.asyncTag.isSome <;> decide
  simp only [CalLists.fieldValues, hcounted (hsource.trans (by decide)), hcounted (hsystem.trans (by decide)),
    hcounted hvector, hcounted hasync, htagged]
  rw [← CalLists.count, hvsize, send_chkvl hfits]
  exact ⟨t3, hlists⟩

/-- Settles O57: packing passes the bytes of the structure, and unpacking hands them on from their start. -/
theorem calIsPackedAndUnpacked : Obligations.CalIsPackedAndUnpacked := by
  intro x s hwf room
  obtain ⟨t, hpassed, hpack⟩ := packCal_passed hwf room
  obtain ⟨u, hunpack⟩ := unpackCal_of_ahead hwf (hpassed.rewind (CalLists.length_bytes hwf ▸ room))
  exact ⟨t, u, hpack, hunpack⟩

/-! ## The source's example (R161, R163) -/

/-- The example's lists: one source entry. -/
def calExample : CalLists := ⟨[0xFFFFFFFF], [], [], [], none⟩

/-- Only the count of the source list is not 0, and its place is the one the source fixes. -/
theorem headerWord_calExample : calExample.headerWord 0 = 0x00010000 ∧ calExample.headerWord 1 = 0 := by
  obtain ⟨rest, hpairs, hzero⟩ : ∃ rest, calExample.pairs = (calSource, 1) :: rest ∧ ∀ p ∈ rest, p.2 = 0 :=
    ⟨_, rfl, by simp [calExample]⟩
  have hfilter (k : Fin 2) : ∀ p ∈ rest.filter fun p => p.1.word = k, p.2 = 0 :=
    fun p hp => hzero p (List.mem_of_mem_filter hp)
  rw [CalLists.headerWord, CalLists.headerWord, CalLists.inWord, CalLists.inWord, ← CalLists.pairs, hpairs,
    List.filter_cons_of_pos (by rfl), List.filter_cons_of_neg (by decide), insertFields_of_zero (hfilter 1)]
  exact ⟨insertFields_of_zero (hfilter 0) _, rfl⟩

/-- Settles O56: the bytes passed are the two header words and the entry. -/
theorem calExampleBytes : Obligations.CalExampleBytes := by
  intro s room
  obtain ⟨t, hpassed, hpack⟩ := packCal_passed (x := calExample) (by decide) room
  obtain ⟨hword0, hword1⟩ := headerWord_calExample
  have hholds := hpassed.holds
  rw [CalLists.bytes, hword0, hword1] at hholds
  obtain ⟨h0, hrest⟩ := State.holds_append.1 hholds
  obtain ⟨h1, h2⟩ := State.holds_append.1 hrest
  have hentry : t.holds (s.cur.toNat + 8) (wordBytes 0xFFFFFFFF) := (State.holds_append (cs := [])).1 h2 |>.1
  exact ⟨t, hpack, hpassed.cur, State.loadBE_of_holds h0, State.loadBE_of_holds h1, State.loadBE_of_holds hentry⟩

end Sys2Proof.Machine
end

section
/-! SectorStepScan (spec/44_field_layouts.md R165): the header around its sub-bitmap word, then records of 80 bytes. -/

namespace Sys2Proof.Machine

/-! ## The sub-bitmap word (R156) -/

section Bitmap

variable {s : State}

theorem stbitmap_passed (sh : Fin 8) (flags : Word) (room : s.Room 4) :
    ∃ t, Passed s t (wordBytes (packShape (Config.shape sh) flags)) ∧
      ∀ {α : Type} (k : Word → State → Option (Finish α)),
        stbitmap .always (BitVec.ofNat 8 sh.val) flags s k = k (packShape (Config.shape sh) flags) t := by
  obtain ⟨t, ht, hsend⟩ := send_word (packShape (Config.shape sh) flags)
    (room.respond (zext (packShape (Config.shape sh) flags)))
  refine ⟨t, (Passed.respond s _).trans ht, fun k => ?_⟩
  rw [stbitmap_eq (shapeInRange_shapeByte sh), shapeEntries_shapeByte, hsend, low32_zext]

theorem ldbitmap_passed (sh : Fin 8) {w : Word} {cs : List Byte} (ahead : s.Ahead (wordBytes w ++ cs)) :
    ∃ t, Passed s t (wordBytes w) ∧ ∀ {α : Type} (k : Word → Word → State → Option (Finish α)),
      ldbitmap .always (BitVec.ofNat 8 sh.val) s k = k w (unpackShape (Config.shape sh) w) t := by
  obtain ⟨t, ht, hfetch⟩ := fetch_word ahead
  refine ⟨t.respond (zext (unpackShape (Config.shape sh) w)), ?_, fun k => ?_⟩
  · simpa only [List.append_nil] using ht.trans (Passed.respond t _)
  · rw [ldbitmap, hfetch, low32_zext, send_ok (exec_bmunpack_of_open sh rfl w) rfl, low32_zext]

end Bitmap

theorem sssShape_eq : sssShape = BitVec.ofNat 8 (7 : Fin 8).val := rfl

/-- Twelve flags come back from the sub-bitmap (R103, R109). -/
theorem unpackShape_packShape_sss {flags : Word} (hflags : flags.toNat < 2 ^ 12) :
    unpackShape (Config.shape 7) (packShape (Config.shape 7) flags) = flags := by
  have htwelve : (Config.shape 7).length = 12 := Config.shape_sss_has_twelve
  apply BitVec.eq_of_toNat_eq
  rw [unpackShape_packShape (Config.shape_short 7) (Config.shape_distinct 7), htwelve, Nat.mod_eq_of_lt hflags]

/-! ## The records -/

theorem length_flatten_records {rs : List (List Byte)} (hrs : ∀ r ∈ rs, r.length = Config.sssRecord) :
    rs.flatten.length = 80 * rs.length := by
  rw [List.length_flatten, List.eq_replicate_of_mem (a := Config.sssRecord) (l := rs.map List.length)
    (by simpa using hrs), List.sum_replicate, List.length_map, smul_eq_mul, Nat.mul_comm, Config.sssRecord]

/-- The loads of the records hand on the records ahead (R165). -/
theorem ldrecords_passed {rs : List (List Byte)} {cs : List Byte} {s : State}
    (hrs : ∀ r ∈ rs, r.length = Config.sssRecord) (ahead : s.Ahead (rs.flatten ++ cs)) :
    ∃ t, Passed s t rs.flatten ∧ ∀ {α : Type} (k : List (List Byte) → State → Option (Finish α)),
      ldrecords .always rs.length s k = k rs t := by
  induction rs generalizing s with
  | nil => exact ⟨s, Passed.refl s, fun k => rfl⟩
  | cons r rs ih =>
    obtain ⟨hr, hrest⟩ := List.forall_mem_cons.1 hrs
    rw [List.flatten_cons, List.append_assoc] at ahead
    obtain ⟨t, ht, hbytes⟩ := ldbytes_passed ahead
    obtain ⟨u, hu, hrecords⟩ := ih hrest (ht.ahead ahead)
    refine ⟨u, ht.trans hu, fun k => ?_⟩
    rw [List.length_cons, ldrecords, ← hr, hbytes, hrecords]

/-! ## The whole structure -/

section Scan

variable {x : SectorStepScan} {base : Word} {s : State}

theorem SectorStepScan.wf_iff : x.wf base = true ↔ x.before.length + 4 + x.after.length = base.toNat ∧
    x.flags.toNat < 2 ^ 12 ∧ ∀ r ∈ x.records, r.length = Config.sssRecord := by
  simp only [SectorStepScan.wf, Bool.and_eq_true, decide_eq_true_eq, List.all_eq_true, and_assoc]

/-- The bytes of the structure (R165). -/
def SectorStepScan.bytes (x : SectorStepScan) : List Byte :=
  x.before ++ (wordBytes (packShape (Config.shape 7) x.flags) ++ (x.after ++ x.records.flatten))

theorem SectorStepScan.length_bytes (hwf : x.wf base = true) :
    x.bytes.length = base.toNat + 80 * x.records.length := by
  obtain ⟨hbase, -, hrecords⟩ := SectorStepScan.wf_iff.1 hwf
  simp only [SectorStepScan.bytes, List.length_append, length_wordBytes, length_flatten_records hrecords]
  omega

/-- Packing passes the bytes of the structure (R146, R165). -/
theorem packSss_passed (hwf : x.wf base = true) (room : s.Room (base.toNat + 80 * x.records.length)) :
    ∃ t, Passed s t x.bytes ∧ packSss base .always x s = some ⟨.ok, some (), t⟩ := by
  have hlength := SectorStepScan.length_bytes hwf
  simp only [SectorStepScan.bytes, List.length_append, length_wordBytes] at hlength
  have hn : x.records.length < 2 ^ 32 := (show _ ≤ base.toNat + 80 * x.records.length by omega).trans_lt room.lt
  obtain ⟨size, hsize, hvsize⟩ := send_vsize s base (BitVec.ofNat 32 Config.sssRecord) hn
  have hfits : (s.respond size).Room size.toNat := by
    rw [hsize]
    exact room
  have room0 : ((s.respond size).respond 0).Room (base.toNat + 80 * x.records.length) := room
  obtain ⟨t1, h1, hbefore⟩ := stbytes_passed (bs := x.before) (room0.mono (by omega))
  obtain ⟨t2, h2, hbitmap⟩ := stbitmap_passed 7 x.flags (h1.room room0 (by omega))
  have h12 := h1.trans h2
  obtain ⟨t3, h3, hafter⟩ := stbytes_passed (bs := x.after ++ x.records.flatten)
    (h12.room room0 (by simp only [List.length_append, length_wordBytes]; omega))
  have hall := h12.trans h3
  refine ⟨t3, ?_, ?_⟩
  · simpa only [SectorStepScan.bytes, List.nil_append, List.append_assoc] using (Passed.respond s 0).trans hall
  · rw [packSss, sssVsize, hvsize, send_chksz hfits, hbefore, sssShape_eq, hbitmap, ← stbytes_append, hafter,
      finish_of_answeredOk (hall.answered (.inl rfl))]

/-- Unpacking hands on the structure ahead, where the host reads NumRecords rightly (R146, R165). -/
theorem unpackSss_of_ahead (hwf : x.wf base = true) (ahead : s.Ahead x.bytes)
    {count : List Byte → Word → List Byte → Word}
    (hcount : count x.before (packShape (Config.shape 7) x.flags) x.after = BitVec.ofNat 32 x.records.length) :
    ∃ t, unpackSss base .always s.cur x.before.length x.after.length count s = some ⟨.ok, some x, t⟩ := by
  obtain ⟨hbase, hflags, hrecords⟩ := SectorStepScan.wf_iff.1 hwf
  have room : s.Room (base.toNat + 80 * x.records.length) := SectorStepScan.length_bytes hwf ▸ ahead.room
  have hn : x.records.length < 2 ^ 32 := (show _ ≤ base.toNat + 80 * x.records.length by omega).trans_lt room.lt
  have ahead0 := ahead.respond 0
  rw [SectorStepScan.bytes] at ahead0
  obtain ⟨t1, h1, hbefore⟩ := ldbytes_passed ahead0
  have ahead1 := h1.ahead ahead0
  obtain ⟨t2, h2, hbitmap⟩ := ldbitmap_passed 7 ahead1
  have ahead2 := h2.ahead ahead1
  obtain ⟨t3, h3, hafter⟩ := ldbytes_passed ahead2
  obtain ⟨size, hsize, hvsize⟩ := send_vsize t3 base (BitVec.ofNat 32 Config.sssRecord) hn
  have hlen : t3.len = s.len := h3.len.trans (h2.len.trans h1.len)
  have hfits : s.cur.toNat + size.toNat ≤ (t3.respond size).len.toNat := by
    rw [hsize, State.respond_len, hlen]
    exact room
  have ahead3 := ((h3.ahead ahead2).respond size).respond 0
  rw [← List.append_nil x.records.flatten] at ahead3
  obtain ⟨t4, h4, hload⟩ := ldrecords_passed hrecords ahead3
  refine ⟨t4, ?_⟩
  have hcounted : (BitVec.ofNat 32 x.records.length).toNat = x.records.length :=
    (BitVec.toNat_ofNat _ 32).trans (Nat.mod_eq_of_lt hn)
  have hheader : (zext base).toNat = base.toNat := toNat_zext base (by decide)
  rw [unpackSss, send_chksz (room.mono (by omega)), hbefore, sssShape_eq, hbitmap, hafter, hcount,
    sssVsize, hvsize, send_chkvl hfits, hcounted, hload, unpackShape_packShape_sss hflags,
    finish_of_answeredOk (h4.answered (.inl rfl))]

end Scan

/-- Settles O59: packing passes the bytes of the structure, and unpacking hands them on from their start. -/
theorem sectorStepScanIsPackedAndUnpacked : Obligations.SectorStepScanIsPackedAndUnpacked := by
  intro base x count s hwf room hcount
  have hlength := SectorStepScan.length_bytes hwf
  obtain ⟨t, hpassed, hpack⟩ := packSss_passed hwf room
  obtain ⟨u, hunpack⟩ := unpackSss_of_ahead hwf (hpassed.rewind (hlength ▸ room)) hcount
  exact ⟨t, u, hpack, hlength ▸ hpassed.cur, hunpack⟩

end Sys2Proof.Machine
end

section
/-! The payload region of a GpsAscii (spec/44_field_layouts.md R166, R174). -/

namespace Sys2Proof.Machine

theorem length_gpsRegion (p : List Byte) (nw : ℕ) : (gpsRegion p nw).length = 4 * nw := by
  rw [gpsRegion, List.length_append, List.length_take, List.length_replicate]
  omega

/-- A byte of the region is the payload's, or 0 beyond its end (R166). -/
theorem getElem_gpsRegion (p : List Byte) {nw j : ℕ} (hj : j < (gpsRegion p nw).length) :
    (gpsRegion p nw)[j] = (p[j]?).getD 0 := by
  rw [length_gpsRegion] at hj
  simp only [gpsRegion]
  rcases Nat.lt_or_ge j p.length with hin | hout
  · rw [List.getElem_append_left (by rw [List.length_take]; omega), List.getElem_take, List.getElem?_eq_getElem hin,
      Option.getD_some]
  · rw [List.getElem_append_right (by rw [List.length_take]; omega), List.getElem_replicate,
      List.getElem?_eq_none hout, Option.getD_none]

/-- The kept bytes and the padding are one string of stores. -/
theorem stgps_eq {α : Type} (g : Gate) (p : List Byte) (nw : ℕ) (s : State) (k : State → Option (Finish α)) :
    stgps g p nw s k = stbytes g (gpsRegion p nw) s k := by
  rw [gpsRegion, stbytes_append]
  rfl

/-- Settles O60: the stores pass the region; an empty region issues nothing. -/
theorem gpsPayloadIsCutOrPadded : Obligations.GpsPayloadIsCutOrPadded := by
  intro s p nw room
  by_cases hnw : nw = 0
  case pos =>
    subst hnw
    exact ⟨s, packGpsPayload_zero .always p s, rfl, fun _ => rfl, fun j hj => absurd hj (Nat.not_lt_zero j),
      fun _ _ => rfl⟩
  case neg =>
    have hlength := length_gpsRegion p nw
    obtain ⟨t, hpassed, hstore⟩ := stbytes_passed (bs := gpsRegion p nw) (hlength ▸ room.resolve_left hnw)
    have hne : gpsRegion p nw ≠ [] := List.ne_nil_of_length_pos (by omega)
    refine ⟨t, ?_, hlength ▸ hpassed.cur, fun h => absurd h hnw, fun j hj => ?_, hlength ▸ hpassed.frame⟩
    · rw [packGpsPayload, if_neg hnw, stgps_eq, hstore, finish_of_answeredOk (hpassed.answered (.inr hne))]
    · rw [hpassed.holds j (by rwa [hlength]), getElem_gpsRegion]

end Sys2Proof.Machine
end

section
/-! The one status of a command, in the fixed order (spec/60_exceptions.md R188 to R190, R194): the skeleton's order is
`commandStatus`, a bounds check is where a rule's error comes from, and an abnormal end leaves all that the status reads. -/

namespace Sys2Proof.Machine

/-! ## The status of a command's own rule -/

/-- The status a command answers with when its own rule, stage 3 of R77, ends so. -/
def ruleStatus : Except CommandError (State × DWord) → Status
  | .ok _ => .ok
  | .error e => e.status

/-- A rule that is decided by one bounds check ends with its error exactly where the extent exceeds the length. -/
theorem ruleStatus_of_bounds {o : Except CommandError (State × DWord)} {p : State × DWord} {e : CommandError}
    {extent len : ℕ} (h : (extent ≤ len ∧ o = .ok p) ∨ (len < extent ∧ o = .error e)) :
    ruleStatus o = if len < extent then e.status else .ok := by
  rcases h with ⟨fits, rfl⟩ | ⟨hover, rfl⟩
  · exact (if_neg fits.not_gt).symm
  · exact (if_pos hover).symm

/-- Only the four commands that compare an extent with LEN can raise an error of their own (R188, R189). -/
theorem ruleStatus_ownRule (i : Instr) (s : State) : ruleStatus (ownRule i s) = ownStatus i s := by
  cases i
  case stbe g n x v => exact ruleStatus_of_bounds (storeRule_cases n.toNat x v s)
  case ldbe g n x => exact ruleStatus_of_bounds (loadRule_cases n.toNat x s)
  case chksz g x size => exact ruleStatus_of_bounds (checkRule_cases .bufferTooShort x size s)
  case chkvl g x size => exact ruleStatus_of_bounds (checkRule_cases .inconsistentLength x size s)
  all_goals rfl

/-! ## The status of a command -/

/-- The skeleton of R77 answers with the first status that applies: an illegal operand, a closed gate, the rule's own. -/
theorem perform_status {legal : Bool} {g : Gate} {rule : Effect} {s t : State} (h : perform legal g rule s = .next t) :
    ∃ r, t.response = some
      ⟨if legal then if s.gateOpen g then ruleStatus (rule s) else .skipped else .illegalCommand, r⟩ := by
  rcases perform_cases h with ⟨rfl, rfl⟩ | ⟨rfl, hg, rfl⟩ | ⟨rfl, hg, e, hrule, rfl⟩ | ⟨rfl, hg, u, r, hrule, rfl⟩
  · exact ⟨0, rfl⟩
  · exact ⟨0, by simp [hg]⟩
  · exact ⟨0, by simp [hg, hrule, ruleStatus]⟩
  · exact ⟨r, by simp [hg, hrule, ruleStatus]⟩

theorem exec_status {i : Instr} {s t : State} (h : exec i s = .next t) :
    ∃ r, t.response = some ⟨commandStatus i s, r⟩ := by
  rw [exec_eq_perform] at h
  rw [commandStatus, ← ruleStatus_ownRule]
  exact perform_status h

theorem exec_answers_status (i : Instr) (s : State) :
    ∃ t r, exec i s = .next t ∧ t.response = some ⟨commandStatus i s, r⟩ := by
  obtain ⟨t, ht⟩ := exec_answers i s
  obtain ⟨r, hr⟩ := exec_status ht
  exact ⟨t, r, ht, hr⟩

/-- Settles O10: a command answers its status through the skeleton, an illegal word at once; and LEN is at most BUF_CAP
in a sound state. -/
theorem everyCommandAnswersItsStatus : Obligations.EveryCommandAnswersItsStatus := by
  refine ⟨fun w s => ?_, exec_answers_status, fun s addr n hs hfits => (not_lt.1 hfits).trans hs.lenWithin⟩
  rw [wordStatus]
  cases hd : decode w with
  | command i =>
    rw [step_issue_command hd]
    exact exec_answers_status i s
  | illegal why => exact ⟨_, 0, step_issue_illegal hd s, rfl⟩

/-! ## Abnormal ends (R190, R197) -/

/-- No status looks at an earlier response (R31). -/
theorem commandStatus_raise (i : Instr) (s : State) (st : Status) : commandStatus i (s.raise st) = commandStatus i s := by
  cases i <;> rfl

/-- A command whose status is not OK ends abnormally with that status. -/
theorem exec_of_status_ne_ok {i : Instr} {s : State} {st : Status} (hst : commandStatus i s = st) (hne : st ≠ .ok) :
    exec i s = .next (s.raise st) := by
  obtain ⟨t, ⟨st', res⟩, ht, hr, hkeep⟩ := exec_response i s
  obtain ⟨res', hr'⟩ := exec_status ht
  obtain rfl : st' = st := by
    cases hr.symm.trans hr'
    exact hst
  obtain ⟨rfl, rfl⟩ := hkeep hne
  exact ht

/-- Settles O11: an abnormal end changes nothing that the status reads, so the command issued again ends the same way. -/
theorem commandThatIsNotOkChangesNothing : Obligations.CommandThatIsNotOkChangesNothing := by
  intro i s t st r h hr hne
  obtain ⟨r', hr'⟩ := exec_status h
  have hst : commandStatus i s = st := by
    cases hr.symm.trans hr'
    rfl
  obtain rfl : s.raise st = t := Host.Outcome.next.inj ((exec_of_status_ne_ok hst hne).symm.trans h)
  have hr0 : r = 0 := by
    cases hr
    rfl
  exact ⟨hr0, rfl, exec_of_status_ne_ok ((commandStatus_raise i s st).trans hst) hne⟩

end Sys2Proof.Machine
end

section
/-! Reset (spec/70_reset_and_hazards.md R205 to R207): the reset state and the state after the reset event. -/

namespace Sys2Proof.Machine

theorem step_reset {s : State} {rest : List HostAction} (h : s.host = .reset :: rest) :
    step s = .next ({ s with host := rest } : State).afterReset :=
  step_serves h

/-- While no byte is written since reset every byte is the epoch's free value (R206, U2). -/
theorem State.byteAt_of_buf_eq_nil {s : State} (h : s.buf = []) (a : ℕ) : s.byteAt a = Config.unwrittenByte s.epoch a := by
  rw [State.byteAt, h]
  rfl

/-- Settles O15: the reset state agrees with the state after a reset event in BUF and LEN, of which the invariant speaks. -/
theorem resetStateIsSound : Obligations.ResetStateIsSound :=
  (State.Inv.afterReset .reset).of_eq rfl rfl

/-- Settles O18: the step of a reset event gives `State.afterReset`, whose fields are known. -/
theorem resetClearsTheRegisters : Obligations.ResetClearsTheRegisters :=
  ⟨⟨rfl, rfl, rfl, rfl⟩, fun _ _ h => ⟨_, step_reset h, by simp⟩⟩

/-- Settles O19: no byte is written in either state, and the event counts the epoch up. -/
theorem resetMakesEveryByteFree : Obligations.ResetMakesEveryByteFree :=
  ⟨State.byteAt_of_buf_eq_nil rfl, fun _ _ h => ⟨_, step_reset h, State.byteAt_of_buf_eq_nil rfl⟩⟩

end Sys2Proof.Machine
end

section
/-! What the reset values imply for a host that initialises nothing (spec/70_reset_and_hazards.md R208): IW 0 closes every
gate, LEN 0 leaves no room for a byte, and a register that is 0 reads as 0. -/

namespace Sys2Proof.Machine

/-! ## IW 0 closes every gate (R104) -/

theorem gateOpen_of_iw_eq_zero {s : State} (hiw : s.iw = 0) (p : BitVec 5) : s.gateOpen (.ifPresent p) = false := by
  rw [State.gateOpen, hiw]
  exact BitVec.getLsbD_zero

/-! ## LEN 0 leaves no room for an access (R140, R141) -/

section Overrun

variable {x : AddrOperand} {s : State}

theorem storeRule_of_overrun {n : ℕ} (v : DWord) (hover : s.len.toNat < s.ea x + n) :
    storeRule n x v s = .error .bufferTooShort :=
  ((storeRule_cases n x v s).resolve_left fun h => h.1.not_gt hover).2

theorem loadRule_of_overrun {n : ℕ} (hover : s.len.toNat < s.ea x + n) : loadRule n x s = .error .bufferTooShort :=
  ((loadRule_cases n x s).resolve_left fun h => h.1.not_gt hover).2

end Overrun

theorem accessWidth_pos {n : Byte} (hn : Claims.accessWidth n) : 0 < n.toNat := by
  rcases hn with rfl | rfl | rfl | rfl <;> decide

theorem overrun_of_len_eq_zero {s : State} (hlen : s.len = 0) (ea : ℕ) {n : ℕ} (hn : 0 < n) : s.len.toNat < ea + n := by
  rw [hlen]
  exact Nat.add_pos_right ea hn

/-! ## A check at 0 passes for size 0 alone (R144, R145) -/

theorem ea_eq_zero_of_cur_eq_zero {s : State} (hcur : s.cur = 0) {x : AddrOperand} (hx : x = .absolute 0 ∨ x = .cursor) :
    s.ea x = 0 := by
  rcases hx with rfl | rfl
  · rfl
  · exact congrArg BitVec.toNat hcur

/-- What an ungated check answers where the buffer has length 0, whichever error is its own. -/
theorem exec_check_of_len_eq_zero {i : Instr} {e : CommandError} {x : AddrOperand} {size : DWord} {s : State}
    (hi : ownRule i = checkRule e x size) (hwf : i.wf = true) (hg : s.gateOpen i.gate = true) (hlen : s.len = 0)
    (hea : s.ea x = 0) :
    exec i s = .next { s with response := some (if size = 0 then ⟨.ok, 0⟩ else ⟨e.status, 0⟩) } := by
  obtain ⟨hpass, hfail⟩ := exec_check_of_open hi hwf hg
  split
  case isTrue hsize => exact hpass (by simp [hea, hsize])
  case isFalse hsize =>
    have hpos : 0 < size.toNat := Nat.pos_of_ne_zero fun h => hsize (BitVec.eq_of_toNat_eq h)
    exact hfail (overrun_of_len_eq_zero hlen (s.ea x) hpos)

/-! ## A register that is 0 reads as 0 (R102, R137, R139) -/

theorem exec_of_zext_zero {i : Instr} {s : State} {w : ℕ} {v : BitVec w} (hwf : i.wf = true)
    (hg : s.gateOpen i.gate = true) (hrule : ownRule i s = .ok (s, zext v)) (hv : v = 0) :
    exec i s = .next { s with response := some ⟨.ok, 0⟩ } := by
  have hzero : zext v = 0 := by simp [zext, hv]
  exact exec_of_rule_ok hwf hg (hzero ▸ hrule)

/-- Settles O20: the gates are closed, the accesses and the checks of some bytes run over LEN, and the registers are 0. -/
theorem commandsRightAfterReset : Obligations.CommandsRightAfterReset := by
  intro s hiw hcur hlen
  refine ⟨fun i p hwf hp => exec_of_gateClosed hwf (hp ▸ gateOpen_of_iw_eq_zero hiw p), fun n x v hn => ?_,
    fun x size hx => ?_, exec_of_zext_zero rfl rfl rfl hlen, exec_of_zext_zero rfl rfl rfl hcur,
    exec_of_zext_zero rfl rfl rfl hiw⟩
  · have hwf : byteCountOk n = true := byteCountOk_of_accessWidth hn
    have hover : s.len.toNat < s.ea x + n.toNat := overrun_of_len_eq_zero hlen (s.ea x) (accessWidth_pos hn)
    exact ⟨exec_of_rule_error (i := .stbe .always n x v) hwf rfl (storeRule_of_overrun v hover),
      exec_of_rule_error (i := .ldbe .always n x) hwf rfl (loadRule_of_overrun hover)⟩
  · have hea : s.ea x = 0 := ea_eq_zero_of_cur_eq_zero hcur hx
    exact ⟨exec_check_of_len_eq_zero (i := .chksz .always x size) rfl rfl rfl hlen hea,
      exec_check_of_len_eq_zero (i := .chkvl .always x size) rfl rfl rfl hlen hea⟩

end Sys2Proof.Machine
end
